-- ==== Sys2Proof/Word.lean ====
section
/-! DEFINITION. The word type of the block (R6: every register is 32 bits wide) and its byte. -/

namespace Sys2Proof

/-- A register or a command word, 32 bits (R6, R80). -/
abbrev Word := BitVec 32

/-- One byte lane of the host bus (R64). -/
abbrev Byte := BitVec 8

end Sys2Proof
end

