-- ==== Sys2Proof/Config.lean ====
section
/-! DEFINITION. The implementation parameters of R6, and the five parameters the spec leaves open
(spec/92_eei_decisions.md section 8), which have no value in the model. -/

namespace Sys2Proof.Config

/-- NUM_VOICES (R6, D4). -/
abbrev numVoices : Nat := 10

/-- NUM_OSC, the oscillators of one voice (R6, D5). -/
abbrev numOsc : Nat := 2

/-- CHUNK, the filter modulation sub-chunk in samples (R6, D6). -/
abbrev chunk : Nat := 32

/-- EVQ_DEPTH (R6, D7). -/
abbrev evqDepth : Nat := 128

/-- CMDQ_DEPTH (R6, D7). -/
abbrev cmdqDepth : Nat := 16

/-- MAX_BLOCK_CAP, the frames OUTBUF holds for one channel (R6, D8). -/
abbrev maxBlockCap : Nat := 1024

/-- NUM_CH_CAP, the channels OUTBUF holds (R6, D8). -/
abbrev numChCap : Nat := 2

/-- The size of the register window in bytes (R6, R60). -/
abbrev windowSize : Nat := 0x4000

/-- BASE in units of 16 KiB: an open parameter with no value here (R60, I6; log 13). -/
opaque baseIndex : Nat

/-- BASE, the window's base address: 16 KiB aligned, otherwise open (R60, I6). -/
def base : Nat := windowSize * baseIndex

/-- IRQ_LINE, the interrupt-controller input that irq drives: open, and no rule reads it (R285, I7;
log 13). -/
opaque irqLine : Nat

/-- RESET_TIMING, how long reset is asserted: open, and no rule reads it (R300, I8; log 13). -/
opaque resetTiming : Nat

/-- CLOCK_HZ: open, and no rule reads it (R308, I10; log 13, log 17). -/
opaque clockHz : Nat

/-- RENDER_CYCLES, the clock cycles a RENDER of n frames takes: open, and no rule reads it (R308, I10;
log 13, log 17). -/
opaque renderCycles : Nat → Nat

end Sys2Proof.Config
end

