-- ==== Sys2Proof/Syntax.lean ====
section
/-! DEFINITION. The parameter ids of R26, the commands of R82 to R88 (one constructor per row of
spec/opcode_table.json), and the assembly lines of R92 and R93. -/

namespace Sys2Proof

/-- A legal parameter id, under its name in R26. -/
inductive ParamId where
  | ampAttack
  | ampDecay
  | ampSustain
  | ampRelease
  | fltAttack
  | fltDecay
  | fltSustain
  | fltRelease
  | filterCutoff
  | filterResonance
  | filterMode
  | lfoFreq
  | lfoAmount
  | fenvEnable
  | fenvAmount
  | osc0Waveform
  | osc1Waveform
  | osc0Enable
  | osc1Enable
  | cfgSampleRate
  | cfgMaxBlock
  | cfgNumChannels
deriving DecidableEq, Repr

/-- The 22 legal ids, in the order of R26. -/
def ParamId.all : List ParamId :=
  [.ampAttack, .ampDecay, .ampSustain, .ampRelease, .fltAttack, .fltDecay, .fltSustain, .fltRelease] ++
  [.filterCutoff, .filterResonance, .filterMode, .lfoFreq, .lfoAmount, .fenvEnable, .fenvAmount] ++
  [.osc0Waveform, .osc1Waveform, .osc0Enable, .osc1Enable, .cfgSampleRate, .cfgMaxBlock, .cfgNumChannels]

/-- A decoded command. An operand field holds exactly the bits the format gives it, unsigned (R91), so
every term of this type is a well-formed command; which numbers fit a field is checked on the assembly
line (WellFormed.lean). -/
inductive Instr where
  /-- R100. -/
  | nop
  /-- R101. -/
  | prepare
  /-- SET_PARAM AMP_ATTACK (id 0x00), R102. -/
  | setParamAmpAttack (val : BitVec 18)
  /-- SET_PARAM AMP_DECAY (id 0x01), R102. -/
  | setParamAmpDecay (val : BitVec 18)
  /-- SET_PARAM AMP_SUSTAIN (id 0x02), R102. -/
  | setParamAmpSustain (val : BitVec 18)
  /-- SET_PARAM AMP_RELEASE (id 0x03), R102. -/
  | setParamAmpRelease (val : BitVec 18)
  /-- SET_PARAM FLT_ATTACK (id 0x04), R102. -/
  | setParamFltAttack (val : BitVec 18)
  /-- SET_PARAM FLT_DECAY (id 0x05), R102. -/
  | setParamFltDecay (val : BitVec 18)
  /-- SET_PARAM FLT_SUSTAIN (id 0x06), R102. -/
  | setParamFltSustain (val : BitVec 18)
  /-- SET_PARAM FLT_RELEASE (id 0x07), R102. -/
  | setParamFltRelease (val : BitVec 18)
  /-- SET_PARAM FILTER_CUTOFF (id 0x08), R102. -/
  | setParamFilterCutoff (val : BitVec 18)
  /-- SET_PARAM FILTER_RESONANCE (id 0x09), R102. -/
  | setParamFilterResonance (val : BitVec 18)
  /-- SET_PARAM FILTER_MODE (id 0x0A), R102. -/
  | setParamFilterMode (val : BitVec 18)
  /-- SET_PARAM LFO_FREQ (id 0x0B), R102. -/
  | setParamLfoFreq (val : BitVec 18)
  /-- SET_PARAM LFO_AMOUNT (id 0x0C), R102. -/
  | setParamLfoAmount (val : BitVec 18)
  /-- SET_PARAM FENV_ENABLE (id 0x0D), R102. -/
  | setParamFenvEnable (val : BitVec 18)
  /-- SET_PARAM FENV_AMOUNT (id 0x0E), R102. -/
  | setParamFenvAmount (val : BitVec 18)
  /-- SET_PARAM OSC0_WAVEFORM (id 0x10), R102. -/
  | setParamOsc0Waveform (val : BitVec 18)
  /-- SET_PARAM OSC1_WAVEFORM (id 0x11), R102. -/
  | setParamOsc1Waveform (val : BitVec 18)
  /-- SET_PARAM OSC0_ENABLE (id 0x18), R102. -/
  | setParamOsc0Enable (val : BitVec 18)
  /-- SET_PARAM OSC1_ENABLE (id 0x19), R102. -/
  | setParamOsc1Enable (val : BitVec 18)
  /-- SET_PARAM CFG_SAMPLE_RATE (id 0x20), R102. -/
  | setParamCfgSampleRate (val : BitVec 18)
  /-- SET_PARAM CFG_MAX_BLOCK (id 0x21), R102. -/
  | setParamCfgMaxBlock (val : BitVec 18)
  /-- SET_PARAM CFG_NUM_CHANNELS (id 0x22), R102. -/
  | setParamCfgNumChannels (val : BitVec 18)
  /-- R103. -/
  | noteOn (note vel : BitVec 7)
  /-- R104; `hard` is the bit H. -/
  | noteOff (hard : Bool) (note vel : BitVec 7)
  /-- R105; `hard` is the bit H. -/
  | allNotesOff (hard : Bool)
  /-- R107; `nfr` is the requested frame count. -/
  | render (nfr : BitVec 16)
deriving DecidableEq, Repr

/-- The SET_PARAM command of one parameter (format P of R81). -/
def setParamInstr : ParamId → BitVec 18 → Instr
  | .ampAttack, v => .setParamAmpAttack v
  | .ampDecay, v => .setParamAmpDecay v
  | .ampSustain, v => .setParamAmpSustain v
  | .ampRelease, v => .setParamAmpRelease v
  | .fltAttack, v => .setParamFltAttack v
  | .fltDecay, v => .setParamFltDecay v
  | .fltSustain, v => .setParamFltSustain v
  | .fltRelease, v => .setParamFltRelease v
  | .filterCutoff, v => .setParamFilterCutoff v
  | .filterResonance, v => .setParamFilterResonance v
  | .filterMode, v => .setParamFilterMode v
  | .lfoFreq, v => .setParamLfoFreq v
  | .lfoAmount, v => .setParamLfoAmount v
  | .fenvEnable, v => .setParamFenvEnable v
  | .fenvAmount, v => .setParamFenvAmount v
  | .osc0Waveform, v => .setParamOsc0Waveform v
  | .osc1Waveform, v => .setParamOsc1Waveform v
  | .osc0Enable, v => .setParamOsc0Enable v
  | .osc1Enable, v => .setParamOsc1Enable v
  | .cfgSampleRate, v => .setParamCfgSampleRate v
  | .cfgMaxBlock, v => .setParamCfgMaxBlock v
  | .cfgNumChannels, v => .setParamCfgNumChannels v

/-- A line of assembler text (R92) or a pseudo-command (R93), operands as the numbers written. -/
inductive Asm where
  | nop
  | prepare
  /-- SET_PARAM <param>, <value>, the parameter by its number. -/
  | setParam (id val : Nat)
  | noteOn (note vel : Nat)
  /-- NOTE_OFF <note> [, <vel>] [, HARD]; <vel> left out is 0. -/
  | noteOff (note vel : Nat) (hard : Bool)
  | allNotesOff (hard : Bool)
  | render (frames : Nat)
  | setAmpAdsr (a d s r : Nat)
  | setFltAdsr (a d s r : Nat)
  | setWave (osc kind : Nat)
  | oscOn (osc : Nat)
  | oscOff (osc : Nat)
  | setFilter (cutoff res mode : Nat)
  | setLfo (freq amount : Nat)
  | setFenv (enable amount : Nat)
  | configure (sampleRate maxBlock numChannels : Nat)
  | panic
  | releaseAll
deriving DecidableEq, Repr

end Sys2Proof
end

