-- ==== Sys2Proof/WellFormed.lean ====
section
/-! DEFINITION. When an assembly line is well formed: R92, "The assembler rejects an operand that does
not fit its field (NOTE or VEL > 127, VAL > 262143, frames > 65535). It never truncates." A decoded
`Instr` needs no check, since its fields have the widths of R81. -/

namespace Sys2Proof

/-- A number fits an unsigned field of `width` bits. -/
abbrev fits (width v : Nat) : Bool := v < 2 ^ width

/-- An oscillator number names an OSCi parameter of R26: i < NUM_OSC (log 18). -/
abbrev oscExists (i : Nat) : Bool := i < Config.numOsc

/-- Every operand of the line fits its field (R92), and for a pseudo-command every operand of its
expansion (R93). -/
def Asm.wellFormed : Asm → Bool
  | .nop => true
  | .prepare => true
  | .setParam id val => fits 6 id && fits 18 val
  | .noteOn note vel => fits 7 note && fits 7 vel
  | .noteOff note vel _ => fits 7 note && fits 7 vel
  | .allNotesOff _ => true
  | .render frames => fits 16 frames
  | .setAmpAdsr a d s r => fits 18 a && fits 18 d && fits 18 s && fits 18 r
  | .setFltAdsr a d s r => fits 18 a && fits 18 d && fits 18 s && fits 18 r
  | .setWave osc kind => oscExists osc && fits 18 kind
  | .oscOn osc => oscExists osc
  | .oscOff osc => oscExists osc
  | .setFilter cutoff res mode => fits 18 cutoff && fits 18 res && fits 18 mode
  | .setLfo freq amount => fits 18 freq && fits 18 amount
  | .setFenv enable amount => fits 18 enable && fits 18 amount
  | .configure sr mb nch => fits 18 sr && fits 18 mb && fits 18 nch
  | .panic => true
  | .releaseAll => true

end Sys2Proof
end

