-- ==== Sys2Proof/Decode.lean ====
section
/-! DEFINITION. Decoding of command words (R80 to R94), total on all 2^32 words and rejecting by name;
then the encoder, from the same fields; the decode table of R94; and the assembler of R92 and R93. -/

namespace Sys2Proof

/-- R8: `v[hi:lo]`, bits hi down to lo of a word, read as an unsigned integer. -/
def field (w : Word) (hi lo : Nat) : Nat := w.toNat / 2 ^ lo % 2 ^ (hi + 1 - lo)

/-- Why a word decodes to no command (R89). -/
inductive DecodeError where
  /-- OP = w[31:24] in 0x07..0xFF. -/
  | reservedOpcode
  /-- A bit that R81 says must be 0 is 1. -/
  | mustBeZero
  /-- A SET_PARAM whose ID names no parameter of R26. -/
  | reservedParam
deriving DecidableEq, Repr

/-- The id number of a parameter (R26). -/
def ParamId.num : ParamId → Nat
  | .ampAttack => 0x00
  | .ampDecay => 0x01
  | .ampSustain => 0x02
  | .ampRelease => 0x03
  | .fltAttack => 0x04
  | .fltDecay => 0x05
  | .fltSustain => 0x06
  | .fltRelease => 0x07
  | .filterCutoff => 0x08
  | .filterResonance => 0x09
  | .filterMode => 0x0A
  | .lfoFreq => 0x0B
  | .lfoAmount => 0x0C
  | .fenvEnable => 0x0D
  | .fenvAmount => 0x0E
  | .osc0Waveform => 0x10
  | .osc1Waveform => 0x11
  | .osc0Enable => 0x18
  | .osc1Enable => 0x19
  | .cfgSampleRate => 0x20
  | .cfgMaxBlock => 0x21
  | .cfgNumChannels => 0x22

/-- The parameter an id number names, none for a reserved id (R26, R84). -/
def ParamId.ofNum? : Nat → Option ParamId
  | 0x00 => some .ampAttack
  | 0x01 => some .ampDecay
  | 0x02 => some .ampSustain
  | 0x03 => some .ampRelease
  | 0x04 => some .fltAttack
  | 0x05 => some .fltDecay
  | 0x06 => some .fltSustain
  | 0x07 => some .fltRelease
  | 0x08 => some .filterCutoff
  | 0x09 => some .filterResonance
  | 0x0A => some .filterMode
  | 0x0B => some .lfoFreq
  | 0x0C => some .lfoAmount
  | 0x0D => some .fenvEnable
  | 0x0E => some .fenvAmount
  | 0x10 => some .osc0Waveform
  | 0x11 => some .osc1Waveform
  | 0x18 => some .osc0Enable
  | 0x19 => some .osc1Enable
  | 0x20 => some .cfgSampleRate
  | 0x21 => some .cfgMaxBlock
  | 0x22 => some .cfgNumChannels
  | _ => none

/-- Format P: ID = w[23:18], VAL = w[17:0] (R81, R84). -/
def decodeSetParam (w : Word) : Except DecodeError Instr :=
  match ParamId.ofNum? (field w 23 18) with
  | some p => .ok (setParamInstr p (BitVec.ofNat 18 (field w 17 0)))
  | none => .error .reservedParam

/-- Format Z, OP = 0x00 (R82). -/
def decodeNop (w : Word) : Except DecodeError Instr :=
  if field w 23 0 = 0 then .ok .nop else .error .mustBeZero

/-- Format Z, OP = 0x01 (R83). -/
def decodePrepare (w : Word) : Except DecodeError Instr :=
  if field w 23 0 = 0 then .ok .prepare else .error .mustBeZero

/-- Format N with H = 0: NOTE = w[14:8], VEL = w[6:0]; w[23:15] and w[7] must be 0 (R81, R85). -/
def decodeNoteOn (w : Word) : Except DecodeError Instr :=
  if field w 23 15 = 0 ∧ field w 7 7 = 0 then
    .ok (.noteOn (BitVec.ofNat 7 (field w 14 8)) (BitVec.ofNat 7 (field w 6 0)))
  else .error .mustBeZero

/-- Format N: H = w[16], NOTE = w[14:8], VEL = w[6:0]; w[23:17], w[15] and w[7] must be 0 (R81, R86). -/
def decodeNoteOff (w : Word) : Except DecodeError Instr :=
  if field w 23 17 = 0 ∧ field w 15 15 = 0 ∧ field w 7 7 = 0 then
    .ok (.noteOff (field w 16 16 == 1) (BitVec.ofNat 7 (field w 14 8)) (BitVec.ofNat 7 (field w 6 0)))
  else .error .mustBeZero

/-- Format A: H = w[16]; w[23:17] and w[15:0] must be 0 (R81, R87). -/
def decodeAllNotesOff (w : Word) : Except DecodeError Instr :=
  if field w 23 17 = 0 ∧ field w 15 0 = 0 then .ok (.allNotesOff (field w 16 16 == 1))
  else .error .mustBeZero

/-- Format R: NFR = w[15:0]; w[23:16] must be 0 (R81, R88). -/
def decodeRender (w : Word) : Except DecodeError Instr :=
  if field w 23 16 = 0 then .ok (.render (BitVec.ofNat 16 (field w 15 0))) else .error .mustBeZero

/-- The decoder: OP = w[31:24] selects the format (R81, R89, R94). -/
def decode (w : Word) : Except DecodeError Instr :=
  match field w 31 24 with
  | 0x00 => decodeNop w
  | 0x01 => decodePrepare w
  | 0x02 => decodeSetParam w
  | 0x03 => decodeNoteOn w
  | 0x04 => decodeNoteOff w
  | 0x05 => decodeAllNotesOff w
  | 0x06 => decodeRender w
  | _ => .error .reservedOpcode

/-- The decoder on a word numbered as the opcode table numbers it: bit 0 the least significant. A
command is one 32-bit word (R80), so that is the word itself; bits from nbits up are 0. -/
def decodeTableWord (nbits w : Nat) : Option Instr :=
  match decode (BitVec.ofNat 32 (w % 2 ^ nbits)) with
  | .ok i => some i
  | .error _ => none

/-- R102: 0x02000000 | ID << 18 | VAL. -/
def encodeSetParam (p : ParamId) (val : BitVec 18) : Word :=
  BitVec.ofNat 32 (0x02000000 + p.num * 2 ^ 18 + val.toNat)

/-- R103: 0x03000000 | NOTE << 8 | VEL. -/
def encodeNoteOn (note vel : BitVec 7) : Word :=
  BitVec.ofNat 32 (0x03000000 + note.toNat * 2 ^ 8 + vel.toNat)

/-- R104: 0x04000000 | H << 16 | NOTE << 8 | VEL. -/
def encodeNoteOff (hard : Bool) (note vel : BitVec 7) : Word :=
  BitVec.ofNat 32 (0x04000000 + hard.toNat * 2 ^ 16 + note.toNat * 2 ^ 8 + vel.toNat)

/-- R105: 0x05000000 | H << 16. -/
def encodeAllNotesOff (hard : Bool) : Word := BitVec.ofNat 32 (0x05000000 + hard.toNat * 2 ^ 16)

/-- R107: 0x06000000 | NFR. -/
def encodeRender (nfr : BitVec 16) : Word := BitVec.ofNat 32 (0x06000000 + nfr.toNat)

/-- The one word of a command (R82 to R88). -/
def encode : Instr → Word
  | .nop => 0x00000000#32
  | .prepare => 0x01000000#32
  | .setParamAmpAttack v => encodeSetParam .ampAttack v
  | .setParamAmpDecay v => encodeSetParam .ampDecay v
  | .setParamAmpSustain v => encodeSetParam .ampSustain v
  | .setParamAmpRelease v => encodeSetParam .ampRelease v
  | .setParamFltAttack v => encodeSetParam .fltAttack v
  | .setParamFltDecay v => encodeSetParam .fltDecay v
  | .setParamFltSustain v => encodeSetParam .fltSustain v
  | .setParamFltRelease v => encodeSetParam .fltRelease v
  | .setParamFilterCutoff v => encodeSetParam .filterCutoff v
  | .setParamFilterResonance v => encodeSetParam .filterResonance v
  | .setParamFilterMode v => encodeSetParam .filterMode v
  | .setParamLfoFreq v => encodeSetParam .lfoFreq v
  | .setParamLfoAmount v => encodeSetParam .lfoAmount v
  | .setParamFenvEnable v => encodeSetParam .fenvEnable v
  | .setParamFenvAmount v => encodeSetParam .fenvAmount v
  | .setParamOsc0Waveform v => encodeSetParam .osc0Waveform v
  | .setParamOsc1Waveform v => encodeSetParam .osc1Waveform v
  | .setParamOsc0Enable v => encodeSetParam .osc0Enable v
  | .setParamOsc1Enable v => encodeSetParam .osc1Enable v
  | .setParamCfgSampleRate v => encodeSetParam .cfgSampleRate v
  | .setParamCfgMaxBlock v => encodeSetParam .cfgMaxBlock v
  | .setParamCfgNumChannels v => encodeSetParam .cfgNumChannels v
  | .noteOn note vel => encodeNoteOn note vel
  | .noteOff hard note vel => encodeNoteOff hard note vel
  | .allNotesOff hard => encodeAllNotesOff hard
  | .render nfr => encodeRender nfr

/-- A row of R94's decode table: a word matches when (w & mask) = pattern and, for SET_PARAM, its ID
is legal. -/
structure DecodeRow where
  pattern : Word
  mask : Word
  needsLegalId : Bool
deriving DecidableEq, Repr

/-- R94's table, in its order. -/
def decodeRows : List DecodeRow :=
  [⟨0x00000000#32, 0xFFFFFFFF#32, false⟩, ⟨0x01000000#32, 0xFFFFFFFF#32, false⟩,
   ⟨0x02000000#32, 0xFF000000#32, true⟩, ⟨0x03000000#32, 0xFFFF8080#32, false⟩] ++
  [⟨0x04000000#32, 0xFFFE8080#32, false⟩, ⟨0x05000000#32, 0xFFFEFFFF#32, false⟩,
   ⟨0x06000000#32, 0xFFFF0000#32, false⟩]

/-- R94: "A word w matches a row when (w & mask) = match and the extra condition holds." -/
def DecodeRow.accepts (r : DecodeRow) (w : Word) : Bool :=
  w &&& r.mask == r.pattern && (!r.needsLegalId || (ParamId.ofNum? (field w 23 18)).isSome)

/-- SET_PARAM by id number, in format P; a reserved id gives its (illegal) word (R81, R92). -/
def setParamWord (id val : Nat) : Word := BitVec.ofNat 32 (0x02000000 + id * 2 ^ 18 + val)

/-- The words of a well-formed line: one for a command, the expansion for a pseudo-command (R92,
R93). -/
def Asm.words : Asm → List Word
  | .nop => [encode .nop]
  | .prepare => [encode .prepare]
  | .setParam id val => [setParamWord id val]
  | .noteOn note vel => [encodeNoteOn (BitVec.ofNat 7 note) (BitVec.ofNat 7 vel)]
  | .noteOff note vel hard => [encodeNoteOff hard (BitVec.ofNat 7 note) (BitVec.ofNat 7 vel)]
  | .allNotesOff hard => [encodeAllNotesOff hard]
  | .render frames => [encodeRender (BitVec.ofNat 16 frames)]
  | .setAmpAdsr a d s r =>
    [setParamWord 0x00 a, setParamWord 0x01 d, setParamWord 0x02 s, setParamWord 0x03 r]
  | .setFltAdsr a d s r =>
    [setParamWord 0x04 a, setParamWord 0x05 d, setParamWord 0x06 s, setParamWord 0x07 r]
  | .setWave osc kind => [setParamWord (0x10 + osc) kind]
  | .oscOn osc => [setParamWord (0x18 + osc) 1]
  | .oscOff osc => [setParamWord (0x18 + osc) 0]
  | .setFilter cutoff res mode =>
    [setParamWord 0x08 cutoff, setParamWord 0x09 res, setParamWord 0x0A mode]
  | .setLfo freq amount => [setParamWord 0x0B freq, setParamWord 0x0C amount]
  | .setFenv enable amount => [setParamWord 0x0D enable, setParamWord 0x0E amount]
  | .configure sr mb nch =>
    [setParamWord 0x20 sr, setParamWord 0x21 mb, setParamWord 0x22 nch, encode .prepare]
  | .panic => [encodeAllNotesOff true]
  | .releaseAll => [encodeAllNotesOff false]

/-- The assembler: rejects a line with an operand that does not fit, never truncating (R92). -/
def assemble (line : Asm) : Option (List Word) :=
  if line.wellFormed then some line.words else none

end Sys2Proof
end

