-- ==== Sys2Proof/Machine/State.lean ====
section
/-! DEFINITION. The state of the block (R20): every piece of it that the spec names, as plain data, and
its value right after reset (R301). -/

namespace Sys2Proof.Machine

/-- What stops the machine: nothing, so the type has no constructor. "The block never stops": no command,
state or input halts it (R296). -/
inductive Fault where
deriving DecidableEq, Repr

/-- Why a step has no meaning. -/
inductive Refusal where
  /-- Raised by an arm of `exec` whose instruction has no meaning yet; safe. -/
  | notModelled (mnemonic : String)
  /-- Raised by next_seq() when SEQ = 2^64 - 1: "the model refuses a next_seq() when SEQ = 2^64 − 1"
  (I4, R34). Safe (log 1). -/
  | seqWrap
deriving DecidableEq, Repr

/-- The Parameter Snapshot: one 18-bit register per id in 0x00..0x1F (R26, R27). -/
structure Snapshot where
  ampAttack : BitVec 18
  ampDecay : BitVec 18
  ampSustain : BitVec 18
  ampRelease : BitVec 18
  fltAttack : BitVec 18
  fltDecay : BitVec 18
  fltSustain : BitVec 18
  fltRelease : BitVec 18
  filterCutoff : BitVec 18
  filterResonance : BitVec 18
  filterMode : BitVec 18
  lfoFreq : BitVec 18
  lfoAmount : BitVec 18
  fenvEnable : BitVec 18
  fenvAmount : BitVec 18
  osc0Waveform : BitVec 18
  osc1Waveform : BitVec 18
  osc0Enable : BitVec 18
  osc1Enable : BitVec 18
deriving DecidableEq, Repr

/-- The staging registers stg[id]: the snapshot's ids and the three configuration ids (R26). -/
structure Staging where
  snap : Snapshot
  sampleRate : BitVec 18
  maxBlock : BitVec 18
  numChannels : BitVec 18
deriving DecidableEq, Repr

/-- The derived parameter values of R29, recomputed at every commit. -/
structure Derived where
  /-- LFO_INC (R181). -/
  lfoInc : Word
  /-- LFO_DEPTH, a Q24 level (R192). -/
  lfoDepth : Nat
  /-- FENV_AMT, a Q24 level (R192). -/
  fenvAmt : Nat
  /-- FCMAX, in Hz (R193). -/
  fcmax : Nat
  /-- FQ, the Q30 quality factor (R195). -/
  fq : Nat
  /-- FK, the Q30 damping (R195). -/
  fk : Nat
deriving DecidableEq, Repr

/-- An envelope unit's stage (R32, R150). -/
inductive Stage where
  | idle | attack | decay | sustain | release
deriving DecidableEq, Repr

/-- An envelope unit (R32). -/
structure Env where
  stage : Stage
  level : BitVec 25
  start : BitVec 25
  target : BitVec 25
  k : BitVec 20
  n : BitVec 20
  na : BitVec 20
  nd : BitVec 20
  nr : BitVec 20
  sus : BitVec 25
deriving DecidableEq, Repr

/-- One filter section: two signed 32-bit Q24 words (R33). -/
structure FilterSection where
  ic1 : Word
  ic2 : Word
deriving DecidableEq, Repr

/-- A voice's lifecycle state (R30, R31). -/
inductive Life where
  | idle | active | releasing
deriving DecidableEq, Repr

/-- A voice slot (R30). -/
structure Voice where
  state : Life
  note : BitVec 7
  vel : BitVec 7
  gain : BitVec 25
  inc : Word
  phase : Word
  rng0 : Word
  rng1 : Word
  aenv : Env
  fenv : Env
  f0 : FilterSection
  f1 : FilterSection
  trigSeq : BitVec 64
  freeSeq : BitVec 64
deriving DecidableEq, Repr

/-- A note event waiting in EVQ: the fields of its command word (R36, R85 to R87; log 8). -/
inductive Event where
  | noteOn (note vel : BitVec 7)
  | noteOff (hard : Bool) (note vel : BitVec 7)
  | allNotesOff (hard : Bool)
deriving DecidableEq, Repr

/-- OUTBUF's contents: bytes by their offset in the window, in one canonical form (R37; log 9). -/
abbrev Memory := List Host.Cell

/-- What an unlisted byte of OUTBUF reads as: its reset value (R37, R301). -/
def Memory.unlisted : Byte := 0#8

/-- The canonical form: offsets strictly rising, and no entry that reads as an unlisted byte does. -/
abbrev Memory.wf (m : Memory) : Prop :=
  (m.map Prod.fst).Pairwise (· < ·) ∧ ∀ c ∈ m, c.2 ≠ Memory.unlisted

/-- One host bus access: its address and its width in bytes, and the data of a write (R60, R63). -/
inductive Access where
  | read (addr size : Nat)
  | write (addr size : Nat) (data : Word)
deriving DecidableEq, Repr

/-- What moves next: the model's own way to hold the order of the agents as data (I3; log 2). -/
inductive Turn where
  /-- The command processor runs one command step. -/
  | command
  /-- The oldest word leaves CMDQ and begins executing; its effect comes with the next `command`
  (R23, R305; log 3). -/
  | issue
  /-- The host performs a bus access. -/
  | access (a : Access)
  /-- The reset input is asserted and released (R300; log 14). -/
  | reset
deriving DecidableEq, Repr

/-- The block's answer to a host access (R63, R65). -/
inductive Response where
  | data (w : Word)
  | written
  /-- R287: the host sees a bus error and the block's state is unchanged (log 5). -/
  | busError
deriving DecidableEq, Repr

/-- The state of the block (R20), and two fields of the model's own: `schedule` and `response`. -/
structure State where
  /-- STATUS, its sticky bits; BUSY is computed (R22). -/
  status : Word
  /-- CTRL (R24). -/
  ctrl : Word
  /-- BLOCK_COUNT (R25). -/
  blockCount : Word
  /-- LAST_ILLEGAL (R25, R281). -/
  lastIllegal : Word
  /-- CMDQ, oldest first (R23). -/
  cmdq : List Word
  /-- The command that has left CMDQ and whose effect has not happened yet (R23, R305; log 3). -/
  executing : Option Word
  /-- stg[] (R26). -/
  stg : Staging
  /-- act[] (R27). -/
  act : Snapshot
  /-- FS (R28). -/
  fs : BitVec 18
  /-- MAXBLK (R28). -/
  maxblk : BitVec 18
  /-- NCH (R28). -/
  nch : BitVec 18
  /-- The derived values (R29). -/
  derived : Derived
  /-- V[0] .. V[9] (R30). -/
  voices : Vector Voice Config.numVoices
  /-- SEQ (R34). -/
  seq : BitVec 64
  /-- LFO.phase (R35). -/
  lfoPhase : Word
  /-- EVQ, oldest first (R36). -/
  evq : List Event
  /-- OUTBUF (R37). -/
  outbuf : Memory
  /-- MODEL'S OWN: the turns to come, oldest first; when it is empty the command processor moves
  (log 2). -/
  schedule : List Turn
  /-- MODEL'S OWN: the answer to the host's last access in the window (log 7). -/
  response : Option Response
deriving DecidableEq, Repr

/-- The reset values of the parameter registers 0x00..0x1F (R26, R301). -/
def Snapshot.reset : Snapshot where
  ampAttack := 100
  ampDecay := 200
  ampSustain := 700
  ampRelease := 300
  fltAttack := 100
  fltDecay := 200
  fltSustain := 700
  fltRelease := 300
  filterCutoff := 20000
  filterResonance := 0
  filterMode := 0
  lfoFreq := 100
  lfoAmount := 0
  fenvEnable := 0
  fenvAmount := 0
  osc0Waveform := 0
  osc1Waveform := 0
  osc0Enable := 1
  osc1Enable := 0

/-- The reset values of stg[] (R26, R301). -/
def Staging.reset : Staging where
  snap := Snapshot.reset
  sampleRate := 48000
  maxBlock := 512
  numChannels := 2

/-- The derived values after reset (R301). -/
def Derived.reset : Derived where
  lfoInc := 89478
  lfoDepth := 0
  fenvAmt := 0
  fcmax := 20000
  fq := 759250125
  fk := 1518500249

/-- An envelope unit after reset (R32, R301). -/
def Env.reset : Env where
  stage := .idle
  level := 0
  start := 0
  target := 0
  k := 0
  n := 1
  na := 4800
  nd := 9600
  nr := 14400
  sus := 11744051

/-- A voice after reset, with its two noise seeds (R30, R301). -/
def Voice.reset (seed0 seed1 : Word) : Voice where
  state := .idle
  note := 0
  vel := 0
  gain := 0
  inc := 0
  phase := 0
  rng0 := seed0
  rng1 := seed1
  aenv := Env.reset
  fenv := Env.reset
  f0 := ⟨0, 0⟩
  f1 := ⟨0, 0⟩
  trigSeq := 0
  freeSeq := 0

/-- The ten voices after reset: seed(v, i) = 0x6D2B79F5 xor (2v + i) (R301). -/
def Voice.resetAll : Vector Voice Config.numVoices :=
  #v[Voice.reset 0x6D2B79F5 0x6D2B79F4, Voice.reset 0x6D2B79F7 0x6D2B79F6,
     Voice.reset 0x6D2B79F1 0x6D2B79F0, Voice.reset 0x6D2B79F3 0x6D2B79F2,
     Voice.reset 0x6D2B79FD 0x6D2B79FC, Voice.reset 0x6D2B79FF 0x6D2B79FE,
     Voice.reset 0x6D2B79F9 0x6D2B79F8, Voice.reset 0x6D2B79FB 0x6D2B79FA,
     Voice.reset 0x6D2B79E5 0x6D2B79E4, Voice.reset 0x6D2B79E7 0x6D2B79E6]

/-- The state right after reset (R301); the model's own fields `schedule` and `response` are empty
(DESIGN CHOICE, log 2 and log 7). -/
def State.reset : State where
  status := 0
  ctrl := 0
  blockCount := 0
  lastIllegal := 0
  cmdq := []
  executing := none
  stg := Staging.reset
  act := Snapshot.reset
  fs := 48000
  maxblk := 512
  nch := 2
  derived := Derived.reset
  voices := Voice.resetAll
  seq := 0
  lfoPhase := 0
  evq := []
  outbuf := []
  schedule := []
  response := none

end Sys2Proof.Machine
end

