-- ==== Sys2Proof/Machine/Fixed.lean ====
section
/-! DEFINITION. The arithmetic primitives of R9 to R11: unbounded integers, floor division, arithmetic
shifts, and the two narrowings wrap32 and sat32. -/

namespace Sys2Proof.Machine

/-- ONE = 2^24, the Q24 value 1.0 (R11). -/
abbrev ONE : Int := 16777216

/-- fdiv(a, b) for b > 0: the greatest q with q b ≤ a (R10). -/
def fdiv (a b : Int) : Int := a / b

/-- `a >> s` = fdiv(a, 2^s) (R10). -/
def shr (a : Int) (s : Nat) : Int := fdiv a (2 ^ s)

/-- `a << s` = a 2^s (R10). -/
def shl (a : Int) (s : Nat) : Int := a * 2 ^ s

/-- clamp(v, lo, hi) = min(hi, max(lo, v)) (R10). -/
def clamp (v lo hi : Int) : Int := min hi (max lo v)

/-- wrap32(v) = v mod 2^32 as a 32-bit unsigned register (R9). -/
def wrap32 (v : Int) : Word := BitVec.ofInt 32 v

/-- sat32(v) = min(2^31 - 1, max(-2^31, v)) (R9). -/
def sat32 (v : Int) : Int := min (2 ^ 31 - 1) (max (-2 ^ 31) v)

/-- A signed 32-bit register written with sat32(v) (R9, R33). -/
def signedReg (v : Int) : Word := BitVec.ofInt 32 (sat32 v)

/-- `f` applied n times. -/
def iter {α : Type} (f : α → α) : Nat → α → α
  | 0, x => x
  | n + 1, x => iter f n (f x)

end Sys2Proof.Machine
end

