-- ==== Sys2Proof/Machine/Envelope.lean ====
section
/-! DEFINITION. The ADSR envelope generator (42_adsr_envelope.md). -/

namespace Sys2Proof.Machine

/-- The derived parameters of one kind of envelope (R151). -/
structure EnvParams where
  na : BitVec 20
  nd : BitVec 20
  sus : BitVec 25
  nr : BitVec 20
deriving DecidableEq, Repr

/-- mceil(ms) = fdiv(ms FS + 999, 1000) (R151). -/
def mceil (ms fs : BitVec 18) : Nat := (ms.toNat * fs.toNat + 999) / 1000

/-- mround(ms) = fdiv(ms FS + 500, 1000) (R151). -/
def mround (ms fs : BitVec 18) : Nat := (ms.toNat * fs.toNat + 500) / 1000

/-- sus = fdiv(SUSTAIN << 24, 1000) (R151). -/
def sustainLevel (sustain : BitVec 18) : Nat := sustain.toNat * 2 ^ 24 / 1000

/-- The parameters from attack, decay, sustain and release at FS (R151). -/
def envParams (attack decay sustain release fs : BitVec 18) : EnvParams where
  na := BitVec.ofNat 20 (mceil attack fs)
  nd := BitVec.ofNat 20 (mceil decay fs)
  sus := BitVec.ofNat 25 (sustainLevel sustain)
  nr := BitVec.ofNat 20 (mround release fs)

/-- AENV's parameters, from act[0x00..0x03] (R151). -/
def ampParams (a : Snapshot) (fs : BitVec 18) : EnvParams :=
  envParams a.ampAttack a.ampDecay a.ampSustain a.ampRelease fs

/-- FENV's parameters, from act[0x04..0x07] (R151). -/
def fltParams (a : Snapshot) (fs : BitVec 18) : EnvParams :=
  envParams a.fltAttack a.fltDecay a.fltSustain a.fltRelease fs

/-- seg_level(start, target, k, n) = start + fdiv((target - start) k, n) (R152). -/
def segLevel (start target k n : Nat) : Int :=
  start + fdiv (((target : Int) - start) * k) n

/-- ONE as an envelope level (R11). -/
def levelOne : BitVec 25 := 16777216#25

/-- gate_on (R153). -/
def Env.gateOn (e : Env) : Env :=
  { e with stage := .attack, start := e.level, target := levelOne, k := 0, n := e.na }

/-- gate_off (R154). -/
def Env.gateOff (e : Env) : Env :=
  match e.stage with
  | .attack | .decay | .sustain =>
    { e with stage := .release, start := e.level, target := 0, k := 0, n := e.nr }
  | .idle | .release => e

/-- hard_reset (R155). -/
def Env.hardReset (e : Env) : Env :=
  { e with stage := .idle, level := 0, start := 0, target := 0, k := 0, n := 1 }

/-- The first half of a tick: one sample further along the segment (R156). -/
def Env.advance (e : Env) : Env :=
  if e.k < e.n then
    { e with
      k := e.k + 1
      level := BitVec.ofInt 25 (segLevel e.start.toNat e.target.toNat (e.k.toNat + 1) e.n.toNat) }
  else e

/-- The second half of a tick: the stage change of a completed segment (R156). -/
def Env.complete (e : Env) : Env :=
  if e.k = e.n then
    match e.stage with
    | .attack => { e with stage := .decay, start := e.level, target := e.sus, k := 0, n := e.nd }
    | .decay => { e with stage := .sustain }
    | .sustain => e
    | .release => { e with stage := .idle }
    | .idle => e
  else e

/-- tick: the unit after one sample; the returned level is the new `level` (R156). -/
def Env.tick (e : Env) : Env :=
  match e.stage with
  | .idle => e
  | .attack | .decay | .sustain | .release => e.advance.complete

/-- is_active(E) (R161). -/
def Env.isActive (e : Env) : Bool := e.stage != .idle

/-- The segment part of update: re-plan a running segment from the current level (R162). -/
def Env.replan (e : Env) (q : EnvParams) : Env :=
  match e.stage with
  | .attack => if q.na = e.na then e else { e with start := e.level, k := 0, n := q.na }
  | .decay =>
    if q.nd = e.nd ∧ q.sus = e.sus then e
    else { e with start := e.level, k := 0, n := q.nd, target := q.sus }
  | .sustain =>
    if q.sus = e.sus then e else { e with start := e.level, k := 0, n := q.nd, target := q.sus }
  | .release => if q.nr = e.nr then e else { e with start := e.level, k := 0, n := q.nr }
  | .idle => e

/-- update(E, na', nd', sus', nr') (R162). -/
def Env.update (e : Env) (q : EnvParams) : Env :=
  { e.replan q with na := q.na, nd := q.nd, sus := q.sus, nr := q.nr }

/-- The outputs of n ticks, each the level after its tick (R156, R227). -/
def Env.levels : Nat → Env → List Int
  | 0, _ => []
  | n + 1, e => (e.tick.level.toNat : Int) :: Env.levels n e.tick

end Sys2Proof.Machine
end

