-- ==== Sys2Proof/Machine/Rom.lean ====
section
/-! DEFINITION. The three ROMs of 47_rom_tables.md as listed there (the listing is normative, R16), each
in banks of 32 entries, and the two interpolated lookups. -/

namespace Sys2Proof.Machine

/-- SIN_ROM[0..31] (R270). -/
def sinBank0 : List Int :=
  [0, 6588356, 13176464, 19764076, 26350943, 32936819, 39521455, 46104602,
   52686014, 59265442, 65842639, 72417357, 78989349, 85558366, 92124163, 98686491,
   105245103, 111799753, 118350194, 124896179, 131437462, 137973796, 144504935, 151030634,
   157550647, 164064728, 170572633, 177074115, 183568930, 190056834, 196537583, 203010932]

/-- SIN_ROM[32..63] (R270). -/
def sinBank1 : List Int :=
  [209476638, 215934457, 222384147, 228825464, 235258165, 241682010, 248096755, 254502159,
   260897982, 267283981, 273659918, 280025552, 286380643, 292724951, 299058239, 305380268,
   311690799, 317989595, 324276419, 330551034, 336813204, 343062693, 349299266, 355522689,
   361732726, 367929144, 374111709, 380280190, 386434353, 392573967, 398698801, 404808624]

/-- SIN_ROM[64..95] (R270). -/
def sinBank2 : List Int :=
  [410903207, 416982319, 423045732, 429093217, 435124548, 441139496, 447137835, 453119340,
   459083786, 465030947, 470960600, 476872522, 482766489, 488642281, 494499676, 500338453,
   506158392, 511959275, 517740883, 523502998, 529245404, 534967884, 540670223, 546352205,
   552013618, 557654248, 563273883, 568872310, 574449320, 580004702, 585538248, 591049748]

/-- SIN_ROM[96..127] (R270). -/
def sinBank3 : List Int :=
  [596538995, 602005783, 607449906, 612871159, 618269338, 623644239, 628995660, 634323400,
   639627258, 644907034, 650162530, 655393548, 660599890, 665781362, 670937767, 676068911,
   681174602, 686254647, 691308855, 696337036, 701339000, 706314559, 711263525, 716185713,
   721080937, 725949013, 730789757, 735602987, 740388522, 745146182, 749875788, 754577161]

/-- SIN_ROM[128..159] (R270). -/
def sinBank4 : List Int :=
  [759250125, 763894504, 768510122, 773096806, 777654384, 782182683, 786681534, 791150767,
   795590213, 799999706, 804379079, 808728167, 813046808, 817334838, 821592095, 825818421,
   830013654, 834177638, 838310216, 842411232, 846480531, 850517961, 854523370, 858496606,
   862437520, 866345964, 870221790, 874064853, 877875009, 881652112, 885396022, 889106597]

/-- SIN_ROM[160..191] (R270). -/
def sinBank5 : List Int :=
  [892783698, 896427186, 900036924, 903612776, 907154608, 910662286, 914135678, 917574653,
   920979082, 924348837, 927683790, 930983817, 934248793, 937478595, 940673101, 943832191,
   946955747, 950043650, 953095785, 956112036, 959092290, 962036435, 964944360, 967815955,
   970651112, 973449725, 976211688, 978936898, 981625251, 984276646, 986890984, 989468165]

/-- SIN_ROM[192..223] (R270). -/
def sinBank6 : List Int :=
  [992008094, 994510675, 996975812, 999403415, 1001793390, 1004145648, 1006460100, 1008736660,
   1010975242, 1013175761, 1015338134, 1017462281, 1019548121, 1021595575, 1023604567, 1025575020,
   1027506862, 1029400018, 1031254418, 1033069992, 1034846671, 1036584389, 1038283080, 1039942680,
   1041563127, 1043144360, 1044686319, 1046188946, 1047652185, 1049075980, 1050460278, 1051805027]

/-- SIN_ROM[224..255] (R270). -/
def sinBank7 : List Int :=
  [1053110176, 1054375676, 1055601479, 1056787540, 1057933813, 1059040255, 1060106826, 1061133483,
   1062120190, 1063066909, 1063973603, 1064840240, 1065666786, 1066453210, 1067199483, 1067905576,
   1068571464, 1069197120, 1069782521, 1070327646, 1070832474, 1071296985, 1071721163, 1072104991,
   1072448455, 1072751542, 1073014240, 1073236540, 1073418433, 1073559913, 1073660973, 1073721611]

/-- SIN_ROM[256..287] (R270). -/
def sinBank8 : List Int :=
  [1073741824, 1073721611, 1073660973, 1073559913, 1073418433, 1073236540, 1073014240, 1072751542,
   1072448455, 1072104991, 1071721163, 1071296985, 1070832474, 1070327646, 1069782521, 1069197120,
   1068571464, 1067905576, 1067199483, 1066453210, 1065666786, 1064840240, 1063973603, 1063066909,
   1062120190, 1061133483, 1060106826, 1059040255, 1057933813, 1056787540, 1055601479, 1054375676]

/-- SIN_ROM[288..319] (R270). -/
def sinBank9 : List Int :=
  [1053110176, 1051805027, 1050460278, 1049075980, 1047652185, 1046188946, 1044686319, 1043144360,
   1041563127, 1039942680, 1038283080, 1036584389, 1034846671, 1033069992, 1031254418, 1029400018,
   1027506862, 1025575020, 1023604567, 1021595575, 1019548121, 1017462281, 1015338134, 1013175761,
   1010975242, 1008736660, 1006460100, 1004145648, 1001793390, 999403415, 996975812, 994510675]

/-- SIN_ROM[320..351] (R270). -/
def sinBank10 : List Int :=
  [992008094, 989468165, 986890984, 984276646, 981625251, 978936898, 976211688, 973449725,
   970651112, 967815955, 964944360, 962036435, 959092290, 956112036, 953095785, 950043650,
   946955747, 943832191, 940673101, 937478595, 934248793, 930983817, 927683790, 924348837,
   920979082, 917574653, 914135678, 910662286, 907154608, 903612776, 900036924, 896427186]

/-- SIN_ROM[352..383] (R270). -/
def sinBank11 : List Int :=
  [892783698, 889106597, 885396022, 881652112, 877875009, 874064853, 870221790, 866345964,
   862437520, 858496606, 854523370, 850517961, 846480531, 842411232, 838310216, 834177638,
   830013654, 825818421, 821592095, 817334838, 813046808, 808728167, 804379079, 799999706,
   795590213, 791150767, 786681534, 782182683, 777654384, 773096806, 768510122, 763894504]

/-- SIN_ROM[384..415] (R270). -/
def sinBank12 : List Int :=
  [759250125, 754577161, 749875788, 745146182, 740388522, 735602987, 730789757, 725949013,
   721080937, 716185713, 711263525, 706314559, 701339000, 696337036, 691308855, 686254647,
   681174602, 676068911, 670937767, 665781362, 660599890, 655393548, 650162530, 644907034,
   639627258, 634323400, 628995660, 623644239, 618269338, 612871159, 607449906, 602005783]

/-- SIN_ROM[416..447] (R270). -/
def sinBank13 : List Int :=
  [596538995, 591049748, 585538248, 580004702, 574449320, 568872310, 563273883, 557654248,
   552013618, 546352205, 540670223, 534967884, 529245404, 523502998, 517740883, 511959275,
   506158392, 500338453, 494499676, 488642281, 482766489, 476872522, 470960600, 465030947,
   459083786, 453119340, 447137835, 441139496, 435124548, 429093217, 423045732, 416982319]

/-- SIN_ROM[448..479] (R270). -/
def sinBank14 : List Int :=
  [410903207, 404808624, 398698801, 392573967, 386434353, 380280190, 374111709, 367929144,
   361732726, 355522689, 349299266, 343062693, 336813204, 330551034, 324276419, 317989595,
   311690799, 305380268, 299058239, 292724951, 286380643, 280025552, 273659918, 267283981,
   260897982, 254502159, 248096755, 241682010, 235258165, 228825464, 222384147, 215934457]

/-- SIN_ROM[480..511] (R270). -/
def sinBank15 : List Int :=
  [209476638, 203010932, 196537583, 190056834, 183568930, 177074115, 170572633, 164064728,
   157550647, 151030634, 144504935, 137973796, 131437462, 124896179, 118350194, 111799753,
   105245103, 98686491, 92124163, 85558366, 78989349, 72417357, 65842639, 59265442,
   52686014, 46104602, 39521455, 32936819, 26350943, 19764076, 13176464, 6588356]

/-- SIN_ROM[512..543] (R270). -/
def sinBank16 : List Int :=
  [0, -6588356, -13176464, -19764076, -26350943, -32936819, -39521455, -46104602,
   -52686014, -59265442, -65842639, -72417357, -78989349, -85558366, -92124163, -98686491,
   -105245103, -111799753, -118350194, -124896179, -131437462, -137973796, -144504935, -151030634,
   -157550647, -164064728, -170572633, -177074115, -183568930, -190056834, -196537583, -203010932]

/-- SIN_ROM[544..575] (R270). -/
def sinBank17 : List Int :=
  [-209476638, -215934457, -222384147, -228825464, -235258165, -241682010, -248096755, -254502159,
   -260897982, -267283981, -273659918, -280025552, -286380643, -292724951, -299058239, -305380268,
   -311690799, -317989595, -324276419, -330551034, -336813204, -343062693, -349299266, -355522689,
   -361732726, -367929144, -374111709, -380280190, -386434353, -392573967, -398698801, -404808624]

/-- SIN_ROM[576..607] (R270). -/
def sinBank18 : List Int :=
  [-410903207, -416982319, -423045732, -429093217, -435124548, -441139496, -447137835, -453119340,
   -459083786, -465030947, -470960600, -476872522, -482766489, -488642281, -494499676, -500338453,
   -506158392, -511959275, -517740883, -523502998, -529245404, -534967884, -540670223, -546352205,
   -552013618, -557654248, -563273883, -568872310, -574449320, -580004702, -585538248, -591049748]

/-- SIN_ROM[608..639] (R270). -/
def sinBank19 : List Int :=
  [-596538995, -602005783, -607449906, -612871159, -618269338, -623644239, -628995660, -634323400,
   -639627258, -644907034, -650162530, -655393548, -660599890, -665781362, -670937767, -676068911,
   -681174602, -686254647, -691308855, -696337036, -701339000, -706314559, -711263525, -716185713,
   -721080937, -725949013, -730789757, -735602987, -740388522, -745146182, -749875788, -754577161]

/-- SIN_ROM[640..671] (R270). -/
def sinBank20 : List Int :=
  [-759250125, -763894504, -768510122, -773096806, -777654384, -782182683, -786681534, -791150767,
   -795590213, -799999706, -804379079, -808728167, -813046808, -817334838, -821592095, -825818421,
   -830013654, -834177638, -838310216, -842411232, -846480531, -850517961, -854523370, -858496606,
   -862437520, -866345964, -870221790, -874064853, -877875009, -881652112, -885396022, -889106597]

/-- SIN_ROM[672..703] (R270). -/
def sinBank21 : List Int :=
  [-892783698, -896427186, -900036924, -903612776, -907154608, -910662286, -914135678, -917574653,
   -920979082, -924348837, -927683790, -930983817, -934248793, -937478595, -940673101, -943832191,
   -946955747, -950043650, -953095785, -956112036, -959092290, -962036435, -964944360, -967815955,
   -970651112, -973449725, -976211688, -978936898, -981625251, -984276646, -986890984, -989468165]

/-- SIN_ROM[704..735] (R270). -/
def sinBank22 : List Int :=
  [-992008094, -994510675, -996975812, -999403415, -1001793390, -1004145648, -1006460100, -1008736660,
   -1010975242, -1013175761, -1015338134, -1017462281, -1019548121, -1021595575, -1023604567, -1025575020,
   -1027506862, -1029400018, -1031254418, -1033069992, -1034846671, -1036584389, -1038283080, -1039942680,
   -1041563127, -1043144360, -1044686319, -1046188946, -1047652185, -1049075980, -1050460278, -1051805027]

/-- SIN_ROM[736..767] (R270). -/
def sinBank23 : List Int :=
  [-1053110176, -1054375676, -1055601479, -1056787540, -1057933813, -1059040255, -1060106826, -1061133483,
   -1062120190, -1063066909, -1063973603, -1064840240, -1065666786, -1066453210, -1067199483, -1067905576,
   -1068571464, -1069197120, -1069782521, -1070327646, -1070832474, -1071296985, -1071721163, -1072104991,
   -1072448455, -1072751542, -1073014240, -1073236540, -1073418433, -1073559913, -1073660973, -1073721611]

/-- SIN_ROM[768..799] (R270). -/
def sinBank24 : List Int :=
  [-1073741824, -1073721611, -1073660973, -1073559913, -1073418433, -1073236540, -1073014240, -1072751542,
   -1072448455, -1072104991, -1071721163, -1071296985, -1070832474, -1070327646, -1069782521, -1069197120,
   -1068571464, -1067905576, -1067199483, -1066453210, -1065666786, -1064840240, -1063973603, -1063066909,
   -1062120190, -1061133483, -1060106826, -1059040255, -1057933813, -1056787540, -1055601479, -1054375676]

/-- SIN_ROM[800..831] (R270). -/
def sinBank25 : List Int :=
  [-1053110176, -1051805027, -1050460278, -1049075980, -1047652185, -1046188946, -1044686319, -1043144360,
   -1041563127, -1039942680, -1038283080, -1036584389, -1034846671, -1033069992, -1031254418, -1029400018,
   -1027506862, -1025575020, -1023604567, -1021595575, -1019548121, -1017462281, -1015338134, -1013175761,
   -1010975242, -1008736660, -1006460100, -1004145648, -1001793390, -999403415, -996975812, -994510675]

/-- SIN_ROM[832..863] (R270). -/
def sinBank26 : List Int :=
  [-992008094, -989468165, -986890984, -984276646, -981625251, -978936898, -976211688, -973449725,
   -970651112, -967815955, -964944360, -962036435, -959092290, -956112036, -953095785, -950043650,
   -946955747, -943832191, -940673101, -937478595, -934248793, -930983817, -927683790, -924348837,
   -920979082, -917574653, -914135678, -910662286, -907154608, -903612776, -900036924, -896427186]

/-- SIN_ROM[864..895] (R270). -/
def sinBank27 : List Int :=
  [-892783698, -889106597, -885396022, -881652112, -877875009, -874064853, -870221790, -866345964,
   -862437520, -858496606, -854523370, -850517961, -846480531, -842411232, -838310216, -834177638,
   -830013654, -825818421, -821592095, -817334838, -813046808, -808728167, -804379079, -799999706,
   -795590213, -791150767, -786681534, -782182683, -777654384, -773096806, -768510122, -763894504]

/-- SIN_ROM[896..927] (R270). -/
def sinBank28 : List Int :=
  [-759250125, -754577161, -749875788, -745146182, -740388522, -735602987, -730789757, -725949013,
   -721080937, -716185713, -711263525, -706314559, -701339000, -696337036, -691308855, -686254647,
   -681174602, -676068911, -670937767, -665781362, -660599890, -655393548, -650162530, -644907034,
   -639627258, -634323400, -628995660, -623644239, -618269338, -612871159, -607449906, -602005783]

/-- SIN_ROM[928..959] (R270). -/
def sinBank29 : List Int :=
  [-596538995, -591049748, -585538248, -580004702, -574449320, -568872310, -563273883, -557654248,
   -552013618, -546352205, -540670223, -534967884, -529245404, -523502998, -517740883, -511959275,
   -506158392, -500338453, -494499676, -488642281, -482766489, -476872522, -470960600, -465030947,
   -459083786, -453119340, -447137835, -441139496, -435124548, -429093217, -423045732, -416982319]

/-- SIN_ROM[960..991] (R270). -/
def sinBank30 : List Int :=
  [-410903207, -404808624, -398698801, -392573967, -386434353, -380280190, -374111709, -367929144,
   -361732726, -355522689, -349299266, -343062693, -336813204, -330551034, -324276419, -317989595,
   -311690799, -305380268, -299058239, -292724951, -286380643, -280025552, -273659918, -267283981,
   -260897982, -254502159, -248096755, -241682010, -235258165, -228825464, -222384147, -215934457]

/-- SIN_ROM[992..1023] (R270). -/
def sinBank31 : List Int :=
  [-209476638, -203010932, -196537583, -190056834, -183568930, -177074115, -170572633, -164064728,
   -157550647, -151030634, -144504935, -137973796, -131437462, -124896179, -118350194, -111799753,
   -105245103, -98686491, -92124163, -85558366, -78989349, -72417357, -65842639, -59265442,
   -52686014, -46104602, -39521455, -32936819, -26350943, -19764076, -13176464, -6588356]

/-- SIN_ROM by banks (R270). -/
def sinBanks : List (List Int) :=
  [sinBank0, sinBank1, sinBank2, sinBank3, sinBank4, sinBank5, sinBank6, sinBank7] ++
  [sinBank8, sinBank9, sinBank10, sinBank11, sinBank12, sinBank13, sinBank14, sinBank15] ++
  [sinBank16, sinBank17, sinBank18, sinBank19, sinBank20, sinBank21, sinBank22, sinBank23] ++
  [sinBank24, sinBank25, sinBank26, sinBank27, sinBank28, sinBank29, sinBank30, sinBank31]

/-- TANH_ROM[0..31] (R271). -/
def tanhBank0 : List Nat :=
  [0, 524117, 1047213, 1568272, 2086297, 2600313, 3109375, 3612577,
   4109053, 4597990, 5078627, 5550257, 6012239, 6463992, 6905000, 7334811,
   7753039, 8159364, 8553528, 8935332, 9304639, 9661368, 10005488, 10337020,
   10656031, 10962629, 11256960, 11539205, 11809576, 12068313, 12315676, 12551949]

/-- TANH_ROM[32..63] (R271). -/
def tanhBank1 : List Nat :=
  [12777430, 12992430, 13197274, 13392291, 13577819, 13754197, 13921766, 14080867,
   14231838, 14375014, 14510725, 14639296, 14761043, 14876276, 14985298, 15088400,
   15185868, 15277975, 15364986, 15447157, 15524733, 15597951, 15667035, 15732202,
   15793661, 15851608, 15906232, 15957713, 16006223, 16051926, 16094975, 16135520]

/-- TANH_ROM[64..95] (R271). -/
def tanhBank2 : List Nat :=
  [16173699, 16209646, 16243486, 16275339, 16305319, 16333532, 16360079, 16385057,
   16408555, 16430661, 16451454, 16471010, 16489403, 16506700, 16522966, 16538261,
   16552641, 16566162, 16578873, 16590824, 16602058, 16612618, 16622544, 16631875,
   16640645, 16648888, 16656635, 16663916, 16670758, 16677189, 16683232, 16688912]

/-- TANH_ROM[96..127] (R271). -/
def tanhBank3 : List Nat :=
  [16694249, 16699264, 16703976, 16708404, 16712566, 16716475, 16720149, 16723601,
   16726845, 16729892, 16732756, 16735446, 16737974, 16740349, 16742580, 16744677,
   16746646, 16748497, 16750235, 16751869, 16753403, 16754845, 16756200, 16757472,
   16758668, 16759791, 16760846, 16761838, 16762769, 16763644, 16764466, 16765238]

/-- TANH_ROM[128..159] (R271). -/
def tanhBank4 : List Nat :=
  [16765964, 16766645, 16767285, 16767887, 16768452, 16768983, 16769481, 16769950,
   16770390, 16770804, 16771192, 16771557, 16771900, 16772222, 16772524, 16772809,
   16773076, 16773326, 16773562, 16773783, 16773991, 16774187, 16774370, 16774543,
   16774705, 16774857, 16775000, 16775134, 16775260, 16775379, 16775490, 16775594]

/-- TANH_ROM[160..191] (R271). -/
def tanhBank5 : List Nat :=
  [16775693, 16775785, 16775872, 16775953, 16776030, 16776102, 16776169, 16776232,
   16776292, 16776348, 16776401, 16776450, 16776496, 16776540, 16776581, 16776619,
   16776656, 16776690, 16776721, 16776751, 16776780, 16776806, 16776831, 16776854,
   16776876, 16776897, 16776916, 16776934, 16776951, 16776967, 16776982, 16776997]

/-- TANH_ROM[192..223] (R271). -/
def tanhBank6 : List Nat :=
  [16777010, 16777022, 16777034, 16777045, 16777055, 16777065, 16777074, 16777083,
   16777091, 16777099, 16777106, 16777112, 16777119, 16777125, 16777130, 16777135,
   16777140, 16777145, 16777149, 16777153, 16777157, 16777161, 16777164, 16777167,
   16777170, 16777173, 16777175, 16777178, 16777180, 16777182, 16777184, 16777186]

/-- TANH_ROM[224..255] (R271). -/
def tanhBank7 : List Nat :=
  [16777188, 16777190, 16777191, 16777193, 16777194, 16777196, 16777197, 16777198,
   16777199, 16777200, 16777201, 16777202, 16777203, 16777204, 16777204, 16777205,
   16777206, 16777206, 16777207, 16777207, 16777208, 16777208, 16777209, 16777209,
   16777210, 16777210, 16777211, 16777211, 16777211, 16777211, 16777212, 16777212]

/-- TANH_ROM[256..256] (R271). -/
def tanhBank8 : List Nat :=
  [16777212]

/-- TANH_ROM by banks (R271). -/
def tanhBanks : List (List Nat) :=
  [tanhBank0, tanhBank1, tanhBank2, tanhBank3, tanhBank4, tanhBank5, tanhBank6, tanhBank7] ++
  [tanhBank8]

/-- NOTE_ROM[0..31] (R272). -/
def noteBank0 : List Nat :=
  [535809, 567670, 601425, 637188, 675077, 715219, 757749, 802807,
   850544, 901120, 954703, 1011473, 1071618, 1135340, 1202851, 1274376,
   1350154, 1430439, 1515497, 1605613, 1701088, 1802240, 1909407, 2022946,
   2143237, 2270680, 2405702, 2548752, 2700309, 2860878, 3030994, 3211227]

/-- NOTE_ROM[32..63] (R272). -/
def noteBank1 : List Nat :=
  [3402176, 3604480, 3818814, 4045892, 4286473, 4541360, 4811404, 5097505,
   5400618, 5721755, 6061989, 6422453, 6804352, 7208960, 7637627, 8091784,
   8572947, 9082720, 9622807, 10195009, 10801236, 11443511, 12123977, 12844906,
   13608704, 14417920, 15275254, 16183568, 17145893, 18165441, 19245614, 20390018]

/-- NOTE_ROM[64..95] (R272). -/
def noteBank2 : List Nat :=
  [21602472, 22887021, 24247954, 25689813, 27217409, 28835840, 30550508, 32367136,
   34291786, 36330882, 38491228, 40780036, 43204943, 45774043, 48495909, 51379626,
   54434817, 57671680, 61101017, 64734272, 68583572, 72661764, 76982457, 81560072,
   86409886, 91548086, 96991818, 102759252, 108869635, 115343360, 122202033, 129468544]

/-- NOTE_ROM[96..127] (R272). -/
def noteBank3 : List Nat :=
  [137167144, 145323527, 153964914, 163120144, 172819773, 183096171, 193983636, 205518503,
   217739269, 230686720, 244404066, 258937088, 274334289, 290647054, 307929828, 326240288,
   345639545, 366192342, 387967272, 411037006, 435478539, 461373440, 488808132, 517874176,
   548668578, 581294109, 615859655, 652480576, 691279090, 732384684, 775934544, 822074013]

/-- NOTE_ROM by banks (R272). -/
def noteBanks : List (List Nat) :=
  [noteBank0, noteBank1, noteBank2, noteBank3]

/-- SIN_ROM[i], Q30, for i < 1024 (R270). -/
def sinRom (i : Nat) : Int := (sinBanks.getD (i / 32) []).getD (i % 32) 0

/-- TANH_ROM[j], Q24, for j ≤ 256 (R271). -/
def tanhRom (j : Nat) : Nat := (tanhBanks.getD (j / 32) []).getD (j % 32) 0

/-- NOTE_ROM[m], Q16.16 Hz, for m < 128 (R272). -/
def noteRom (m : Nat) : Nat := (noteBanks.getD (m / 32) []).getD (m % 32) 0

/-- sinq30(p): the interpolated sine of a 32-bit phase, in Q30 (R270). -/
def sinq30 (p : Word) : Int :=
  let i := p.toNat / 2 ^ 22
  let f : Int := (p.toNat % 2 ^ 22 : Nat)
  let a := sinRom i
  let b := sinRom ((i + 1) % 1024)
  a + fdiv ((b - a) * f) (2 ^ 22)

/-- tanhq24(u): the interpolated tanh of a non-negative Q24 argument (R271). -/
def tanhq24 (u : Nat) : Int :=
  if 2 ^ 27 ≤ u then tanhRom 256
  else
    let i := u / 2 ^ 19
    let f : Int := (u % 2 ^ 19 : Nat)
    tanhRom i + fdiv (((tanhRom (i + 1) : Int) - tanhRom i) * f) (2 ^ 19)

end Sys2Proof.Machine
end

