-- ==== Sys2Proof/Machine/Lfo.lean ====
section
/-! DEFINITION. The LFO (43_lfo.md). -/

namespace Sys2Proof.Machine

/-- LFO_INC = fdiv(act[0x0B] << 32, 100 FS) (R181). -/
def lfoIncOf (lfoFreq fs : BitVec 18) : Word := BitVec.ofNat 32 (lfoFreq.toNat * 2 ^ 32 / (100 * fs.toNat))

/-- lfo(p) = sinq30(p) >> 6 (R182). -/
def lfo (p : Word) : Int := shr (sinq30 p) 6

/-- LFOBUF[0..n-1] of a block that starts at a phase (R183). -/
def lfoFill : Nat → Word → Word → List Int
  | 0, _, _ => []
  | n + 1, p, inc => lfo p :: lfoFill n (p + inc) inc

/-- LFO.phase after the fill of n frames (R183). -/
def lfoPhaseAfter (n : Nat) (p inc : Word) : Word := iter (fun q => q + inc) n p

/-- lfo_avg over the frames of one chunk (R184). -/
def lfoAvg (b : List Int) : Int := fdiv b.sum b.length

end Sys2Proof.Machine
end

