-- ==== Sys2Proof/Machine/Filter.lean ====
section
/-! DEFINITION. The resonant filter stage (44_resonant_filter.md). -/

namespace Sys2Proof.Machine

/-- LFO_DEPTH and FENV_AMT: fdiv(amount << 24, 1000) (R192). -/
def amountLevel (x : BitVec 18) : Nat := x.toNat * 2 ^ 24 / 1000

/-- FCMAX = min(20000, fdiv(45 FS, 100)) (R193). -/
def fcmaxOf (fs : BitVec 18) : Nat := min 20000 (45 * fs.toNat / 100)

/-- FQ = 759250125 + act[0x09] 1610613 (R195). -/
def fqOf (resonance : BitVec 18) : Nat := 759250125 + resonance.toNat * 1610613

/-- FK = fdiv(2^60, FQ) (R195). -/
def fkOf (resonance : BitVec 18) : Nat := 2 ^ 60 / fqOf resonance

/-- Every derived value of R29 outside the envelope units, from the active snapshot and FS. -/
def derive (a : Snapshot) (fs : BitVec 18) : Derived where
  lfoInc := lfoIncOf a.lfoFreq fs
  lfoDepth := amountLevel a.lfoAmount
  fenvAmt := amountLevel a.fenvAmount
  fcmax := fcmaxOf fs
  fq := fqOf a.filterResonance
  fk := fkOf a.filterResonance

/-- What the voices read during a block and none of them writes: act[], the derived values and FS
(R253). -/
structure BlockCtx where
  act : Snapshot
  derived : Derived
  fs : BitVec 18
deriving DecidableEq, Repr

/-- The section output types: FILTER_MODE mod 3 (R190). -/
inductive FilterType where
  | lowPass | highPass | bandPass
deriving DecidableEq, Repr

/-- mode mod 3: 0 low-pass, 1 high-pass, 2 band-pass (R190). -/
def filterType (mode : BitVec 18) : FilterType :=
  match mode.toNat % 3 with
  | 0 => .lowPass
  | 1 => .highPass
  | _ => .bandPass

/-- The filter envelope's multiplier of the cutoff (R194). -/
def menv (c : BlockCtx) (fe : Int) : Int :=
  if c.act.fenvEnable = 1 then ONE - c.derived.fenvAmt + shr (c.derived.fenvAmt * fe) 24 else ONE

/-- The LFO's multiplier of the cutoff (R194). -/
def mlfo (c : BlockCtx) (avg : Int) : Int := ONE + shr (c.derived.lfoDepth * avg) 24

/-- cutoff(fe, avg), Q16.16 Hz (R194). -/
def cutoff (c : BlockCtx) (fe avg : Int) : Int :=
  let f := shr (shr (shl c.act.filterCutoff.toNat 16 * menv c fe) 24 * mlfo c avg) 24
  clamp f (shl 20 16) (shl c.derived.fcmax 16)

/-- The section coefficients (g, a1, a2, a3), Q30 (R196). -/
structure Coeffs where
  g : Int
  a1 : Int
  a2 : Int
  a3 : Int
deriving DecidableEq, Repr

/-- th, the angle π fc / FS in phase units (R196). -/
def cutoffAngle (fs : BitVec 18) (fc : Int) : Int := fdiv (shl fc 15) fs.toNat

/-- coeffs(fc) (R196). -/
def coeffs (fs : BitVec 18) (fk : Nat) (fc : Int) : Coeffs :=
  let th := cutoffAngle fs fc
  let s := sinq30 (wrap32 th)
  let co := sinq30 (wrap32 (th + 2 ^ 30))
  let g := fdiv (shl s 30) co
  let den := 2 ^ 60 + g * (g + fk)
  let a1 := fdiv (2 ^ 90) den
  let a2 := shr (g * a1) 30
  let a3 := shr (g * a2) 30
  ⟨g, a1, a2, a3⟩

/-- v1 of a section step (R197). -/
def sectionV1 (c : Coeffs) (x : Int) (f : FilterSection) : Int :=
  shr (c.a1 * f.ic1.toInt) 30 + shr (c.a2 * (x - f.ic2.toInt)) 30

/-- v2 of a section step (R197). -/
def sectionV2 (c : Coeffs) (x : Int) (f : FilterSection) : Int :=
  f.ic2.toInt + shr (c.a2 * f.ic1.toInt) 30 + shr (c.a3 * (x - f.ic2.toInt)) 30

/-- The section's state after a step; the same for every output type (R197). -/
def sectionNext (c : Coeffs) (x : Int) (f : FilterSection) : FilterSection :=
  ⟨signedReg (2 * sectionV1 c x f - f.ic1.toInt), signedReg (2 * sectionV2 c x f - f.ic2.toInt)⟩

/-- The section's output (R197, R198). -/
def sectionOut (c : Coeffs) (fk : Nat) (t : FilterType) (x : Int) (f : FilterSection) : Int :=
  let v1 := sectionV1 c x f
  let v2 := sectionV2 c x f
  sat32 (match t with
    | .lowPass => v2
    | .highPass => x - shr (fk * v1) 30 - v2
    | .bandPass => v1)

/-- The two sections of a voice. -/
structure FilterState where
  f0 : FilterSection
  f1 : FilterSection
deriving DecidableEq, Repr

/-- The 24 dB/oct modes, which run the second section (R190, R199). -/
def twoSections (mode : BitVec 18) : Bool := 3 ≤ mode.toNat

/-- filter_sample: the output (R199). -/
def filterOut (c : BlockCtx) (k : Coeffs) (x : Int) (f : FilterState) : Int :=
  let t := filterType c.act.filterMode
  let y := sectionOut k c.derived.fk t x f.f0
  if twoSections c.act.filterMode then sectionOut k c.derived.fk t y f.f1 else y

/-- filter_sample: the sections after it; F[1] steps in the 24 dB/oct modes only (R199, R200). -/
def filterNext (c : BlockCtx) (k : Coeffs) (x : Int) (f : FilterState) : FilterState :=
  let t := filterType c.act.filterMode
  let y := sectionOut k c.derived.fk t x f.f0
  ⟨sectionNext k x f.f0, if twoSections c.act.filterMode then sectionNext k y f.f1 else f.f1⟩

/-- The filtered samples of a run with fixed coefficients, and the sections after it (R191, R199). -/
def filterRun (c : BlockCtx) (k : Coeffs) : List Int → FilterState → List Int × FilterState
  | [], f => ([], f)
  | x :: xs, f =>
    let r := filterRun c k xs (filterNext c k x f)
    (filterOut c k x f :: r.1, r.2)

/-- A voice's state in the filter stage: its filter envelope and its sections. -/
structure FilterStage where
  fenv : Env
  sections : FilterState
deriving DecidableEq, Repr

/-- filter_chunk: the samples of one chunk with its LFO values (R191). FENV ticks once per sample and
only its first output of the chunk reaches the cutoff. -/
def filterChunk (c : BlockCtx) (samples lfoBuf : List Int) (g : FilterStage) : List Int × FilterStage :=
  let first := g.fenv.tick
  let fc := cutoff c first.level.toNat (lfoAvg lfoBuf)
  let r := filterRun c (coeffs c.fs c.derived.fk fc) samples g.sections
  (r.1, ⟨iter Env.tick (samples.length - 1) first, r.2⟩)

/-- ⌈n/CHUNK⌉, the chunks of a block (R226). -/
def chunkCount (n : Nat) : Nat := (n + (Config.chunk - 1)) / Config.chunk

/-- The chunk loop over the first `k` chunks of a block (R191, R226). -/
def filterChunks (c : BlockCtx) : Nat → List Int → List Int → FilterStage → List Int × FilterStage
  | 0, _, _, g => ([], g)
  | k + 1, samples, lfoBuf, g =>
    let r := filterChunk c (samples.take Config.chunk) (lfoBuf.take Config.chunk) g
    let rest := filterChunks c k (samples.drop Config.chunk) (lfoBuf.drop Config.chunk) r.2
    (r.1 ++ rest.1, rest.2)

end Sys2Proof.Machine
end

