-- ==== Sys2Proof/Machine/Flags.lean ====
section
/-! DEFINITION. The STATUS bits of R22 and R280, the interrupt enables of R24, and irq (R285). -/

namespace Sys2Proof.Machine

/-- The sticky STATUS bits (R22). -/
inductive Flag where
  | done | errIllegal | errParamClamp | errEvqOvf | errRenderClamp | errCmdqOvf
deriving DecidableEq, Repr

/-- The bit number of a flag, which is its condition's code (R22, R280). -/
def Flag.bit : Flag → Nat
  | .done => 1
  | .errIllegal => 2
  | .errParamClamp => 3
  | .errEvqOvf => 4
  | .errRenderClamp => 5
  | .errCmdqOvf => 6

/-- The sticky bits of STATUS, 6:1 (R22). -/
def stickyMask : Word := 0x0000007E#32

/-- The value of a sticky bit. -/
def State.flag (s : State) (f : Flag) : Bool := s.status.getLsbD f.bit

/-- STATUS.f <- 1. -/
def State.setFlag (f : Flag) (s : State) : State := { s with status := s.status ||| (1#32 <<< f.bit) }

/-- CMDQ_LEVEL: the words in CMDQ, plus 1 while a command is executing (R23). -/
def State.cmdqLevel (s : State) : Nat := s.cmdq.length + if s.executing.isSome then 1 else 0

/-- STATUS.BUSY = (CMDQ_LEVEL ≠ 0) (R23). -/
def State.busy (s : State) : Bool := s.cmdqLevel != 0

/-- STATUS as the host reads it: the sticky bits, BUSY in bit 0, reserved bits 0 (R22). -/
def State.statusWord (s : State) : Word :=
  s.status &&& stickyMask ||| if s.busy then 1#32 else 0#32

/-- A host write to STATUS: 1 clears a sticky bit, 0 leaves it; BUSY and reserved bits ignore it
(R22). -/
def State.writeStatus (v : Word) (s : State) : State :=
  { s with status := s.status &&& ~~~(v &&& stickyMask) }

/-- A host write to CTRL stores value & 0x3 (R24). -/
def State.writeCtrl (v : Word) (s : State) : State := { s with ctrl := v &&& 0x3#32 }

/-- CTRL.DONE_IE (R24). -/
def State.doneIE (s : State) : Bool := s.ctrl.getLsbD 0

/-- CTRL.ERR_IE (R24). -/
def State.errIE (s : State) : Bool := s.ctrl.getLsbD 1

/-- Any error flag (R285). -/
def State.anyError (s : State) : Bool :=
  s.flag .errIllegal || s.flag .errParamClamp || s.flag .errEvqOvf || s.flag .errRenderClamp ||
    s.flag .errCmdqOvf

/-- The interrupt output, active high and level-sensitive (R285). -/
def State.irq (s : State) : Bool := s.flag .done && s.doneIE || s.anyError && s.errIE

end Sys2Proof.Machine
end

