-- ==== Sys2Proof/Machine/Memory.lean ====
section
/-! DEFINITION. OUTBUF as memory: byte reads and range writes over the canonical list, words in
little-endian byte order (R37, R64), and the offsets of R37's channel-major layout. -/

namespace Sys2Proof.Machine

/-- The byte at an offset. -/
def Memory.read : Memory → Nat → Byte
  | [], _ => Memory.unlisted
  | (k, b) :: rest, a => if k = a then b else Memory.read rest a

/-- The cells of a run of bytes from an offset on, leaving out those that read as unlisted. -/
def Memory.cells : Nat → List Byte → Memory
  | _, [] => []
  | a, b :: bs =>
    if b = Memory.unlisted then Memory.cells (a + 1) bs else (a, b) :: Memory.cells (a + 1) bs

/-- Store a run of bytes at consecutive offsets; every other byte stays. -/
def Memory.writeBytes (a : Nat) (bs : List Byte) (m : Memory) : Memory :=
  m.filter (fun c => c.1 < a) ++ Memory.cells a bs ++ m.filter (fun c => a + bs.length ≤ c.1)

/-- The four byte lanes of a word, lowest first (R64). -/
def wordBytes (w : Word) : List Byte :=
  [w.extractLsb' 0 8, w.extractLsb' 8 8, w.extractLsb' 16 8, w.extractLsb' 24 8]

/-- Store consecutive 32-bit words. -/
def Memory.writeWords (a : Nat) (ws : List Word) (m : Memory) : Memory :=
  Memory.writeBytes a (ws.flatMap wordBytes) m

/-- The 32-bit word at an offset (R64). -/
def Memory.readWord (m : Memory) (a : Nat) : Word :=
  m.read (a + 3) ++ m.read (a + 2) ++ m.read (a + 1) ++ m.read a

/-- The offset of OUTBUF[c][j]: 0x1000 + 0x1000 c + 4 j (R37). -/
def outbufOffset (c j : Nat) : Nat := 0x1000 + 0x1000 * c + 4 * j

/-- The word OUTBUF[c][j] (R37). -/
def State.outWord (s : State) (c j : Nat) : Word := s.outbuf.readWord (outbufOffset c j)

/-- Write the words of a block to channels 0 .. n-1, frames 0 .. (R256). -/
def Memory.writeChannels : Nat → List Word → Memory → Memory
  | 0, _, m => m
  | c + 1, ws, m => Memory.writeWords (outbufOffset c 0) ws (Memory.writeChannels c ws m)

end Sys2Proof.Machine
end

