-- ==== Sys2Proof/Machine/Operands.lean ====
section
/-! DEFINITION. The operand forms: the parameter registers by id, the legal ranges of R26 with the clamp
and fallback of R102, and the frame-count clamp of R107. -/

namespace Sys2Proof.Machine

/-- act[p]; the configuration ids have no act[] register and read 0 (R27, R61). -/
def Snapshot.get (a : Snapshot) : ParamId → BitVec 18
  | .ampAttack => a.ampAttack
  | .ampDecay => a.ampDecay
  | .ampSustain => a.ampSustain
  | .ampRelease => a.ampRelease
  | .fltAttack => a.fltAttack
  | .fltDecay => a.fltDecay
  | .fltSustain => a.fltSustain
  | .fltRelease => a.fltRelease
  | .filterCutoff => a.filterCutoff
  | .filterResonance => a.filterResonance
  | .filterMode => a.filterMode
  | .lfoFreq => a.lfoFreq
  | .lfoAmount => a.lfoAmount
  | .fenvEnable => a.fenvEnable
  | .fenvAmount => a.fenvAmount
  | .osc0Waveform => a.osc0Waveform
  | .osc1Waveform => a.osc1Waveform
  | .osc0Enable => a.osc0Enable
  | .osc1Enable => a.osc1Enable
  | .cfgSampleRate => 0
  | .cfgMaxBlock => 0
  | .cfgNumChannels => 0

/-- act[p] <- c for p in 0x00..0x1F; nothing for a configuration id. -/
def Snapshot.set (a : Snapshot) (c : BitVec 18) : ParamId → Snapshot
  | .ampAttack => { a with ampAttack := c }
  | .ampDecay => { a with ampDecay := c }
  | .ampSustain => { a with ampSustain := c }
  | .ampRelease => { a with ampRelease := c }
  | .fltAttack => { a with fltAttack := c }
  | .fltDecay => { a with fltDecay := c }
  | .fltSustain => { a with fltSustain := c }
  | .fltRelease => { a with fltRelease := c }
  | .filterCutoff => { a with filterCutoff := c }
  | .filterResonance => { a with filterResonance := c }
  | .filterMode => { a with filterMode := c }
  | .lfoFreq => { a with lfoFreq := c }
  | .lfoAmount => { a with lfoAmount := c }
  | .fenvEnable => { a with fenvEnable := c }
  | .fenvAmount => { a with fenvAmount := c }
  | .osc0Waveform => { a with osc0Waveform := c }
  | .osc1Waveform => { a with osc1Waveform := c }
  | .osc0Enable => { a with osc0Enable := c }
  | .osc1Enable => { a with osc1Enable := c }
  | .cfgSampleRate => a
  | .cfgMaxBlock => a
  | .cfgNumChannels => a

/-- stg[p] (R26). -/
def Staging.get (t : Staging) : ParamId → BitVec 18
  | .cfgSampleRate => t.sampleRate
  | .cfgMaxBlock => t.maxBlock
  | .cfgNumChannels => t.numChannels
  | p => t.snap.get p

/-- stg[p] <- c (R26, R102). -/
def Staging.set (t : Staging) (c : BitVec 18) : ParamId → Staging
  | .cfgSampleRate => { t with sampleRate := c }
  | .cfgMaxBlock => { t with maxBlock := c }
  | .cfgNumChannels => { t with numChannels := c }
  | p => { t with snap := t.snap.set c p }

end Sys2Proof.Machine

namespace Sys2Proof

/-- lo(id), the least legal value (R26). -/
def ParamId.lo : ParamId → Nat
  | .ampAttack => 10
  | .ampDecay => 10
  | .ampSustain => 0
  | .ampRelease => 10
  | .fltAttack => 10
  | .fltDecay => 10
  | .fltSustain => 0
  | .fltRelease => 10
  | .filterCutoff => 20
  | .filterResonance => 0
  | .filterMode => 0
  | .lfoFreq => 10
  | .lfoAmount => 0
  | .fenvEnable => 0
  | .fenvAmount => 0
  | .osc0Waveform => 0
  | .osc1Waveform => 0
  | .osc0Enable => 0
  | .osc1Enable => 0
  | .cfgSampleRate => 8000
  | .cfgMaxBlock => 1
  | .cfgNumChannels => 1

/-- hi(id), the greatest legal value (R26). -/
def ParamId.hi : ParamId → Nat
  | .ampAttack => 5000
  | .ampDecay => 5000
  | .ampSustain => 1000
  | .ampRelease => 5000
  | .fltAttack => 5000
  | .fltDecay => 5000
  | .fltSustain => 1000
  | .fltRelease => 5000
  | .filterCutoff => 20000
  | .filterResonance => 1000
  | .filterMode => 5
  | .lfoFreq => 2000
  | .lfoAmount => 1000
  | .fenvEnable => 1
  | .fenvAmount => 1000
  | .osc0Waveform => 4
  | .osc1Waveform => 4
  | .osc0Enable => 1
  | .osc1Enable => 1
  | .cfgSampleRate => 192000
  | .cfgMaxBlock => 1024
  | .cfgNumChannels => 2

/-- The ids OSCi_WAVEFORM, whose values above 4 fall back to 0 (R26, R102). -/
def ParamId.isWaveform : ParamId → Bool
  | .osc0Waveform => true
  | .osc1Waveform => true
  | _ => false

end Sys2Proof

namespace Sys2Proof.Machine

/-- The value SET_PARAM stores: clamped, or 0 for an unknown waveform (R102). -/
def storedValue (p : ParamId) (val : BitVec 18) : BitVec 18 :=
  if p.isWaveform then (if val.toNat ≤ 4 then val else 0)
  else BitVec.ofNat 18 (min p.hi (max p.lo val.toNat))

/-- The frames a RENDER renders: NFR, at most MAXBLK (R107). -/
def renderFrames (nfr : BitVec 16) (maxblk : BitVec 18) : Nat := min nfr.toNat maxblk.toNat

end Sys2Proof.Machine
end

