-- ==== Sys2Proof/Machine/Ops.lean ====
section
/-! DEFINITION. The named operations over the state that the meanings share: sequencing of steps, the
voices, sequence stamps, the recorded conditions of 60_exceptions.md (the block takes no trap, R280,
R289, so raising a condition is the whole of it, and there is no return, R290), SET_PARAM's store, the
event queue, and the command FIFO. -/

namespace Sys2Proof.Machine

/-- The outcome of a step. -/
abbrev Result := Host.Outcome State Fault Refusal

/-- Go on from a next state; a fault or a refusal stops. -/
def andThen (r : Result) (f : State → Result) : Result :=
  match r with
  | .next s => f s
  | .fault x => .fault x
  | .refused x => .refused x

/-- The voice numbers in index order. -/
def voiceIds : List (Fin Config.numVoices) := [0, 1, 2, 3, 4, 5, 6, 7, 8, 9]

/-- V[v]. -/
def State.voice (s : State) (v : Fin Config.numVoices) : Voice := s.voices[v.val]

/-- V[v] <- x. -/
def State.setVoice (s : State) (v : Fin Config.numVoices) (x : Voice) : State :=
  { s with voices := s.voices.set v.val x }

/-- Every voice replaced at once, from its number and its old value. -/
def mapVoices (f : Fin Config.numVoices → Voice → Voice) (vs : Vector Voice Config.numVoices) :
    Vector Voice Config.numVoices :=
  #v[f 0 vs[0], f 1 vs[1], f 2 vs[2], f 3 vs[3], f 4 vs[4],
     f 5 vs[5], f 6 vs[6], f 7 vs[7], f 8 vs[8], f 9 vs[9]]

/-- `for v in …`: run an operation for each listed voice in turn. -/
def forVoices (f : Fin Config.numVoices → State → Result) : List (Fin Config.numVoices) → State → Result
  | [], s => .next s
  | v :: vs, s => andThen (f v s) (forVoices f vs)

/-- The listed voice with the smallest key, the first of equals; none of an empty list. -/
def argMin (key : Fin Config.numVoices → Nat) : List (Fin Config.numVoices) → Option (Fin Config.numVoices)
  | [] => none
  | v :: vs =>
    match argMin key vs with
    | none => some v
    | some w => if key v ≤ key w then some v else some w

/-- next_seq(): SEQ <- SEQ + 1; the new value is the next state's SEQ. Refused at 2^64 - 1 (R34, I4;
log 1). -/
def nextSeq (s : State) : Result :=
  if s.seq = BitVec.allOnes 64 then .refused .seqWrap else .next { s with seq := s.seq + 1 }

/-- raise ERR_X: the one effect of an exceptional condition is its sticky STATUS bit (R12, R280). -/
def raise (f : Flag) (s : State) : State := s.setFlag f

/-- raise ERR_ILLEGAL(w): LAST_ILLEGAL <- w, and nothing else changes (R281). -/
def raiseIllegal (w : Word) (s : State) : State := raise .errIllegal { s with lastIllegal := w }

/-- SET_PARAM(ID, VAL) for a legal id (R102). -/
def setParam (p : ParamId) (val : BitVec 18) (s : State) : Result :=
  let c := storedValue p val
  let s' := { s with stg := s.stg.set c p }
  .next (if c = val then s' else raise .errParamClamp s')

/-- enqueue(w): append a note event, or drop it with ERR_EVQ_OVF when EVQ is full (R106, R283). -/
def enqueue (e : Event) (s : State) : State :=
  if s.evq.length < Config.evqDepth then { s with evq := s.evq ++ [e] } else raise .errEvqOvf s

/-- A host write of w to CMD: append to CMDQ, or drop it with ERR_CMDQ_OVF when CMDQ is full (R23,
R286). -/
def writeCmd (w : Word) (s : State) : State :=
  if s.cmdq.length < Config.cmdqDepth then { s with cmdq := s.cmdq ++ [w] } else raise .errCmdqOvf s

/-- The word the command processor executes next, and the state without it: the word already executing,
else the oldest word of CMDQ; none when the processor is idle (R23, R99; log 3). -/
def fetch (s : State) : Option (Word × State) :=
  match s.executing with
  | some w => some (w, { s with executing := none })
  | none =>
    match s.cmdq with
    | [] => none
    | w :: q => some (w, { s with cmdq := q })

/-- The oldest word leaves CMDQ and begins executing; nothing happens while a command is executing or
CMDQ is empty (R23, R305; log 3). -/
def issue (s : State) : State :=
  match s.executing, s.cmdq with
  | none, w :: q => { s with cmdq := q, executing := some w }
  | _, _ => s

end Sys2Proof.Machine
end

