-- ==== Sys2Proof/Machine/Oscillator.lean ====
section
/-! DEFINITION. The oscillator bank (41_oscillator_bank.md): waveforms, noise, increments and the bank
tick. -/

namespace Sys2Proof.Machine

/-- The waveform kinds (R131). -/
inductive Waveform where
  | sine | square | saw | triangle | noise
deriving DecidableEq, Repr

/-- The kind a selector act[0x10 + i] names (R131). Values above 4 cannot be stored (R102); they read as
sine, in states no run reaches (log 11). -/
def Waveform.ofParam (x : BitVec 18) : Waveform :=
  match x.toNat with
  | 1 => .square
  | 2 => .saw
  | 3 => .triangle
  | 4 => .noise
  | _ => .sine

/-- SINE (R133). -/
def waveSine (p : Word) : Int := shr (sinq30 (p + 0x80000000#32)) 6

/-- SQUARE (R134). -/
def waveSquare (p : Word) : Int := if 2 ^ 31 ≤ p.toNat then ONE else -ONE

/-- SAW (R135). -/
def waveSaw (p : Word) : Int := shr p.toNat 7 - ONE

/-- TRIANGLE (R136). -/
def waveTriangle (p : Word) : Int :=
  let u := p + 0x80000000#32
  let w := shr u.toNat 7 - ONE
  2 * (w.natAbs : Int) - ONE

/-- NOISE, from the generator state (R137). -/
def waveNoise (r : Word) : Int := shr r.toNat 7 - ONE

/-- wave(kind, p, r) (R133 to R137). -/
def wave (kind : Waveform) (p r : Word) : Int :=
  match kind with
  | .sine => waveSine p
  | .square => waveSquare p
  | .saw => waveSaw p
  | .triangle => waveTriangle p
  | .noise => waveNoise r

/-- xs: one step of the xorshift32 generator with shifts 13, 17, 5 (R137). -/
def xs (r : Word) : Word :=
  let r1 := r ^^^ (r <<< 13)
  let r2 := r1 ^^^ (r1 >>> 17)
  r2 ^^^ (r2 <<< 5)

/-- seed(v, i) = 0x6D2B79F5 xor (v NUM_OSC + i) (R137). -/
def seed (v i : Nat) : Word := 0x6D2B79F5#32 ^^^ BitVec.ofNat 32 (v * Config.numOsc + i)

/-- The phase increment of a note: wrap32(fdiv(NOTE_ROM[m] << 16, FS)) (R138). -/
def noteInc (m : BitVec 7) (fs : BitVec 18) : Word :=
  wrap32 (fdiv (shl (noteRom m.toNat) 16) fs.toNat)

/-- set_frequency(v, m, reset): writes inc, and phase only when asked (R139). -/
def setFrequency (m : BitVec 7) (fs : BitVec 18) (reset : Bool) (x : Voice) : Voice :=
  { x with inc := noteInc m fs, phase := if reset then 0 else x.phase }

/-- One oscillator's share of the bank's sum: left out when it is disabled (R140, R141). -/
def oscSample (enable waveform : BitVec 18) (p r : Word) : Int :=
  if enable = 1 then wave (Waveform.ofParam waveform) p r else 0

/-- The sample of one bank tick, at the phase before it (R130, R140). -/
def bankSample (a : Snapshot) (x : Voice) : Int :=
  oscSample a.osc0Enable a.osc0Waveform x.phase x.rng0 +
    oscSample a.osc1Enable a.osc1Waveform x.phase x.rng1

/-- The voice after one bank tick: phase and both noise generators advance, whatever the enable flags
(R130, R137, R140, R141). -/
def bankNext (x : Voice) : Voice :=
  { x with phase := x.phase + x.inc, rng0 := xs x.rng0, rng1 := xs x.rng1 }

/-- The samples of n bank ticks (R224). -/
def bankSamples (a : Snapshot) : Nat → Voice → List Int
  | 0, _ => []
  | n + 1, x => bankSample a x :: bankSamples a n (bankNext x)

end Sys2Proof.Machine
end

