-- ==== Sys2Proof/Machine/Voice.lean ====
section
/-! DEFINITION. The voice lifecycle and the voice render (45_voice.md). -/

namespace Sys2Proof.Machine

/-- gain = fdiv(vel 5033165, 127) (R221). -/
def gainOf (vel : BitVec 7) : BitVec 25 := BitVec.ofNat 25 (vel.toNat * 5033165 / 127)

/-- The voice fields start_note writes, given the stamp (R220, R200). -/
def Voice.started (m vel : BitVec 7) (fs : BitVec 18) (stamp : BitVec 64) (x : Voice) : Voice :=
  { setFrequency m fs true x with
    aenv := x.aenv.hardReset.gateOn
    fenv := x.fenv.hardReset.gateOn
    f0 := ⟨0, 0⟩
    f1 := ⟨0, 0⟩
    gain := gainOf vel
    note := m
    vel := vel
    state := .active
    trigSeq := stamp }

/-- start_note(v, m, vel) (R220). -/
def startNote (v : Fin Config.numVoices) (m vel : BitVec 7) (s : State) : Result :=
  andThen (nextSeq s) fun t => .next (t.setVoice v ((t.voice v).started m vel t.fs t.seq))

/-- A hard-stopped voice: both envelopes gated off and hard-reset, IDLE, stamped (R222). -/
def Voice.hardStopped (stamp : BitVec 64) (x : Voice) : Voice :=
  { x with
    aenv := x.aenv.gateOff.hardReset
    fenv := x.fenv.gateOff.hardReset
    state := .idle
    freeSeq := stamp }

/-- A voice stopped with tail-off: both envelopes gated off, RELEASING (R222). -/
def Voice.released (x : Voice) : Voice :=
  { x with aenv := x.aenv.gateOff, fenv := x.fenv.gateOff, state := .releasing }

/-- stop_note(v, hard) (R222). -/
def stopNote (hard : Bool) (v : Fin Config.numVoices) (s : State) : Result :=
  if hard then andThen (nextSeq s) fun t => .next (t.setVoice v ((t.voice v).hardStopped t.seq))
  else .next (s.setVoice v (s.voice v).released)

/-- The gain stage of one sample (R225). -/
def applyGain (gain : BitVec 25) (x : Int) : Int := shr (x * gain.toNat) 24

/-- The amplitude envelope stage: each sample by the level of its own tick (R227). -/
def applyLevels : List Int → List Int → List Int
  | x :: xs, l :: ls => shr (x * l) 24 :: applyLevels xs ls
  | _, _ => []

/-- The oscillator and gain stages of n frames (R224, R225). -/
def gainedSamples (a : Snapshot) (n : Nat) (x : Voice) : List Int :=
  (bankSamples a n x).map (applyGain x.gain)

/-- The filter stage of n frames (R226). -/
def filteredSamples (c : BlockCtx) (lfoBuf : List Int) (n : Nat) (x : Voice) : List Int × FilterStage :=
  filterChunks c (chunkCount n) (gainedSamples c.act n x) lfoBuf ⟨x.fenv, ⟨x.f0, x.f1⟩⟩

/-- render_voice(v, n): the n samples (R223). -/
def renderOut (c : BlockCtx) (lfoBuf : List Int) (n : Nat) (x : Voice) : List Int :=
  applyLevels (filteredSamples c lfoBuf n x).1 (Env.levels n x.aenv)

/-- render_voice(v, n): the voice after it. Phase and noise advance n times, FENV and AENV tick n times,
and the sections take n samples; nothing else of the voice changes (R223 to R227). -/
def renderNext (c : BlockCtx) (lfoBuf : List Int) (n : Nat) (x : Voice) : Voice :=
  let g := (filteredSamples c lfoBuf n x).2
  { iter bankNext n x with
    aenv := iter Env.tick n x.aenv
    fenv := g.fenv
    f0 := g.sections.f0
    f1 := g.sections.f1 }

end Sys2Proof.Machine
end

