-- ==== Sys2Proof/Machine/Engine.lean ====
section
/-! DEFINITION. The synth engine (46_engine_mixer.md): note dispatch and allocation, commit and drain,
the summing tree, the limiter, OUTBUF, the end of a block, and the engine reset. -/

namespace Sys2Proof.Machine

/-- V[v] is IDLE. -/
def State.isIdle (s : State) (v : Fin Config.numVoices) : Bool := (s.voice v).state == .idle

/-- V[v] is ACTIVE with note m: it plays m (R241, R244). -/
def State.plays (s : State) (m : BitVec 7) (v : Fin Config.numVoices) : Bool :=
  (s.voice v).state == .active && (s.voice v).note == m

/-- select_free(): the IDLE voice with the smallest (free_seq, index), if any is IDLE (R242). -/
def selectFree (s : State) : Option (Fin Config.numVoices) :=
  argMin (fun v => (s.voice v).freeSeq.toNat) (voiceIds.filter s.isIdle)

/-- The voices select_steal() chooses from: the RELEASING ones if there are any, else all (R243). -/
def stealPool (s : State) : List (Fin Config.numVoices) :=
  let r := voiceIds.filter fun v => (s.voice v).state == .releasing
  if r.isEmpty then voiceIds else r

/-- select_steal(): the voice of the pool with the smallest trig_seq (R243). The pool is never empty. -/
def selectSteal (s : State) : Fin Config.numVoices :=
  (argMin (fun v => (s.voice v).trigSeq.toNat) (stealPool s)).getD 0

/-- note_off(m, hard): stop every voice that plays m (R244). With `hard` false this is also the
same-note release of note_on (R241). -/
def noteOff (m : BitVec 7) (hard : Bool) (s : State) : Result :=
  forVoices (fun v t => if t.plays m v then stopNote hard v t else .next t) voiceIds s

/-- Allocation and start: a free voice, else a stolen one, hard-stopped first (R241 to R243). -/
def allocate (m vel : BitVec 7) (s : State) : Result :=
  match selectFree s with
  | some v => startNote v m vel s
  | none => andThen (stopNote true (selectSteal s) s) (startNote (selectSteal s) m vel)

/-- note_on(m, vel) (R241). -/
def noteOn (m vel : BitVec 7) (s : State) : Result := andThen (noteOff m false s) (allocate m vel)

/-- all_off(hard) (R245). -/
def allOff (hard : Bool) (s : State) : Result :=
  forVoices
    (fun v t =>
      if (if hard then (t.voice v).state != .idle else (t.voice v).state == .active) then
        stopNote hard v t
      else .next t)
    voiceIds s

/-- The dispatch of one drained event (R251). -/
def dispatch (e : Event) (s : State) : Result :=
  match e with
  | .noteOn note vel => noteOn note vel s
  | .noteOff hard note _ => noteOff note hard s
  | .allNotesOff hard => allOff hard s

/-- Dispatch events in order (R246). -/
def dispatchAll : List Event → State → Result
  | [], s => .next s
  | e :: es, s => andThen (dispatch e s) (dispatchAll es)

/-- drain_evq(): every queued event, oldest first (R251). -/
def drainEvq (s : State) : Result := dispatchAll s.evq { s with evq := [] }

/-- A voice at a commit: both envelopes take the new parameters (R162, R250). -/
def Voice.updated (qa qf : EnvParams) (x : Voice) : Voice :=
  { x with aenv := x.aenv.update qa, fenv := x.fenv.update qf }

/-- commit() (R250). -/
def commit (s : State) : State :=
  let a := s.stg.snap
  { s with
    act := a
    derived := derive a s.fs
    voices := mapVoices (fun _ x => x.updated (ampParams a s.fs) (fltParams a s.fs)) s.voices }

/-- What the voices read during a block (R253). -/
def State.ctx (s : State) : BlockCtx := ⟨s.act, s.derived, s.fs⟩

/-- MIX[j] <- MIX[j] + out[j] (R240, R254). -/
def addMix : List Int → List Int → List Int
  | m :: ms, x :: xs => (m + x) :: addMix ms xs
  | ms, [] => ms
  | [], _ => []

/-- Render one voice into the mix, or skip an IDLE one (R228, R240, R253). -/
def mixVoice (n : Nat) (lfoBuf : List Int) (v : Fin Config.numVoices) (r : List Int × State) :
    List Int × State :=
  if r.2.isIdle v then r
  else
    (addMix r.1 (renderOut r.2.ctx lfoBuf n (r.2.voice v)),
     r.2.setVoice v (renderNext r.2.ctx lfoBuf n (r.2.voice v)))

/-- Render the listed voices in order (R253). -/
def mixVoices (n : Nat) (lfoBuf : List Int) : List (Fin Config.numVoices) → List Int × State → List Int × State
  | [], r => r
  | v :: vs, r => mixVoices n lfoBuf vs (mixVoice n lfoBuf v r)

/-- K95 = round(0.95 2^24) (R255). -/
def K95 : Nat := 15938355

/-- K05 = ONE - K95 (R255). -/
def K05 : Nat := 838861

/-- limit(x), the output limiter (R255). -/
def limit (x : Int) : Int :=
  let ax := x.natAbs
  if ax ≤ K95 then x
  else
    let u := 20 * (ax - K95)
    let ya : Int := K95 + shr (K05 * tanhq24 u) 24
    if 0 < x then ya else -ya

/-- Steps 3 and 4 of a block: fill the LFO buffer, then render and sum the voices; the mix and the state
after them (R252 to R254). -/
def renderMix (n : Nat) (s : State) : List Int × State :=
  let buf := lfoFill n s.lfoPhase s.derived.lfoInc
  let t := { s with lfoPhase := lfoPhaseAfter n s.lfoPhase s.derived.lfoInc }
  mixVoices n buf voiceIds (List.replicate n 0, t)

/-- The output words of a mix: limited, as 32-bit two's complement (R255, R256). -/
def outputWords (mix : List Int) : List Word := mix.map fun x => BitVec.ofInt 32 (limit x)

/-- write_outbuf(n): the block's words to every channel below NCH (R256). -/
def writeOutbuf (ws : List Word) (s : State) : State :=
  { s with outbuf := Memory.writeChannels s.nch.toNat ws s.outbuf }

/-- Steps 3 to 6 of a block (R240). -/
def renderAudio (n : Nat) (s : State) : State :=
  let r := renderMix n s
  writeOutbuf (outputWords r.1) r.2

/-- The freeing of one voice at the end of a block, if its amplitude envelope is Idle (R257). -/
def freeVoice (v : Fin Config.numVoices) (s : State) : Result :=
  if (s.voice v).state != .idle && !(s.voice v).aenv.isActive then
    andThen (nextSeq s) fun t => .next (t.setVoice v { t.voice v with state := .idle, freeSeq := t.seq })
  else .next s

/-- free_finished() (R257). -/
def freeFinished (s : State) : Result := forVoices freeVoice voiceIds s

/-- Block completion: BLOCK_COUNT and DONE (R258). -/
def completeBlock (s : State) : State := { s with blockCount := s.blockCount + 1 }.setFlag .done

/-- render_block(n) (R240). -/
def renderBlock (n : Nat) (s : State) : Result :=
  andThen (drainEvq (commit s)) fun t =>
    andThen (freeFinished (renderAudio n t)) fun u => .next (completeBlock u)

/-- A voice at an engine reset; its envelope lengths and sustain level stay (R155, R260). -/
def Voice.engineReset (v : Fin Config.numVoices) (x : Voice) : Voice where
  state := .idle
  note := 0
  vel := 0
  gain := 0
  inc := 0
  phase := 0
  rng0 := seed v.val 0
  rng1 := seed v.val 1
  aenv := x.aenv.hardReset
  fenv := x.fenv.hardReset
  f0 := ⟨0, 0⟩
  f1 := ⟨0, 0⟩
  trigSeq := 0
  freeSeq := 0

/-- engine_reset() (R260). -/
def engineReset (s : State) : State :=
  { s with
    voices := mapVoices Voice.engineReset s.voices
    seq := 0
    lfoPhase := 0
    evq := []
    outbuf := [] }

end Sys2Proof.Machine
end

