-- ==== Sys2Proof/Machine/Control.lean ====
section
/-! DEFINITION. The meanings of NOP and PREPARE. -/

namespace Sys2Proof.Machine

/-- NOP: no state change (R100). -/
def execNop (s : State) : Result := .next s

/-- FS, MAXBLK and NCH from stg[0x20..0x22] (R101, R28). -/
def latchConfig (s : State) : State :=
  { s with fs := s.stg.sampleRate, maxblk := s.stg.maxBlock, nch := s.stg.numChannels }

/-- PREPARE: latch the configuration, reset the engine, commit (R101). -/
def execPrepare (s : State) : Result := .next (commit (engineReset (latchConfig s)))

end Sys2Proof.Machine
end

