-- ==== Sys2Proof/Machine/Notes.lean ====
section
/-! DEFINITION. The meanings of NOTE_ON, NOTE_OFF and ALL_NOTES_OFF: each queues its event for the next
RENDER (R103 to R106). -/

namespace Sys2Proof.Machine

/-- NOTE_ON (R103). -/
def execNoteOn (note vel : BitVec 7) (s : State) : Result := .next (enqueue (.noteOn note vel) s)

/-- NOTE_OFF (R104). -/
def execNoteOff (hard : Bool) (note vel : BitVec 7) (s : State) : Result :=
  .next (enqueue (.noteOff hard note vel) s)

/-- ALL_NOTES_OFF (R105). -/
def execAllNotesOff (hard : Bool) (s : State) : Result := .next (enqueue (.allNotesOff hard) s)

end Sys2Proof.Machine
end

