-- ==== Sys2Proof/Machine/Render.lean ====
section
/-! DEFINITION. The meaning of RENDER (R107). -/

namespace Sys2Proof.Machine

/-- ERR_RENDER_CLAMP when NFR > MAXBLK (R107, R284). -/
def clampFrames (nfr : BitVec 16) (s : State) : State :=
  if s.maxblk.toNat < nfr.toNat then raise .errRenderClamp s else s

/-- RENDER (R107). -/
def execRender (nfr : BitVec 16) (s : State) : Result :=
  renderBlock (renderFrames nfr s.maxblk) (clampFrames nfr s)

end Sys2Proof.Machine
end

