-- ==== Sys2Proof/Machine/SetParam.lean ====
section
/-! DEFINITION. The meanings of the 22 SET_PARAM rows (R102), one per legal id. -/

namespace Sys2Proof.Machine

/-- SET_PARAM AMP_ATTACK (id 0x00; R102). -/
def execSetParamAmpAttack (val : BitVec 18) (s : State) : Result := setParam .ampAttack val s

/-- SET_PARAM AMP_DECAY (id 0x01; R102). -/
def execSetParamAmpDecay (val : BitVec 18) (s : State) : Result := setParam .ampDecay val s

/-- SET_PARAM AMP_SUSTAIN (id 0x02; R102). -/
def execSetParamAmpSustain (val : BitVec 18) (s : State) : Result := setParam .ampSustain val s

/-- SET_PARAM AMP_RELEASE (id 0x03; R102). -/
def execSetParamAmpRelease (val : BitVec 18) (s : State) : Result := setParam .ampRelease val s

/-- SET_PARAM FLT_ATTACK (id 0x04; R102). -/
def execSetParamFltAttack (val : BitVec 18) (s : State) : Result := setParam .fltAttack val s

/-- SET_PARAM FLT_DECAY (id 0x05; R102). -/
def execSetParamFltDecay (val : BitVec 18) (s : State) : Result := setParam .fltDecay val s

/-- SET_PARAM FLT_SUSTAIN (id 0x06; R102). -/
def execSetParamFltSustain (val : BitVec 18) (s : State) : Result := setParam .fltSustain val s

/-- SET_PARAM FLT_RELEASE (id 0x07; R102). -/
def execSetParamFltRelease (val : BitVec 18) (s : State) : Result := setParam .fltRelease val s

/-- SET_PARAM FILTER_CUTOFF (id 0x08; R102). -/
def execSetParamFilterCutoff (val : BitVec 18) (s : State) : Result := setParam .filterCutoff val s

/-- SET_PARAM FILTER_RESONANCE (id 0x09; R102). -/
def execSetParamFilterResonance (val : BitVec 18) (s : State) : Result := setParam .filterResonance val s

/-- SET_PARAM FILTER_MODE (id 0x0A; R102). -/
def execSetParamFilterMode (val : BitVec 18) (s : State) : Result := setParam .filterMode val s

/-- SET_PARAM LFO_FREQ (id 0x0B; R102). -/
def execSetParamLfoFreq (val : BitVec 18) (s : State) : Result := setParam .lfoFreq val s

/-- SET_PARAM LFO_AMOUNT (id 0x0C; R102). -/
def execSetParamLfoAmount (val : BitVec 18) (s : State) : Result := setParam .lfoAmount val s

/-- SET_PARAM FENV_ENABLE (id 0x0D; R102). -/
def execSetParamFenvEnable (val : BitVec 18) (s : State) : Result := setParam .fenvEnable val s

/-- SET_PARAM FENV_AMOUNT (id 0x0E; R102). -/
def execSetParamFenvAmount (val : BitVec 18) (s : State) : Result := setParam .fenvAmount val s

/-- SET_PARAM OSC0_WAVEFORM (id 0x10; R102). -/
def execSetParamOsc0Waveform (val : BitVec 18) (s : State) : Result := setParam .osc0Waveform val s

/-- SET_PARAM OSC1_WAVEFORM (id 0x11; R102). -/
def execSetParamOsc1Waveform (val : BitVec 18) (s : State) : Result := setParam .osc1Waveform val s

/-- SET_PARAM OSC0_ENABLE (id 0x18; R102). -/
def execSetParamOsc0Enable (val : BitVec 18) (s : State) : Result := setParam .osc0Enable val s

/-- SET_PARAM OSC1_ENABLE (id 0x19; R102). -/
def execSetParamOsc1Enable (val : BitVec 18) (s : State) : Result := setParam .osc1Enable val s

/-- SET_PARAM CFG_SAMPLE_RATE (id 0x20; R102). -/
def execSetParamCfgSampleRate (val : BitVec 18) (s : State) : Result := setParam .cfgSampleRate val s

/-- SET_PARAM CFG_MAX_BLOCK (id 0x21; R102). -/
def execSetParamCfgMaxBlock (val : BitVec 18) (s : State) : Result := setParam .cfgMaxBlock val s

/-- SET_PARAM CFG_NUM_CHANNELS (id 0x22; R102). -/
def execSetParamCfgNumChannels (val : BitVec 18) (s : State) : Result := setParam .cfgNumChannels val s

end Sys2Proof.Machine
end

