-- ==== Sys2Proof/Machine/Dispatch.lean ====
section
/-! DEFINITION. The dispatch of a decoded command to its meaning (R94, R99). -/

namespace Sys2Proof.Machine

def exec (i : Instr) (s : State) : Host.Outcome State Fault Refusal :=
  match i with
  | .nop => Sys2Proof.Machine.execNop s
  | .prepare => Sys2Proof.Machine.execPrepare s
  | .setParamAmpAttack val => Sys2Proof.Machine.execSetParamAmpAttack val s
  | .setParamAmpDecay val => Sys2Proof.Machine.execSetParamAmpDecay val s
  | .setParamAmpSustain val => Sys2Proof.Machine.execSetParamAmpSustain val s
  | .setParamAmpRelease val => Sys2Proof.Machine.execSetParamAmpRelease val s
  | .setParamFltAttack val => Sys2Proof.Machine.execSetParamFltAttack val s
  | .setParamFltDecay val => Sys2Proof.Machine.execSetParamFltDecay val s
  | .setParamFltSustain val => Sys2Proof.Machine.execSetParamFltSustain val s
  | .setParamFltRelease val => Sys2Proof.Machine.execSetParamFltRelease val s
  | .setParamFilterCutoff val => Sys2Proof.Machine.execSetParamFilterCutoff val s
  | .setParamFilterResonance val => Sys2Proof.Machine.execSetParamFilterResonance val s
  | .setParamFilterMode val => Sys2Proof.Machine.execSetParamFilterMode val s
  | .setParamLfoFreq val => Sys2Proof.Machine.execSetParamLfoFreq val s
  | .setParamLfoAmount val => Sys2Proof.Machine.execSetParamLfoAmount val s
  | .setParamFenvEnable val => Sys2Proof.Machine.execSetParamFenvEnable val s
  | .setParamFenvAmount val => Sys2Proof.Machine.execSetParamFenvAmount val s
  | .setParamOsc0Waveform val => Sys2Proof.Machine.execSetParamOsc0Waveform val s
  | .setParamOsc1Waveform val => Sys2Proof.Machine.execSetParamOsc1Waveform val s
  | .setParamOsc0Enable val => Sys2Proof.Machine.execSetParamOsc0Enable val s
  | .setParamOsc1Enable val => Sys2Proof.Machine.execSetParamOsc1Enable val s
  | .setParamCfgSampleRate val => Sys2Proof.Machine.execSetParamCfgSampleRate val s
  | .setParamCfgMaxBlock val => Sys2Proof.Machine.execSetParamCfgMaxBlock val s
  | .setParamCfgNumChannels val => Sys2Proof.Machine.execSetParamCfgNumChannels val s
  | .noteOn note vel => Sys2Proof.Machine.execNoteOn note vel s
  | .noteOff hard note vel => Sys2Proof.Machine.execNoteOff hard note vel s
  | .allNotesOff hard => Sys2Proof.Machine.execAllNotesOff hard s
  | .render nfr => Sys2Proof.Machine.execRender nfr s

end Sys2Proof.Machine
end

