-- ==== Sys2Proof/Machine/Window.lean ====
section
/-! DEFINITION. The register window (20_memory.md): the register map, host reads and writes, bus errors,
and the reset input. -/

namespace Sys2Proof.Machine

/-- ID reads 0x4D530007 (R21). -/
def idWord : Word := 0x4D530007#32

/-- ACTIVE_VOICES: bit v is 1 iff V[v].state ≠ IDLE (R25). -/
def State.activeVoices (s : State) : Word :=
  BitVec.ofNat 32 (voiceIds.map fun v => if s.isIdle v then 0 else 2 ^ v.val).sum

/-- The state's code in VSTATE[1:0] (R30). -/
def Life.code : Life → Nat
  | .idle => 0
  | .active => 1
  | .releasing => 2

/-- The stage's code in VENV (R32). -/
def Stage.code : Stage → Nat
  | .idle => 0
  | .attack => 1
  | .decay => 2
  | .sustain => 3
  | .release => 4

/-- VSTATE: state in [1:0], note in [14:8], vel in [22:16] (R30). -/
def Voice.vstate (x : Voice) : Word :=
  BitVec.ofNat 32 (x.state.code + x.note.toNat * 2 ^ 8 + x.vel.toNat * 2 ^ 16)

/-- VENV: AENV.stage in [2:0], FENV.stage in [6:4] (R32). -/
def Voice.venv (x : Voice) : Word := BitVec.ofNat 32 (x.aenv.stage.code + x.fenv.stage.code * 2 ^ 4)

/-- The word at an offset of a voice's read-only view (R43). -/
def Voice.view (x : Voice) (off : Nat) : Word :=
  match off with
  | 0x00 => x.vstate
  | 0x04 => x.venv
  | 0x08 => x.aenv.level.zeroExtend 32
  | 0x0C => x.fenv.level.zeroExtend 32
  | 0x10 => x.phase
  | 0x14 => x.inc
  | 0x18 => x.trigSeq.extractLsb' 0 32
  | 0x1C => x.freeSeq.extractLsb' 0 32
  | _ => 0

/-- The control and status registers, offsets 0x000..0x0FC; the rest of that range is reserved and reads
0 (R61, R62). -/
def State.readControl (s : State) (off : Nat) : Word :=
  match off with
  | 0x00 => idWord
  | 0x04 => s.statusWord
  | 0x08 => s.ctrl &&& 0x3#32
  | 0x0C => 0
  | 0x10 => s.blockCount
  | 0x14 => s.lastIllegal
  | 0x18 => BitVec.ofNat 32 (s.evq.length % 2 ^ 8)
  | 0x1C => s.activeVoices
  | 0x20 => s.lfoPhase
  | 0x24 => s.seq.extractLsb' 0 32
  | 0x28 => s.seq.extractLsb' 32 32
  | 0x2C => BitVec.ofNat 32 (s.cmdqLevel % 2 ^ 5)
  | _ => 0

/-- stg[id] at 0x100 + 4 id; a reserved id reads 0 (R26, R62). -/
def State.readStg (s : State) (id : Nat) : Word :=
  match ParamId.ofNum? id with
  | some p => (s.stg.get p).zeroExtend 32
  | none => 0

/-- act[id] at 0x200 + 4 id for id below 0x20, then FS, MAXBLK and NCH at ids 0x20..0x22; a reserved id
reads 0 (R27, R28, R62). -/
def State.readAct (s : State) (id : Nat) : Word :=
  match ParamId.ofNum? id with
  | some .cfgSampleRate => s.fs.zeroExtend 32
  | some .cfgMaxBlock => s.maxblk.zeroExtend 32
  | some .cfgNumChannels => s.nch.zeroExtend 32
  | some p => (s.act.get p).zeroExtend 32
  | none => 0

/-- The voice views from 0x400 on, 32 bytes a voice; those of NUM_VOICES ≤ v < 32 read 0 (R43). -/
def State.readView (s : State) (off : Nat) : Word :=
  if h : off / 0x20 < Config.numVoices then (s.voice ⟨off / 0x20, h⟩).view (off % 0x20) else 0

/-- The register at a 4-byte-aligned offset of the window (R61). -/
def State.readReg (s : State) (off : Nat) : Word :=
  if off < 0x100 then s.readControl off
  else if off < 0x200 then s.readStg ((off - 0x100) / 4)
  else if off < 0x300 then s.readAct ((off - 0x200) / 4)
  else if off < 0x400 then 0
  else if off < 0x800 then s.readView (off - 0x400)
  else if off < 0x1000 then 0
  else if off < 0x3000 then s.outbuf.readWord off
  else 0

/-- A legal host write: STATUS, CTRL and CMD take it, every other offset ignores it (R62, R65). -/
def State.writeReg (off : Nat) (v : Word) (s : State) : State :=
  match off with
  | 0x04 => s.writeStatus v
  | 0x08 => s.writeCtrl v
  | 0x0C => writeCmd v s
  | _ => s

/-- A legal access: 32 bits wide, at an offset that is a multiple of 4 (R63). -/
def legalAccess (off size : Nat) : Bool := size == 4 && off % 4 == 0

/-- A host read at an offset of the window; it changes no register (R63, R65, R287). -/
def State.hostRead (off size : Nat) (s : State) : State :=
  { s with response := some (if legalAccess off size then .data (s.readReg off) else .busError) }

/-- A host write at an offset of the window (R63, R65, R287). -/
def State.hostWrite (off size : Nat) (v : Word) (s : State) : State :=
  if legalAccess off size then { s.writeReg off v with response := some .written }
  else { s with response := some .busError }

/-- The window offset of a bus address: BASE + off with off < 0x4000 (R60). -/
def windowOffset (addr : Nat) : Option Nat :=
  if Config.base ≤ addr ∧ addr - Config.base < Config.windowSize then some (addr - Config.base) else none

/-- A host access turn: a read or a write at its window offset. An access at an address outside the window
does not reach the block, which goes on untouched (R60, R296; log 6). -/
def hostAccess (a : Access) (s : State) : State :=
  match a with
  | .read addr size =>
    match windowOffset addr with
    | some off => s.hostRead off size
    | none => s
  | .write addr size v =>
    match windowOffset addr with
    | some off => s.hostWrite off size v
    | none => s

/-- Reset: every piece of the block's state takes its reset value; CMDQ and an executing command are
discarded (R300). What the host has seen and will do stays. -/
def resetInput (s : State) : State := { State.reset with schedule := s.schedule, response := s.response }

end Sys2Proof.Machine
end

