-- ==== Sys2Proof/Machine/Processor.lean ====
section
/-! DEFINITION. The command processor's step (R99) and the turns of the agents (R67). -/

namespace Sys2Proof.Machine

/-- step(w): decode, then the command's rule, or ERR_ILLEGAL (R99). -/
def runWord (w : Word) (s : State) : Result :=
  match decode w with
  | .ok i => exec i s
  | .error _ => .next (raiseIllegal w s)

/-- One command step; an idle processor keeps all state (R99, R295). -/
def commandStep (s : State) : Result :=
  match fetch s with
  | some (w, t) => runWord w t
  | none => .next s

/-- One turn (log 2): the next of `schedule`, or the command processor when none is left. -/
def takeTurn (s : State) : Result :=
  match s.schedule with
  | [] => commandStep s
  | .command :: r => commandStep { s with schedule := r }
  | .issue :: r => .next (issue { s with schedule := r })
  | .access a :: r => .next (hostAccess a { s with schedule := r })
  | .reset :: r => .next (resetInput { s with schedule := r })

/-- A word as the next one the command processor takes: at the head of CMDQ, in the place of the word
there, with no command executing (log 15). -/
def placeWord (w : Word) (s : State) : State := { s with executing := none, cmdq := w :: s.cmdq.tail }

/-- The command processor's turn next: already so with an empty schedule (log 15). -/
def giveTurn (s : State) : State :=
  match s.schedule with
  | [] => s
  | r => { s with schedule := .command :: r }

end Sys2Proof.Machine
end

