-- ==== Sys2Proof/Machine/Step.lean ====
section
/-! DEFINITION. One step of the machine, and a word placed where the step takes its next command. -/

namespace Sys2Proof.Machine

/-- One step: one turn of one agent (R67, R99). -/
def step (s : State) : Host.Outcome State Fault Refusal := takeTurn s

/-- The state in which the very next step executes the word: it is the oldest word of CMDQ and the
command processor moves next (log 15). -/
def State.withFetchWord (s : State) (nbits w : Nat) : State :=
  giveTurn (placeWord (BitVec.ofNat 32 (w % 2 ^ nbits)) s)

end Sys2Proof.Machine
end

