-- ==== Sys2Proof/Safety.lean ====
section
/-! DEFINITION. What counts as a safe state and a safe step, in the terms the statements use: the bounds
and invariants the rules give the state. Each is a decidable property of plain data. -/

namespace Sys2Proof.Machine

/-- A register value in the legal range of its parameter (R26). -/
abbrev legalValue (p : ParamId) (c : BitVec 18) : Prop := p.lo ≤ c.toNat ∧ c.toNat ≤ p.hi

/-- Every parameter register and every latched configuration register holds a legal value (R26 to
R28). -/
abbrev State.ParamsLegal (s : State) : Prop :=
  (∀ p ∈ ParamId.all, legalValue p (s.stg.get p)) ∧
  (∀ p ∈ ParamId.all, p.num < 0x20 → legalValue p (s.act.get p)) ∧
  legalValue .cfgSampleRate s.fs ∧ legalValue .cfgMaxBlock s.maxblk ∧ legalValue .cfgNumChannels s.nch

/-- The reserved bits of STATUS and CTRL are 0, and so is BUSY's place among the sticky bits (R22,
R24). -/
abbrev State.ReservedZero (s : State) : Prop :=
  s.status &&& ~~~stickyMask = 0 ∧ s.ctrl &&& ~~~0x3#32 = 0

/-- CMDQ and EVQ hold no more than their depths (R23, R36). -/
abbrev State.QueuesBounded (s : State) : Prop :=
  s.cmdq.length ≤ Config.cmdqDepth ∧ s.evq.length ≤ Config.evqDepth

/-- The derived values are the formulas applied to act[] and FS, in every envelope unit too (R29). -/
abbrev State.DerivedCurrent (s : State) : Prop :=
  s.derived = derive s.act s.fs ∧
  ∀ v : Fin Config.numVoices,
    (⟨(s.voice v).aenv.na, (s.voice v).aenv.nd, (s.voice v).aenv.sus, (s.voice v).aenv.nr⟩ : EnvParams) =
      ampParams s.act s.fs ∧
    (⟨(s.voice v).fenv.na, (s.voice v).fenv.nd, (s.voice v).fenv.sus, (s.voice v).fenv.nr⟩ : EnvParams) =
      fltParams s.act s.fs

/-- At most one voice is ACTIVE with any given note number (R247). -/
abbrev State.OneActivePerNote (s : State) : Prop :=
  ∀ v w : Fin Config.numVoices, (s.voice v).state = .active → (s.voice w).state = .active →
    (s.voice v).note = (s.voice w).note → v = w

/-- The noise generators are never 0 (R30, R137). -/
abbrev State.NoiseNonZero (s : State) : Prop :=
  ∀ v : Fin Config.numVoices, (s.voice v).rng0 ≠ 0 ∧ (s.voice v).rng1 ≠ 0

/-- An envelope unit in its ranges: the lengths 80..960000 and levels 0..ONE of R32 and R151, the level
on its segment (R152), the segment of its stage (R150), and a running segment not yet complete. -/
abbrev Env.InRange (e : Env) : Prop :=
  (80 ≤ e.na.toNat ∧ e.na.toNat ≤ 960000 ∧ 80 ≤ e.nd.toNat ∧ e.nd.toNat ≤ 960000 ∧
    80 ≤ e.nr.toNat ∧ e.nr.toNat ≤ 960000 ∧ e.sus.toNat ≤ 16777216) ∧
  (e.start.toNat ≤ 16777216 ∧ e.target.toNat ≤ 16777216 ∧ e.level.toNat ≤ 16777216) ∧
  (1 ≤ e.n.toNat ∧ e.n.toNat ≤ 960000 ∧ e.k.toNat ≤ e.n.toNat) ∧
  (e.level.toNat : Int) = segLevel e.start.toNat e.target.toNat e.k.toNat e.n.toNat ∧
  (e.stage = .idle → e.level = 0) ∧
  (e.stage = .attack → e.target = levelOne ∧ e.k < e.n) ∧
  (e.stage = .decay → e.target = e.sus ∧ e.k < e.n) ∧
  (e.stage = .sustain → e.target = e.sus) ∧
  (e.stage = .release → e.target = 0 ∧ e.k < e.n)

/-- Every envelope unit of every voice is in its ranges. -/
abbrev State.EnvelopesInRange (s : State) : Prop :=
  ∀ v : Fin Config.numVoices, (s.voice v).aenv.InRange ∧ (s.voice v).fenv.InRange

/-- Between commands a voice is IDLE exactly when its amplitude envelope is, ACTIVE while it attacks,
decays or sustains, and RELEASING while it releases (R31, R222, R257). -/
abbrev Voice.LifeMatches (x : Voice) : Prop :=
  (x.state = .idle ↔ x.aenv.stage = .idle) ∧ (x.state = .releasing ↔ x.aenv.stage = .release)

/-- Every voice's state matches its amplitude envelope. -/
abbrev State.LifeMatches (s : State) : Prop :=
  ∀ v : Fin Config.numVoices, (s.voice v).LifeMatches

/-- Every stamp is at most SEQ, and no two sounding voices share a trig_seq (R34, R243). -/
abbrev State.StampsOrdered (s : State) : Prop :=
  (∀ v : Fin Config.numVoices, (s.voice v).trigSeq ≤ s.seq ∧ (s.voice v).freeSeq ≤ s.seq) ∧
  ∀ v w : Fin Config.numVoices, (s.voice v).state ≠ .idle → (s.voice w).state ≠ .idle →
    (s.voice v).trigSeq = (s.voice w).trigSeq → v = w

/-- Every OUTBUF word lies strictly between -ONE and ONE (R37, R262). -/
abbrev State.OutputBounded (s : State) : Prop :=
  ∀ c < Config.numChCap, ∀ j < Config.maxBlockCap,
    -16777215 ≤ (s.outWord c j).toInt ∧ (s.outWord c j).toInt ≤ 16777215

/-- SEQ leaves room for `n` more stamps (R34, I4). -/
abbrev State.SeqRoom (s : State) (n : Nat) : Prop := s.seq.toNat + n < 2 ^ 64

/-- The stamps one RENDER can need: at most one per voice for each event and for the end of the block,
and two for an event that steals. -/
def stampsNeeded (s : State) : Nat := 10 * s.evq.length + 10

/-- Two states that differ at most in the voices and in SEQ: all that note dispatch can change (R220,
R222, R257). -/
abbrev SameButVoices (s t : State) : Prop := t = { s with voices := t.voices, seq := t.seq }

/-- The rank of a voice among the listed voices that meet `p`, counted up to and with itself: the number
of stamps taken when a loop in index order has passed it (R245, R257). -/
def stampRank (p : Fin Config.numVoices → Bool) (vs : List (Fin Config.numVoices))
    (v : Fin Config.numVoices) : Nat :=
  (vs.filter fun w => decide (w ≤ v) && p w).length

/-- LFOBUF[j] of a block rendered from a state after the drain: sinq30 of the phase j increments on, in Q24
(R182, R183). -/
def lfoSample (s : State) (j : Nat) : Int :=
  sinq30 (s.lfoPhase + BitVec.ofNat 32 j * s.derived.lfoInc) / 2 ^ 6

/-- The first frame of frame j's chunk (R191). -/
def chunkStart (j : Nat) : Nat := j / 32 * 32

/-- The frames of frame j's chunk in a block of n frames: 32, fewer in a short last chunk (R191). -/
def chunkLength (n j : Nat) : Nat := min 32 (n - chunkStart j)

/-- The LFO's average over frame j's chunk: the exact sum by the chunk's length, rounded down (R184). -/
def lfoAverage (s : State) (n j : Nat) : Int :=
  ((List.range' (chunkStart j) (chunkLength n j)).map (lfoSample s)).sum / (chunkLength n j : Nat)

/-- Frame j of a voice after the bank and the gain stage: the enabled oscillators' waveforms, each at the
phase j increments on and at its own noise state j steps on, summed and scaled by the gain (R140, R141, R224,
R225). -/
def gainedAt (a : Snapshot) (j : Nat) (x : Voice) : Int :=
  ((if a.osc0Enable = 1 then
      wave (Waveform.ofParam a.osc0Waveform) (x.phase + BitVec.ofNat 32 j * x.inc) (iter xs j x.rng0) else 0) +
    (if a.osc1Enable = 1 then
      wave (Waveform.ofParam a.osc1Waveform) (x.phase + BitVec.ofNat 32 j * x.inc) (iter xs j x.rng1)
      else 0)) * x.gain.toNat / 2 ^ 24

/-- The filter coefficients at frame j: those of the cutoff from the first FENV tick of its chunk and the
LFO's average over it (R191, R194, R196). -/
def coeffsAt (s : State) (n : Nat) (x : Voice) (j : Nat) : Coeffs :=
  coeffs s.fs s.derived.fk
    (cutoff s.ctx (iter Env.tick (chunkStart j + 1) x.fenv).level.toNat (lfoAverage s n j))

/-- A voice's two filter sections before frame j of a block of n frames (R191, R199). -/
def sectionsAt (s : State) (n : Nat) (x : Voice) : Nat → FilterState
  | 0 => ⟨x.f0, x.f1⟩
  | j + 1 => filterNext s.ctx (coeffsAt s n x j) (gainedAt s.act j x) (sectionsAt s n x j)

/-- out[j] of a voice in a block of n frames: the filter's output by the level of AENV's tick j + 1 (R223,
R226, R227). -/
def voiceSample (s : State) (n : Nat) (x : Voice) (j : Nat) : Int :=
  filterOut s.ctx (coeffsAt s n x j) (gainedAt s.act j x) (sectionsAt s n x j) *
    (iter Env.tick (j + 1) x.aenv).level.toNat / 2 ^ 24

/-- MIX[j] of a block of n frames: the exact sum of the frame's samples over the voices that are not IDLE
(R254), for a state after the drain. -/
def mixSample (n j : Nat) (s : State) : Int :=
  ((voiceIds.filter fun v => (s.voice v).state != .idle).map fun v => voiceSample s n (s.voice v) j).sum

/-- The words of several assembly lines, none where one of them is rejected (R92, R93). -/
def assembleAll : List Asm → Option (List Word)
  | [] => some []
  | line :: lines =>
    match assemble line, assembleAll lines with
    | some ws, some rest => some (ws ++ rest)
    | _, _ => none

/-- R281's list of illegal command words, in its own terms. -/
def IllegalWord (w : Word) : Prop :=
  7 ≤ field w 31 24 ∨
  (field w 31 24 ≤ 1 ∧ field w 23 0 ≠ 0) ∨
  (field w 31 24 = 2 ∧ ∀ p : ParamId, p.num ≠ field w 23 18) ∨
  (field w 31 24 = 3 ∧ (field w 23 15 ≠ 0 ∨ field w 7 7 ≠ 0)) ∨
  (field w 31 24 = 4 ∧ (field w 23 17 ≠ 0 ∨ field w 15 15 ≠ 0 ∨ field w 7 7 ≠ 0)) ∨
  (field w 31 24 = 5 ∧ (field w 23 17 ≠ 0 ∨ field w 15 0 ≠ 0)) ∨
  (field w 31 24 = 6 ∧ field w 23 16 ≠ 0)

/-- What one SET_PARAM row does, for every value and state: the register takes `stored`, every other
staging register keeps its value, ERR_PARAM_CLAMP is set exactly when the value was altered, and nothing
else changes (R102). -/
def StoresParam (i : BitVec 18 → Instr) (p : ParamId) (stored : Nat → Nat) : Prop :=
  ∀ (val : BitVec 18) (s : State), ∃ t, exec (i val) s = .next t ∧
    (t.stg.get p).toNat = stored val.toNat ∧ (∀ q, q ≠ p → t.stg.get q = s.stg.get q) ∧
    t = { s with
      stg := t.stg
      status := if stored val.toNat = val.toNat then s.status else s.status ||| 0x8#32 }

/-- What one note-event command does: the event is appended to EVQ, or dropped with ERR_EVQ_OVF when EVQ
holds 128 entries, and nothing else changes (R106, R283). -/
def QueuesEvent (i : Instr) (e : Event) : Prop :=
  ∀ s : State,
    (s.evq.length < 128 → exec i s = .next { s with evq := s.evq ++ [e] }) ∧
    (s.evq.length = 128 → exec i s = .next { s with status := s.status ||| 0x10#32 })

/-- The number of voices that are not IDLE. -/
def soundingCount (s : State) : Nat := (voiceIds.filter fun v => !s.isIdle v).length

/-- The reserved offsets of R61, the reserved ids' stg[] and act[] slots, and the views of the voices that
do not exist (R43, R62). -/
def ReservedOffset (off : Nat) : Prop :=
  (0x030 ≤ off ∧ off < 0x100) ∨
  (0x100 ≤ off ∧ off < 0x200 ∧ ∀ p : ParamId, off ≠ 0x100 + 4 * p.num) ∨
  (0x200 ≤ off ∧ off < 0x300 ∧ ∀ p : ParamId, off ≠ 0x200 + 4 * p.num) ∨
  (0x300 ≤ off ∧ off < 0x400) ∨
  (0x400 + 0x20 * Config.numVoices ≤ off ∧ off < 0x1000) ∨
  (0x3000 ≤ off ∧ off < 0x4000)

end Sys2Proof.Machine
end

