-- ==== Sys2Proof/Certificates/Slice0/Obligations.lean ====
section
/-! DEFINITION. The statements for the provers, each a proposition about the model that formalises rules of
spec/, grouped as the rules are: encoding, commands, dispatch, the block, the datapaths, the window, reset,
and what every step keeps. -/

section Statements

open Sys2Proof Sys2Proof.Machine

/-! ### Encoding -/

/-- Decoding an encoded command gives it back, for every command and every operand value (R81, R91). -/
def Obligations.DecodeUndoesEncode : Prop := ∀ i : Instr, decode (encode i) = .ok i

/-- Every word that decodes to a command is that command's word: each command has one word (R80, R94). -/
def Obligations.EncodeUndoesDecode : Prop :=
  ∀ (w : Word) (i : Instr), decode w = .ok i → encode i = w

/-- R94: a word decodes to a command exactly when it matches that command's row, matches at most one row,
and is rejected exactly when it matches none; then the command's rule executes, or the word is illegal. -/
def Obligations.DecodeFollowsTable : Prop :=
  ∀ w : Word,
    (decode w = .ok .nop ↔ w &&& 0xFFFFFFFF#32 = 0x00000000#32) ∧
    (decode w = .ok .prepare ↔ w &&& 0xFFFFFFFF#32 = 0x01000000#32) ∧
    ((∃ p v, decode w = .ok (setParamInstr p v)) ↔
      w &&& 0xFF000000#32 = 0x02000000#32 ∧ ∃ p : ParamId, p.num = field w 23 18) ∧
    ((∃ n v, decode w = .ok (.noteOn n v)) ↔ w &&& 0xFFFF8080#32 = 0x03000000#32) ∧
    ((∃ h n v, decode w = .ok (.noteOff h n v)) ↔ w &&& 0xFFFE8080#32 = 0x04000000#32) ∧
    ((∃ h, decode w = .ok (.allNotesOff h)) ↔ w &&& 0xFFFEFFFF#32 = 0x05000000#32) ∧
    ((∃ n, decode w = .ok (.render n)) ↔ w &&& 0xFFFF0000#32 = 0x06000000#32) ∧
    (decodeRows.filter fun r => r.accepts w).length ≤ 1 ∧
    ((∃ e, decode w = .error e) ↔ ∀ r ∈ decodeRows, r.accepts w = false) ∧
    ∀ s : State,
      (∀ i, decode w = .ok i → runWord w s = exec i s) ∧
      ∀ e, decode w = .error e →
        runWord w s = .next { s with status := s.status ||| 0x4#32, lastIllegal := w }

/-- R91: every operand of a decoded command is its field of the word, taken as is. -/
def Obligations.OperandsAreTheirFields : Prop :=
  ∀ w : Word,
    (∀ p v, decode w = .ok (setParamInstr p v) →
      p.num = (w.extractLsb' 18 6).toNat ∧ v = w.extractLsb' 0 18) ∧
    (∀ n v, decode w = .ok (.noteOn n v) → n = w.extractLsb' 8 7 ∧ v = w.extractLsb' 0 7) ∧
    (∀ h n v, decode w = .ok (.noteOff h n v) →
      h = w.getLsbD 16 ∧ n = w.extractLsb' 8 7 ∧ v = w.extractLsb' 0 7) ∧
    (∀ h, decode w = .ok (.allNotesOff h) → h = w.getLsbD 16) ∧
    ∀ n, decode w = .ok (.render n) → n = w.extractLsb' 0 16

/-- Words written out from the spec's encodings and examples decode to what they stand for (R82 to R88,
R101 to R107). -/
def Obligations.SpecWordsDecode : Prop :=
  decode 0x00000000#32 = .ok .nop ∧
  decode 0x01000000#32 = .ok .prepare ∧
  decode 0x02000003#32 = .ok (.setParamAmpAttack 3#18) ∧
  decode 0x02400007#32 = .ok (.setParamOsc0Waveform 7#18) ∧
  decode 0x02840040#32 = .ok (.setParamCfgMaxBlock 64#18) ∧
  decode 0x0300457F#32 = .ok (.noteOn 69#7 127#7) ∧
  decode 0x04014500#32 = .ok (.noteOff true 69#7 0#7) ∧
  decode 0x05010000#32 = .ok (.allNotesOff true) ∧
  decode 0x06000020#32 = .ok (.render 32#16) ∧
  decode 0x07000000#32 = .error .reservedOpcode ∧
  decode 0x0300C57F#32 = .error .mustBeZero ∧
  decode 0x023C0000#32 = .error .reservedParam

/-- R92, R93: the assembler takes a command exactly when its operands fit their fields, and answers its word
with the operands written, which decodes to that command; a pseudo-command gives the words of its expansion,
and is rejected exactly when a line of its expansion is. (That an oscillator number must exist is log 18.) -/
def Obligations.AssemblerNeverTruncates : Prop :=
  assemble .nop = some [0x00000000#32] ∧ assemble .prepare = some [0x01000000#32] ∧
  assemble (.allNotesOff false) = some [0x05000000#32] ∧
  assemble (.allNotesOff true) = some [0x05010000#32] ∧
  (∀ id val : Nat, assemble (.setParam id val) =
    if id ≤ 63 ∧ val ≤ 262143 then some [BitVec.ofNat 32 (0x02000000 + id * 2 ^ 18 + val)] else none) ∧
  (∀ note vel : Nat, assemble (.noteOn note vel) =
    if note ≤ 127 ∧ vel ≤ 127 then some [BitVec.ofNat 32 (0x03000000 + note * 2 ^ 8 + vel)] else none) ∧
  (∀ (note vel : Nat) (hard : Bool), assemble (.noteOff note vel hard) =
    if note ≤ 127 ∧ vel ≤ 127 then
      some [BitVec.ofNat 32 (0x04000000 + (if hard then 2 ^ 16 else 0) + note * 2 ^ 8 + vel)]
    else none) ∧
  (∀ n : Nat, assemble (.render n) =
    if n ≤ 65535 then some [BitVec.ofNat 32 (0x06000000 + n)] else none) ∧
  (∀ (p : ParamId) (val : Nat), val ≤ 262143 → ∃ w, assemble (.setParam p.num val) = some [w] ∧
    decode w = .ok (setParamInstr p (BitVec.ofNat 18 val))) ∧
  (∀ note vel : Nat, note ≤ 127 → vel ≤ 127 → ∀ hard : Bool,
    (∃ w, assemble (.noteOn note vel) = some [w] ∧
      decode w = .ok (.noteOn (BitVec.ofNat 7 note) (BitVec.ofNat 7 vel))) ∧
    ∃ w, assemble (.noteOff note vel hard) = some [w] ∧
      decode w = .ok (.noteOff hard (BitVec.ofNat 7 note) (BitVec.ofNat 7 vel))) ∧
  (∀ n : Nat, n ≤ 65535 → ∃ w, assemble (.render n) = some [w] ∧
    decode w = .ok (.render (BitVec.ofNat 16 n))) ∧
  (∀ a d s r : Nat,
    assemble (.setAmpAdsr a d s r) =
      assembleAll [.setParam 0x00 a, .setParam 0x01 d, .setParam 0x02 s, .setParam 0x03 r] ∧
    assemble (.setFltAdsr a d s r) =
      assembleAll [.setParam 0x04 a, .setParam 0x05 d, .setParam 0x06 s, .setParam 0x07 r]) ∧
  (∀ i kind : Nat,
    assemble (.setWave i kind) = (if i < 2 then assembleAll [.setParam (0x10 + i) kind] else none) ∧
    assemble (.oscOn i) = (if i < 2 then assembleAll [.setParam (0x18 + i) 1] else none) ∧
    assemble (.oscOff i) = (if i < 2 then assembleAll [.setParam (0x18 + i) 0] else none)) ∧
  (∀ cutoff res mode : Nat, assemble (.setFilter cutoff res mode) =
    assembleAll [.setParam 0x08 cutoff, .setParam 0x09 res, .setParam 0x0A mode]) ∧
  (∀ freq amount : Nat,
    assemble (.setLfo freq amount) = assembleAll [.setParam 0x0B freq, .setParam 0x0C amount]) ∧
  (∀ enable amount : Nat,
    assemble (.setFenv enable amount) = assembleAll [.setParam 0x0D enable, .setParam 0x0E amount]) ∧
  (∀ sr mb nch : Nat, assemble (.configure sr mb nch) =
    assembleAll [.setParam 0x20 sr, .setParam 0x21 mb, .setParam 0x22 nch, .prepare]) ∧
  assemble .panic = assembleAll [.allNotesOff true] ∧
  assemble .releaseAll = assembleAll [.allNotesOff false]

/-- R281: the listed words, and no others, are illegal; executing one sets ERR_ILLEGAL and LAST_ILLEGAL and
changes nothing else; LAST_ILLEGAL reads 0 after reset, and a step changes it only to an illegal word or, at
a reset turn, to 0; no legal command and no host access touches it, and no CMD write is checked. -/
def Obligations.IllegalWordOnlyRecords : Prop :=
  (∀ w : Word,
    (IllegalWord w ↔ ∃ e, decode w = .error e) ∧
    (IllegalWord w → ∀ s : State,
      runWord w s = .next { s with status := s.status ||| 0x4#32, lastIllegal := w }) ∧
    ∀ s : State, s.cmdq.length < 16 → writeCmd w s = { s with cmdq := s.cmdq ++ [w] }) ∧
  State.reset.readReg 0x014 = 0 ∧ State.reset.lastIllegal = 0 ∧
  (∀ s t : State, step s = .next t → t.lastIllegal ≠ s.lastIllegal →
    IllegalWord t.lastIllegal ∨ t.lastIllegal = 0 ∧ ∃ r, s.schedule = .reset :: r) ∧
  (∀ s t : State, step s = .next t → s.lastIllegal ≠ 0 → t.lastIllegal = 0 →
    ∃ r, s.schedule = .reset :: r) ∧
  (∀ (i : Instr) (s t : State), exec i s = .next t → t.lastIllegal = s.lastIllegal) ∧
  ∀ (s : State) (off size : Nat) (v : Word), (s.hostWrite off size v).lastIllegal = s.lastIllegal ∧
    (s.hostRead off size).lastIllegal = s.lastIllegal

/-! ### Commands -/

/-- R100: NOP is the word 0 and changes no state; a word with OP = 0x00 and a bit of w[23:0] set is illegal;
a NOP waiting in CMDQ keeps BUSY at 1 until it has executed. -/
def Obligations.NopChangesNothing : Prop :=
  (∀ s : State, exec .nop s = .next s) ∧
  (∀ w : Word, decode w = .ok .nop ↔ w = 0x00000000#32) ∧
  (∀ w : Word, field w 31 24 = 0 → field w 23 0 ≠ 0 → decode w = .error .mustBeZero) ∧
  ∀ (s : State) (q : List Word), s.executing = none → s.cmdq = 0x00000000#32 :: q →
    s.busy = true ∧ commandStep s = .next { s with cmdq := q }

/-- R101: PREPARE, the word 0x01000000, latches the three configuration registers, returns every voice to its reset state with
the envelope lengths and levels of the staged parameters, zeroes SEQ, the LFO phase and OUTBUF, empties EVQ,
commits, and keeps everything else. -/
def Obligations.PrepareResetsEngine : Prop :=
  decode 0x01000000#32 = .ok .prepare ∧ ∀ s : State, ∃ t, exec .prepare s = .next t ∧
    t = { s with
      fs := s.stg.sampleRate
      maxblk := s.stg.maxBlock
      nch := s.stg.numChannels
      act := s.stg.snap
      derived := derive s.stg.snap s.stg.sampleRate
      voices := t.voices
      seq := 0
      lfoPhase := 0
      evq := []
      outbuf := [] } ∧
    ∀ v : Fin Config.numVoices, ∃ a f : Env,
      t.voice v =
        { state := .idle, note := 0, vel := 0, gain := 0, inc := 0, phase := 0
          rng0 := 0x6D2B79F5#32 ^^^ BitVec.ofNat 32 (2 * v.val)
          rng1 := 0x6D2B79F5#32 ^^^ BitVec.ofNat 32 (2 * v.val + 1)
          aenv := a, fenv := f, f0 := ⟨0, 0⟩, f1 := ⟨0, 0⟩, trigSeq := 0, freeSeq := 0 } ∧
      (∀ e ∈ [a, f], e.stage = .idle ∧ e.level = 0 ∧ e.start = 0 ∧ e.target = 0 ∧ e.k = 0 ∧ e.n = 1) ∧
      (⟨a.na, a.nd, a.sus, a.nr⟩ : EnvParams) = ampParams s.stg.snap s.stg.sampleRate ∧
      (⟨f.na, f.nd, f.sus, f.nr⟩ : EnvParams) = fltParams s.stg.snap s.stg.sampleRate

/-- R102: each of the 22 SET_PARAM rows stores its value clamped to the legal range of its id, or 0 for a
waveform above 4, sets ERR_PARAM_CLAMP exactly when that alters the value, and changes nothing else; ID and
VAL are w[23:18] and w[17:0]; a reserved id makes the word illegal. -/
def Obligations.SetParamStoresClamped : Prop :=
  (StoresParam .setParamAmpAttack .ampAttack fun v => min 5000 (max 10 v)) ∧
  (StoresParam .setParamAmpDecay .ampDecay fun v => min 5000 (max 10 v)) ∧
  (StoresParam .setParamAmpSustain .ampSustain fun v => min 1000 v) ∧
  (StoresParam .setParamAmpRelease .ampRelease fun v => min 5000 (max 10 v)) ∧
  (StoresParam .setParamFltAttack .fltAttack fun v => min 5000 (max 10 v)) ∧
  (StoresParam .setParamFltDecay .fltDecay fun v => min 5000 (max 10 v)) ∧
  (StoresParam .setParamFltSustain .fltSustain fun v => min 1000 v) ∧
  (StoresParam .setParamFltRelease .fltRelease fun v => min 5000 (max 10 v)) ∧
  (StoresParam .setParamFilterCutoff .filterCutoff fun v => min 20000 (max 20 v)) ∧
  (StoresParam .setParamFilterResonance .filterResonance fun v => min 1000 v) ∧
  (StoresParam .setParamFilterMode .filterMode fun v => min 5 v) ∧
  (StoresParam .setParamLfoFreq .lfoFreq fun v => min 2000 (max 10 v)) ∧
  (StoresParam .setParamLfoAmount .lfoAmount fun v => min 1000 v) ∧
  (StoresParam .setParamFenvEnable .fenvEnable fun v => min 1 v) ∧
  (StoresParam .setParamFenvAmount .fenvAmount fun v => min 1000 v) ∧
  (StoresParam .setParamOsc0Waveform .osc0Waveform fun v => if v ≤ 4 then v else 0) ∧
  (StoresParam .setParamOsc1Waveform .osc1Waveform fun v => if v ≤ 4 then v else 0) ∧
  (StoresParam .setParamOsc0Enable .osc0Enable fun v => min 1 v) ∧
  (StoresParam .setParamOsc1Enable .osc1Enable fun v => min 1 v) ∧
  (StoresParam .setParamCfgSampleRate .cfgSampleRate fun v => min 192000 (max 8000 v)) ∧
  (StoresParam .setParamCfgMaxBlock .cfgMaxBlock fun v => min 1024 (max 1 v)) ∧
  (StoresParam .setParamCfgNumChannels .cfgNumChannels fun v => min 2 (max 1 v)) ∧
  (∀ (w : Word) (p : ParamId), w.extractLsb' 24 8 = 2 → (w.extractLsb' 18 6).toNat = p.num →
    decode w = .ok (setParamInstr p (w.extractLsb' 0 18))) ∧
  ∀ (w : Word) (s : State), field w 31 24 = 2 → (∀ p : ParamId, p.num ≠ field w 23 18) →
    runWord w s = .next { s with status := s.status ||| 0x4#32, lastIllegal := w }

/-- R106, R283: NOTE_ON, NOTE_OFF and ALL_NOTES_OFF append their event to EVQ, or drop it with ERR_EVQ_OVF
when EVQ holds 128 entries; EVQ_LEVEL reads the number of entries. (That an entry is the decoded event, where
R106 appends the word, is the model's, log 8.) -/
def Obligations.NoteCommandsQueueEvents : Prop :=
  (∀ note vel, QueuesEvent (.noteOn note vel) (.noteOn note vel)) ∧
  (∀ hard note vel, QueuesEvent (.noteOff hard note vel) (.noteOff hard note vel)) ∧
  (∀ hard, QueuesEvent (.allNotesOff hard) (.allNotesOff hard)) ∧
  ∀ s : State, s.evq.length ≤ 128 → (s.readReg 0x018).toNat = s.evq.length

/-- RENDER completes from every state with room for its stamps (log 1): the snapshot is committed, EVQ
emptied, the LFO advanced by the frames rendered, BLOCK_COUNT and DONE updated, ERR_RENDER_CLAMP set exactly
when NFR > MAXBLK, and nothing outside the voices, SEQ and OUTBUF changes beside (R107, R240, R258, R284). -/
def Obligations.RenderCompletes : Prop :=
  ∀ (s : State) (nfr : BitVec 16), s.SeqRoom (stampsNeeded s) →
    ∃ t, exec (.render nfr) s = .next t ∧ s.seq ≤ t.seq ∧
      t = { s with
        status := s.status ||| if s.maxblk.toNat < nfr.toNat then 0x22#32 else 0x02#32
        blockCount := s.blockCount + 1
        act := s.stg.snap
        derived := derive s.stg.snap s.fs
        voices := t.voices
        seq := t.seq
        lfoPhase := s.lfoPhase +
          BitVec.ofNat 32 (min nfr.toNat s.maxblk.toNat) * lfoIncOf s.stg.snap.lfoFreq s.fs
        evq := []
        outbuf := t.outbuf }

/-- R27, R28, R68: act[] changes only at RENDER and PREPARE, and is then the staged snapshot; FS, MAXBLK and
NCH change only at PREPARE; stg[] changes only at SET_PARAM. -/
def Obligations.ParametersChangeOnlyAtTheirCommands : Prop :=
  ∀ (i : Instr) (s t : State), exec i s = .next t →
    (t.act ≠ s.act → t.act = s.stg.snap ∧ (i = .prepare ∨ ∃ n, i = .render n)) ∧
    ((t.fs ≠ s.fs ∨ t.maxblk ≠ s.maxblk ∨ t.nch ≠ s.nch) → i = .prepare) ∧
    (t.stg ≠ s.stg → ∃ p v, i = setParamInstr p v)

/-- R41: no command touches the order of later commands, and none writes CTRL or the host's side (the model's
own schedule and response, log 2 and log 7). -/
def Obligations.CommandsLeaveFifoAndHostAlone : Prop :=
  ∀ (i : Instr) (s t : State), exec i s = .next t →
    t.cmdq = s.cmdq ∧ t.executing = s.executing ∧ t.ctrl = s.ctrl ∧ t.schedule = s.schedule ∧
      t.response = s.response

/-- R288: one command step raises at most one error condition, sets no other STATUS bit but DONE with a
RENDER, and clears none. -/
def Obligations.OneConditionPerCommandStep : Prop :=
  ∀ (w : Word) (s t : State), runWord w s = .next t →
    (∀ e, decode w = .error e → t = { s with status := s.status ||| 0x04#32, lastIllegal := w }) ∧
    (∀ p v, decode w = .ok (setParamInstr p v) →
      t.status = s.status ∨ t.status = s.status ||| 0x08#32) ∧
    (∀ i, decode w = .ok i →
      ((∃ n v, i = .noteOn n v) ∨ (∃ h n v, i = .noteOff h n v) ∨ ∃ h, i = .allNotesOff h) →
      t.status = s.status ∨ t.status = s.status ||| 0x10#32) ∧
    (∀ n, decode w = .ok (.render n) →
      t.status = s.status ||| 0x02#32 ∨ t.status = s.status ||| 0x22#32) ∧
    ((decode w = .ok .nop ∨ decode w = .ok .prepare) → t.status = s.status)

/-! ### Note dispatch and the voices -/

/-- R241 to R243, R220: a dispatched note-on always finds a voice. It releases the voice that plays the
note, takes the IDLE voice with the smallest free_seq and index, or else hard-stops the voice with the
smallest trig_seq among the RELEASING ones, or among all when none is RELEASING, and starts the note there
with the next stamp; every other voice keeps its value. (SEQ's last values are refused, log 1.) -/
def Obligations.NoteOnAlwaysTakesVoice : Prop :=
  ∀ (s : State) (m vel : BitVec 7), s.SeqRoom 2 →
    ∃ (r t : State) (v : Fin Config.numVoices), noteOff m false s = .next r ∧
      (∀ w, r.voice w = if (s.voice w).state = .active ∧ (s.voice w).note = m then (s.voice w).released
        else s.voice w) ∧
      noteOn m vel s = .next t ∧ SameButVoices s t ∧
      (∀ w, w ≠ v → t.voice w = r.voice w) ∧
      (t.voice v).trigSeq = t.seq ∧
      (if (r.voice v).state = .idle then
        t.seq = s.seq + 1 ∧ (t.voice v).freeSeq = (r.voice v).freeSeq ∧
        ∀ w, (r.voice w).state = .idle → (r.voice v).freeSeq ≤ (r.voice w).freeSeq ∧
          ((r.voice w).freeSeq = (r.voice v).freeSeq → v ≤ w)
      else
        t.seq = s.seq + 2 ∧ (t.voice v).freeSeq = s.seq + 1 ∧
        (∀ w, (r.voice w).state ≠ .idle) ∧
        ((r.voice v).state = .releasing ∨ ∀ w, (r.voice w).state ≠ .releasing) ∧
        ∀ w, ((r.voice w).state = .releasing ∨ ∀ x, (r.voice x).state ≠ .releasing) →
          (r.voice v).trigSeq ≤ (r.voice w).trigSeq) ∧
      ∀ x, x = t.voice v →
        x.state = .active ∧ x.note = m ∧ x.vel = vel ∧ x.gain.toNat = vel.toNat * 5033165 / 127 ∧
        x.phase = 0 ∧ x.inc = wrap32 (fdiv (shl (noteRom m.toNat) 16) s.fs.toNat) ∧
        x.f0 = ⟨0, 0⟩ ∧ x.f1 = ⟨0, 0⟩ ∧ x.rng0 = (s.voice v).rng0 ∧ x.rng1 = (s.voice v).rng1 ∧
        x.aenv = { (r.voice v).aenv with
          stage := .attack, level := 0, start := 0, target := 16777216, k := 0, n := (r.voice v).aenv.na } ∧
        x.fenv = { (r.voice v).fenv with
          stage := .attack, level := 0, start := 0, target := 16777216, k := 0, n := (r.voice v).fenv.na }

/-- R248: a dispatched note-on leaves one more voice sounding, until all NUM_VOICES sound; then their count
stays. -/
def Obligations.NoteOnFillsPool : Prop :=
  ∀ (s t : State) (m vel : BitVec 7), noteOn m vel s = .next t →
    soundingCount t = min 10 (soundingCount s + 1)

/-- R244: a note-off stops exactly the ACTIVE voice with its note, hard or with tail-off; without a match
nothing changes. (The room for a stamp is log 1.) -/
def Obligations.NoteOffStopsThePlayingVoice : Prop :=
  ∀ (s : State) (m : BitVec 7), s.OneActivePerNote → s.SeqRoom 1 →
    ((∀ v, ¬((s.voice v).state = .active ∧ (s.voice v).note = m)) →
      noteOff m false s = .next s ∧ noteOff m true s = .next s) ∧
    ∀ v, (s.voice v).state = .active → (s.voice v).note = m →
      noteOff m false s = .next (s.setVoice v { s.voice v with
        aenv := (s.voice v).aenv.gateOff, fenv := (s.voice v).fenv.gateOff, state := .releasing }) ∧
      noteOff m true s = .next (State.setVoice { s with seq := s.seq + 1 } v { s.voice v with
        aenv := (s.voice v).aenv.hardReset, fenv := (s.voice v).fenv.hardReset, state := .idle
        freeSeq := s.seq + 1 })

/-- R245: the panic stop leaves every voice IDLE, each sounding voice hard-stopped with the stamps in index
order; without H every ACTIVE voice is released and every other keeps its value. (The room for stamps is
log 1.) -/
def Obligations.AllNotesOffStopsEveryVoice : Prop :=
  ∀ s : State,
    (s.SeqRoom 10 → ∃ t, allOff true s = .next t ∧ SameButVoices s t ∧
      t.seq.toNat = s.seq.toNat + soundingCount s ∧
      ∀ v, (t.voice v).state = .idle ∧
        t.voice v = if (s.voice v).state = .idle then s.voice v else { s.voice v with
          aenv := (s.voice v).aenv.hardReset, fenv := (s.voice v).fenv.hardReset, state := .idle
          freeSeq := s.seq + BitVec.ofNat 64 (stampRank (fun w => !s.isIdle w) voiceIds v) }) ∧
    ∃ t, allOff false s = .next t ∧ t = { s with voices := t.voices } ∧
      ∀ v, t.voice v = if (s.voice v).state = .active then { s.voice v with
          aenv := (s.voice v).aenv.gateOff, fenv := (s.voice v).fenv.gateOff, state := .releasing }
        else s.voice v

/-- R257: the end of a block frees exactly the sounding voices whose amplitude envelope is IDLE, with the
stamps in index order. (The room for stamps is log 1.) -/
def Obligations.FinishedVoicesAreFreed : Prop :=
  ∀ s : State, s.SeqRoom 10 → ∃ t, freeFinished s = .next t ∧ SameButVoices s t ∧
    ∀ v, t.voice v =
      if (s.voice v).state ≠ .idle ∧ (s.voice v).aenv.stage = .idle then { s.voice v with
        state := .idle
        freeSeq := s.seq + BitVec.ofNat 64 (stampRank
          (fun w => (s.voice w).state != .idle && (s.voice w).aenv.stage == .idle) voiceIds v) }
      else s.voice v

/-! ### The block -/

/-- R254, R256, R261: a RENDER of n frames writes the limited sum of the sounding voices to frames 0..n-1
of every channel below NCH, zeros when no voice sounds after the drain, and every other byte of OUTBUF keeps
its value. A voice's sample is voiceSample: its enabled oscillators summed, the gain, the filter with its
chunk's coefficients, the amplitude level (R140, R141, R184, R191, R223 to R227). -/
def Obligations.RenderWritesLimitedSum : Prop :=
  ∀ (s t : State) (nfr : BitVec 16), s.ParamsLegal → exec (.render nfr) s = .next t →
    ∃ u n, drainEvq (commit (clampFrames nfr s)) = .next u ∧ n = min nfr.toNat s.maxblk.toNat ∧
      (∀ c < s.nch.toNat, ∀ j < n, t.outWord c j = BitVec.ofInt 32 (limit (mixSample n j u))) ∧
      ((∀ v, (u.voice v).state = .idle) → ∀ j < n, mixSample n j u = 0 ∧
        ∀ c < s.nch.toNat, t.outWord c j = 0) ∧
      ∀ a, (∀ c < s.nch.toNat, a < 0x1000 + 0x1000 * c ∨ 0x1000 + 0x1000 * c + 4 * n ≤ a) →
        t.outbuf.read a = s.outbuf.read a

/-- R259: RENDER 0 commits, dispatches the events and counts the block; no voice, phase, LFO or OUTBUF word
moves, and no voice is freed. -/
def Obligations.ZeroLengthBlock : Prop :=
  ∀ s t : State, s.outbuf.wf → s.LifeMatches → exec (.render 0) s = .next t →
    ∃ u, drainEvq (commit s) = .next u ∧ u.outbuf = s.outbuf ∧ u.lfoPhase = s.lfoPhase ∧
      t = { u with blockCount := s.blockCount + 1, status := s.status ||| 0x2#32 }

/-- Where a RENDER of n frames leaves each voice: an IDLE voice as the dispatch left it (R228), any other
with its phase and noise advanced n times, both envelopes ticked n times and its filter sections n samples on
(R224, R226, R227), F[1] unmoved in the 12 dB/oct modes (R200), and IDLE when its amplitude envelope has
finished, with a new free_seq (R257). -/
def Obligations.RenderAdvancesSoundingVoices : Prop :=
  ∀ (s t : State) (nfr : BitVec 16), exec (.render nfr) s = .next t →
    ∃ u n, drainEvq (commit (clampFrames nfr s)) = .next u ∧ n = min nfr.toNat s.maxblk.toNat ∧
      ∀ v, if (u.voice v).state = .idle then t.voice v = u.voice v else
        t.voice v = { u.voice v with
          phase := (u.voice v).phase + BitVec.ofNat 32 n * (u.voice v).inc
          rng0 := iter xs n (u.voice v).rng0
          rng1 := iter xs n (u.voice v).rng1
          aenv := iter Env.tick n (u.voice v).aenv
          fenv := iter Env.tick n (u.voice v).fenv
          f0 := (sectionsAt u n (u.voice v) n).f0
          f1 := (sectionsAt u n (u.voice v) n).f1
          state := if (t.voice v).aenv.stage = .idle then .idle else (u.voice v).state
          freeSeq := (t.voice v).freeSeq } ∧
        (if (t.voice v).aenv.stage = .idle then
          u.seq < (t.voice v).freeSeq ∧ (t.voice v).freeSeq ≤ t.seq
        else (t.voice v).freeSeq = (u.voice v).freeSeq) ∧
        (u.act.filterMode.toNat < 3 → (t.voice v).f1 = (u.voice v).f1)

/-! ### The datapaths -/

/-- R255: the limiter passes [-K95, K95], is odd and non-decreasing, stays below ONE in magnitude, and has
the listed sample values. -/
def Obligations.LimiterShape : Prop :=
  (∀ x : Int, x.natAbs ≤ 15938355 → limit x = x) ∧
  (∀ x : Int, 15938355 < x →
    limit x = 15938355 + 838861 * tanhq24 (20 * (x.toNat - 15938355)) / 2 ^ 24) ∧
  (∀ x : Int, limit (-x) = -limit x) ∧
  (∀ x y : Int, x ≤ y → limit x ≤ limit y) ∧
  (∀ x : Int, -16777215 ≤ limit x ∧ limit x ≤ 16777215) ∧
  [15938356, 16000000, 16777216, 17000000, 18000000, 20000000, 33554432, -16777216].map limit =
    [15938355, 15999875, 16577226, 16653516, 16764997, 16777111, 16777215, -16577226]

/-- R133 to R136: each periodic waveform's formula, its range, and its values at the quarter turns. -/
def Obligations.WaveformRanges : Prop :=
  (∀ p r : Word, wave .sine p r = sinq30 (p + 0x80000000#32) / 64 ∧
    -16777216 ≤ wave .sine p r ∧ wave .sine p r ≤ 16777216) ∧
  (∀ p r : Word, wave .square p r = if 2 ^ 31 ≤ p.toNat then 16777216 else -16777216) ∧
  (∀ p r : Word, wave .saw p r = (p.toNat / 128 : Nat) - 16777216 ∧ -16777216 ≤ wave .saw p r ∧
    wave .saw p r ≤ 16777215) ∧
  (∀ p r : Word,
    wave .triangle p r = 2 * |((p + 0x80000000#32).toNat / 128 : Nat) - (16777216 : Int)| - 16777216 ∧
    -16777216 ≤ wave .triangle p r ∧ wave .triangle p r ≤ 16777216) ∧
  ∀ r : Word, [0x00000000#32, 0x40000000#32, 0x80000000#32, 0xC0000000#32].map (wave .sine · r) =
      [0, -16777216, 0, 16777216] ∧
    [0x00000000#32, 0x40000000#32, 0x80000000#32, 0xC0000000#32].map (wave .saw · r) =
      [-16777216, -8388608, 0, 8388608] ∧
    [0x00000000#32, 0x40000000#32, 0x80000000#32, 0xC0000000#32].map (wave .triangle · r) =
      [-16777216, 0, 16777216, 0]

/-- R137: the noise generator is the three shifts 13, 17 and 5, and maps a state that is not 0 to one that is
not 0; every seed is its formula and not 0; and the noise sample lies in [-ONE, ONE - 1]. -/
def Obligations.NoiseNeverSticksAtZero : Prop :=
  (∀ r a b : Word, a = r ^^^ (r <<< 13) → b = a ^^^ (a >>> 17) → xs r = b ^^^ (b <<< 5)) ∧
  (∀ r : Word, r ≠ 0 → xs r ≠ 0) ∧
  (∀ v < Config.numVoices, ∀ i < Config.numOsc,
    seed v i = 0x6D2B79F5#32 ^^^ BitVec.ofNat 32 (v * 2 + i) ∧ seed v i ≠ 0) ∧
  ∀ p r : Word, wave .noise p r = (r.toNat / 128 : Nat) - 16777216 ∧ -16777216 ≤ wave .noise p r ∧
    wave .noise p r ≤ 16777215

/-- R131, R140, R141: the selectors name the waveforms, and a bank sample is the sum of the enabled
oscillators' waveforms at the phase before the tick. R224, R225: frame j of the gain stage is that sum j ticks
on, scaled by the gain; a bank sample lies in ±2 ONE, and after the gain stage of a note in ±10066330; a note
of velocity 0 is silent through the whole chain (R221). -/
def Obligations.GainLeavesHeadroom : Prop :=
  ([0, 1, 2, 3, 4] : List (BitVec 18)).map Waveform.ofParam = [.sine, .square, .saw, .triangle, .noise] ∧
  (∀ (a : Snapshot) (x : Voice), bankSample a x =
    (if a.osc0Enable = 1 then wave (Waveform.ofParam a.osc0Waveform) x.phase x.rng0 else 0) +
      (if a.osc1Enable = 1 then wave (Waveform.ofParam a.osc1Waveform) x.phase x.rng1 else 0)) ∧
  (∀ (a : Snapshot) (n : Nat) (x : Voice),
    (gainedSamples a n x).length = n ∧ ∀ j < n, (gainedSamples a n x)[j]? = some (gainedAt a j x)) ∧
  (∀ (a : Snapshot) (x : Voice), -33554432 ≤ bankSample a x ∧ bankSample a x ≤ 33554432) ∧
  (∀ vel : BitVec 7, (gainOf vel).toNat = vel.toNat * 5033165 / 127 ∧ (gainOf vel).toNat ≤ 5033165) ∧
  (∀ (a : Snapshot) (n : Nat) (x : Voice), x.gain.toNat ≤ 5033165 →
    ∀ y ∈ gainedSamples a n x, -10066330 ≤ y ∧ y ≤ 10066330) ∧
  ∀ (c : BlockCtx) (buf : List Int) (n : Nat) (x : Voice), x.gain = 0 → x.f0 = ⟨0, 0⟩ → x.f1 = ⟨0, 0⟩ →
    ∀ y ∈ renderOut c buf n x, y = 0

/-- R152: a segment's level is its formula, rounded down; it starts and ends exactly at its levels, stays between them, and moves by at most
⌈|target - start| / n⌉ at a step, which is at most 209716 for levels and lengths in range. -/
def Obligations.SegmentInterpolates : Prop :=
  ∀ start target n : Nat, 0 < n →
    (∀ k : Nat, segLevel start target k n = start + ((target : Int) - start) * k / n) ∧
    segLevel start target 0 n = start ∧
    segLevel start target n n = target ∧
    (∀ k ≤ n, min (start : Int) target ≤ segLevel start target k n ∧
      segLevel start target k n ≤ max (start : Int) target) ∧
    ∀ k < n,
      (segLevel start target (k + 1) n - segLevel start target k n).natAbs ≤
        (((target : Int) - start).natAbs + n - 1) / n ∧
      (start ≤ 16777216 → target ≤ 16777216 → 80 ≤ n →
        (segLevel start target (k + 1) n - segLevel start target k n).natAbs ≤ 209716)

/-- R153 to R155: the gate events and the hard reset of an envelope unit. -/
def Obligations.GateEvents : Prop :=
  ∀ e : Env,
    e.gateOn = { e with stage := .attack, start := e.level, target := 16777216, k := 0, n := e.na } ∧
    ((e.stage = .attack ∨ e.stage = .decay ∨ e.stage = .sustain) →
      e.gateOff = { e with stage := .release, start := e.level, target := 0, k := 0, n := e.nr }) ∧
    ((e.stage = .idle ∨ e.stage = .release) → e.gateOff = e) ∧
    e.hardReset = { e with stage := .idle, level := 0, start := 0, target := 0, k := 0, n := 1 }

/-- R162: update keeps the stage and the level, re-plans the running segment exactly when its own
parameters changed, stores the four parameters, and changes nothing when they are equal; a commit updates
both units of every voice. -/
def Obligations.UpdateIsGlitchFree : Prop :=
  (∀ (s : State) (v : Fin Config.numVoices),
    ((commit s).voice v).aenv = (s.voice v).aenv.update (ampParams s.stg.snap s.fs) ∧
    ((commit s).voice v).fenv = (s.voice v).fenv.update (fltParams s.stg.snap s.fs)) ∧
  ∀ (e : Env) (na nd nr : BitVec 20) (sus : BitVec 25),
    (e.update ⟨na, nd, sus, nr⟩).stage = e.stage ∧ (e.update ⟨na, nd, sus, nr⟩).level = e.level ∧
    (e.stage = .attack → e.update ⟨na, nd, sus, nr⟩ =
      if na = e.na then { e with na := na, nd := nd, sus := sus, nr := nr }
      else { e with na := na, nd := nd, sus := sus, nr := nr, start := e.level, k := 0, n := na }) ∧
    (e.stage = .decay → e.update ⟨na, nd, sus, nr⟩ =
      if nd = e.nd ∧ sus = e.sus then { e with na := na, nd := nd, sus := sus, nr := nr }
      else { e with
        na := na, nd := nd, sus := sus, nr := nr, start := e.level, k := 0, n := nd, target := sus }) ∧
    (e.stage = .sustain → e.update ⟨na, nd, sus, nr⟩ =
      if sus = e.sus then { e with na := na, nd := nd, sus := sus, nr := nr }
      else { e with
        na := na, nd := nd, sus := sus, nr := nr, start := e.level, k := 0, n := nd, target := sus }) ∧
    (e.stage = .release → e.update ⟨na, nd, sus, nr⟩ =
      if nr = e.nr then { e with na := na, nd := nd, sus := sus, nr := nr }
      else { e with na := na, nd := nd, sus := sus, nr := nr, start := e.level, k := 0, n := nr }) ∧
    (e.stage = .idle → e.update ⟨na, nd, sus, nr⟩ = { e with na := na, nd := nd, sus := sus, nr := nr }) ∧
    e.update ⟨e.na, e.nd, e.sus, e.nr⟩ = e

/-- R156: a tick short of the segment's end moves the level one sample along the segment. R163: from a hard
reset and a gate on, the output is ONE at tick na and sus at tick na + nd, where the
unit enters SUSTAIN and stays; a gate off reaches IDLE and 0 at tick nr after it, and not before. -/
def Obligations.EnvelopeTiming : Prop :=
  (∀ e : Env, e.stage ≠ .idle → e.k < e.n → e.start.toNat ≤ 16777216 → e.target.toNat ≤ 16777216 →
    (e.tick.level.toNat : Int) = segLevel e.start.toNat e.target.toNat (e.k.toNat + 1) e.n.toNat) ∧
  (∀ e : Env, 0 < e.na.toNat → 0 < e.nd.toNat → e.sus.toNat ≤ 16777216 →
    (iter Env.tick e.na.toNat e.hardReset.gateOn).level = 16777216 ∧
    (∀ j < e.na.toNat, (iter Env.tick j e.hardReset.gateOn).stage = .attack) ∧
    (∀ j ≥ e.na.toNat, j < e.na.toNat + e.nd.toNat →
      (iter Env.tick j e.hardReset.gateOn).stage = .decay) ∧
    ∀ j ≥ e.na.toNat + e.nd.toNat, (iter Env.tick j e.hardReset.gateOn).stage = .sustain ∧
      (iter Env.tick j e.hardReset.gateOn).level = e.sus) ∧
  ∀ e : Env, 0 < e.nr.toNat → e.level.toNat ≤ 16777216 →
    (e.stage = .attack ∨ e.stage = .decay ∨ e.stage = .sustain) →
    (∀ j < e.nr.toNat, (iter Env.tick j e.gateOff).stage = .release ∧
      ((iter Env.tick j e.gateOff).level = 0 → e.level.toNat * (e.nr.toNat - j) < e.nr.toNat)) ∧
    ∀ j ≥ e.nr.toNat, (iter Env.tick j e.gateOff).stage = .idle ∧ (iter Env.tick j e.gateOff).level = 0

/-- R151: AENV takes its four times and level from act[0x00..0x03], FENV from act[0x04..0x07]. R151 and
R163's rounding: for legal parameters the lengths lie in 80..960000 and sus in 0..ONE, and the
sample indices na - 1 and na + nd - 1 lie within one of the rounded times. -/
def Obligations.EnvelopeLengths : Prop :=
  (∀ (a : Snapshot) (fs : BitVec 18),
    ampParams a fs =
      envParams (a.get .ampAttack) (a.get .ampDecay) (a.get .ampSustain) (a.get .ampRelease) fs ∧
    fltParams a fs =
      envParams (a.get .fltAttack) (a.get .fltDecay) (a.get .fltSustain) (a.get .fltRelease) fs) ∧
  ∀ a d s r fs : BitVec 18, legalValue .ampAttack a → legalValue .ampDecay d → legalValue .ampSustain s →
    legalValue .ampRelease r → legalValue .cfgSampleRate fs →
    ∀ q, q = envParams a d s r fs →
      q.na.toNat = (a.toNat * fs.toNat + 999) / 1000 ∧ q.nd.toNat = (d.toNat * fs.toNat + 999) / 1000 ∧
      q.nr.toNat = (r.toNat * fs.toNat + 500) / 1000 ∧ q.sus.toNat = s.toNat * 2 ^ 24 / 1000 ∧
      (∀ x ∈ [q.na, q.nd, q.nr], 80 ≤ x.toNat ∧ x.toNat ≤ 960000) ∧ q.sus.toNat ≤ 16777216 ∧
      q.na.toNat - 1 ≤ (a.toNat * fs.toNat + 500) / 1000 ∧
      (a.toNat * fs.toNat + 500) / 1000 ≤ q.na.toNat ∧
      q.na.toNat + q.nd.toNat - 1 ≤ ((a.toNat + d.toNat) * fs.toNat + 500) / 1000 + 1 ∧
      ((a.toNat + d.toNat) * fs.toNat + 500) / 1000 ≤ q.na.toNat + q.nd.toNat

/-- R182 to R184: the LFO is sinq30 of its phase in Q24, lies in [-ONE, ONE] and starts at 0; frame j of a block sees the phase j
increments on, the phase ends n increments on; the chunk average is the sum by the length, rounded down, and lies in
[-ONE, ONE]. -/
def Obligations.LfoFillAndAverage : Prop :=
  lfo 0 = 0 ∧ (∀ p : Word, lfo p = sinq30 p / 64 ∧ -16777216 ≤ lfo p ∧ lfo p ≤ 16777216) ∧
  (∀ b : List Int, lfoAvg b = b.sum / b.length) ∧
  ∀ (n : Nat) (p inc : Word),
    (lfoFill n p inc).length = n ∧
    (∀ j < n, (lfoFill n p inc)[j]? = some (lfo (p + BitVec.ofNat 32 j * inc))) ∧
    lfoPhaseAfter n p inc = p + BitVec.ofNat 32 n * inc ∧
    (0 < n → -16777216 ≤ lfoAvg (lfoFill n p inc) ∧ lfoAvg (lfoFill n p inc) ≤ 16777216)

/-- R194: the two multipliers and the cutoff are their formulas; with the ranges of R192 the multipliers lie
where the rule says, and the cutoff is clamped to 20 Hz .. FCMAX; the envelope scales it from 1 - amount at
level 0 to 1 at level 1. -/
def Obligations.CutoffStaysInBounds : Prop :=
  ∀ (c : BlockCtx) (fe avg : Int), c.derived.lfoDepth ≤ 16777216 → c.derived.fenvAmt ≤ 16777216 →
    20 ≤ c.derived.fcmax → 0 ≤ fe → fe ≤ 16777216 → -16777216 ≤ avg → avg ≤ 16777216 →
    16777216 - (c.derived.fenvAmt : Int) ≤ menv c fe ∧ menv c fe ≤ 16777216 ∧
    (c.act.fenvEnable = 1 →
      menv c fe = 16777216 - c.derived.fenvAmt + c.derived.fenvAmt * fe / 16777216) ∧
    (c.act.fenvEnable = 1 → menv c 0 = 16777216 - c.derived.fenvAmt ∧ menv c 16777216 = 16777216) ∧
    (c.act.fenvEnable ≠ 1 → menv c fe = 16777216) ∧
    mlfo c avg = 16777216 + c.derived.lfoDepth * avg / 16777216 ∧
    16777216 - (c.derived.lfoDepth : Int) ≤ mlfo c avg ∧ mlfo c avg ≤ 16777216 + c.derived.lfoDepth ∧
    cutoff c fe avg =
      min ((c.derived.fcmax : Int) * 65536) (max (20 * 65536)
        ((c.act.filterCutoff.toNat : Int) * 65536 * menv c fe / 16777216 * mlfo c avg / 16777216)) ∧
    20 * 65536 ≤ cutoff c fe avg ∧ cutoff c fe avg ≤ c.derived.fcmax * 65536

/-- R181, R192, R193, R195: the derived values of a legal snapshot and rate are their formulas, in the
ranges the rules give. -/
def Obligations.DerivedValueRanges : Prop :=
  ∀ (a : Snapshot) (fs : BitVec 18), legalValue .lfoFreq a.lfoFreq → legalValue .lfoAmount a.lfoAmount →
    legalValue .fenvAmount a.fenvAmount → legalValue .filterResonance a.filterResonance →
    legalValue .cfgSampleRate fs →
    ∀ d, d = derive a fs →
      d.lfoInc.toNat = a.lfoFreq.toNat * 2 ^ 32 / (100 * fs.toNat) ∧
      2236 ≤ d.lfoInc.toNat ∧ d.lfoInc.toNat ≤ 10737418 ∧
      d.lfoDepth = a.lfoAmount.toNat * 2 ^ 24 / 1000 ∧ d.lfoDepth ≤ 16777216 ∧
      d.fenvAmt = a.fenvAmount.toNat * 2 ^ 24 / 1000 ∧ d.fenvAmt ≤ 16777216 ∧
      d.fcmax = min 20000 (45 * fs.toNat / 100) ∧ 3600 ≤ d.fcmax ∧ d.fcmax ≤ 20000 ∧
      d.fq = 759250125 + a.filterResonance.toNat * 1610613 ∧ d.fk = 2 ^ 60 / d.fq ∧
      486492866 ≤ d.fk ∧ d.fk ≤ 1518500249

/-- R196: for every legal rate, damping and cutoff the angle stays below a quarter turn, the cosine stays
positive, the gain is positive, and the denominator fits 67 bits. -/
def Obligations.CoefficientsStayFinite : Prop :=
  ∀ (fs : BitVec 18) (fk : Nat) (fc : Int), legalValue .cfgSampleRate fs →
    486492866 ≤ fk → fk ≤ 1518500249 →
    20 * 65536 ≤ fc → fc ≤ (min 20000 (45 * fs.toNat / 100) : Nat) * 65536 →
    ∀ th g, th = cutoffAngle fs fc → g = (coeffs fs fk fc).g →
      th = fc * 32768 / fs.toNat ∧ 0 < th ∧ th < 2 ^ 30 ∧
      167969471 ≤ sinq30 (wrap32 (th + 2 ^ 30)) ∧
      g = sinq30 (wrap32 th) * 2 ^ 30 / sinq30 (wrap32 (th + 2 ^ 30)) ∧ 0 < g ∧
      2 ^ 60 < 2 ^ 60 + g * (g + fk) ∧ 2 ^ 60 + g * (g + fk) < 2 ^ 67 ∧
      (coeffs fs fk fc).a1 = 2 ^ 90 / (2 ^ 60 + g * (g + fk)) ∧
      (coeffs fs fk fc).a2 = g * (coeffs fs fk fc).a1 / 2 ^ 30 ∧
      (coeffs fs fk fc).a3 = g * (coeffs fs fk fc).a2 / 2 ^ 30

/-- R190: the output type is the mode mod 3. R197, R199, R200: a section's states and output are the saturated values of its equations, the 24 dB
modes run the second section on the first one's output, and the 12 dB modes keep it unstepped. -/
def Obligations.FilterSectionsSaturate : Prop :=
  (∀ mode : BitVec 18, mode.toNat % 3 =
    ([.lowPass, .highPass, .bandPass] : List FilterType).idxOf (filterType mode)) ∧
  (∀ (k : Coeffs) (x : Int) (f : FilterSection),
    ∀ v3 v1 v2, v3 = x - f.ic2.toInt →
      v1 = k.a1 * f.ic1.toInt / 2 ^ 30 + k.a2 * v3 / 2 ^ 30 →
      v2 = f.ic2.toInt + k.a2 * f.ic1.toInt / 2 ^ 30 + k.a3 * v3 / 2 ^ 30 →
      (sectionNext k x f).ic1.toInt = min (2 ^ 31 - 1) (max (-2 ^ 31) (2 * v1 - f.ic1.toInt)) ∧
      (sectionNext k x f).ic2.toInt = min (2 ^ 31 - 1) (max (-2 ^ 31) (2 * v2 - f.ic2.toInt)) ∧
      ∀ fk : Nat,
        sectionOut k fk .lowPass x f = min (2 ^ 31 - 1) (max (-2 ^ 31) v2) ∧
        sectionOut k fk .highPass x f = min (2 ^ 31 - 1) (max (-2 ^ 31) (x - fk * v1 / 2 ^ 30 - v2)) ∧
        sectionOut k fk .bandPass x f = min (2 ^ 31 - 1) (max (-2 ^ 31) v1)) ∧
  ∀ (c : BlockCtx) (k : Coeffs) (x : Int) (f : FilterState),
    (c.act.filterMode.toNat < 3 →
      filterOut c k x f = sectionOut k c.derived.fk (filterType c.act.filterMode) x f.f0 ∧
      filterNext c k x f = ⟨sectionNext k x f.f0, f.f1⟩) ∧
    (3 ≤ c.act.filterMode.toNat → ∀ y, y = sectionOut k c.derived.fk (filterType c.act.filterMode) x f.f0 →
      filterOut c k x f = sectionOut k c.derived.fk (filterType c.act.filterMode) y f.f1 ∧
      filterNext c k x f = ⟨sectionNext k x f.f0, sectionNext k y f.f1⟩)

/-! ### The register window -/

/-- R23, R286: a CMD write appends its word to CMDQ, or drops it with ERR_CMDQ_OVF when CMDQ holds 16
words; CMDQ_LEVEL counts the words and an executing command, and BUSY says whether it is not 0. (The response
is the model's, log 7.) -/
def Obligations.CmdWriteAppends : Prop :=
  ∀ (s : State) (w : Word),
    (s.cmdq.length < 16 → s.hostWrite 0x00C 4 w =
      { s with cmdq := s.cmdq ++ [w], response := some .written }) ∧
    (s.cmdq.length = 16 → s.hostWrite 0x00C 4 w =
      { s with status := s.status ||| 0x40#32, response := some .written }) ∧
    s.readReg 0x00C = 0 ∧
    (s.cmdq.length ≤ 16 →
      (s.readReg 0x02C).toNat = s.cmdq.length + (if s.executing.isSome then 1 else 0) ∧
      ((s.readReg 0x004).getLsbD 0 = true ↔ s.readReg 0x02C ≠ 0))

/-- R22, R24: a STATUS write clears exactly the sticky bits written as 1, and a CTRL write stores the low
two bits; neither changes anything else but the response (the model's, log 7). -/
def Obligations.StatusAndCtrlWrites : Prop :=
  ∀ (s : State) (v : Word),
    (∃ st, s.hostWrite 0x004 4 v = { s with status := st, response := some .written } ∧
      ∀ b < 32, st.getLsbD b = (s.status.getLsbD b && !(decide (1 ≤ b ∧ b ≤ 6) && v.getLsbD b))) ∧
    s.hostWrite 0x008 4 v = { s with ctrl := v &&& 0x3#32, response := some .written }

/-- R62, R65: a legal read answers the register's value and changes no register; a reserved offset reads 0;
a write anywhere but STATUS, CTRL and CMD is ignored. (The response is the model's, log 7.) -/
def Obligations.ReadsAndIgnoredWrites : Prop :=
  ∀ (s : State) (off : Nat), off < 0x4000 → off % 4 = 0 →
    s.hostRead off 4 = { s with response := some (.data (s.readReg off)) } ∧
    (ReservedOffset off → s.readReg off = 0) ∧
    (off ≠ 0x004 → off ≠ 0x008 → off ≠ 0x00C → ∀ v,
      s.hostWrite off 4 v = { s with response := some .written })

/-- R63, R287: an access that is not 32 bits wide at an aligned offset gets a bus error and changes no state
of the block. (That the answer is a response and not a stop is log 5.) -/
def Obligations.BusErrorChangesNoState : Prop :=
  ∀ (s : State) (off size : Nat) (v : Word), size ≠ 4 ∨ off % 4 ≠ 0 →
    s.hostRead off size = { s with response := some .busError } ∧
    s.hostWrite off size v = { s with response := some .busError }

/-- R61: what each register of the map reads, the levels of the two queues, the parameter, configuration and
OUTBUF registers and the voice views among them, VSTATE and VENV by their fields and codes, every other bit 0
(R22, R23, R25 to R28, R30, R32, R36, R37, R43). -/
def Obligations.RegisterMapReads : Prop :=
  ∀ s : State,
    s.readReg 0x000 = 0x4D530007#32 ∧
    (s.status &&& ~~~0x7E#32 = 0 →
      s.readReg 0x004 = s.status ||| if s.cmdq = [] ∧ s.executing = none then 0#32 else 1#32) ∧
    (s.ctrl &&& ~~~0x3#32 = 0 → s.readReg 0x008 = s.ctrl) ∧
    s.readReg 0x00C = 0 ∧ s.readReg 0x010 = s.blockCount ∧ s.readReg 0x014 = s.lastIllegal ∧
    (s.evq.length ≤ 128 → (s.readReg 0x018).toNat = s.evq.length) ∧
    (∀ v : Fin Config.numVoices, (s.readReg 0x01C).getLsbD v.val = ((s.voice v).state != .idle)) ∧
    (∀ b, 10 ≤ b → (s.readReg 0x01C).getLsbD b = false) ∧
    (s.cmdq.length ≤ 16 →
      (s.readReg 0x02C).toNat = s.cmdq.length + if s.executing = none then 0 else 1) ∧
    s.readReg 0x020 = s.lfoPhase ∧ s.readReg 0x024 = s.seq.extractLsb' 0 32 ∧
    s.readReg 0x028 = s.seq.extractLsb' 32 32 ∧
    (∀ p : ParamId, (s.readReg (0x100 + 4 * p.num)).toNat = (s.stg.get p).toNat) ∧
    (∀ p : ParamId, p.num < 0x20 → (s.readReg (0x200 + 4 * p.num)).toNat = (s.act.get p).toNat) ∧
    (s.readReg 0x280).toNat = s.fs.toNat ∧ (s.readReg 0x284).toNat = s.maxblk.toNat ∧
    (s.readReg 0x288).toNat = s.nch.toNat ∧
    (∀ v : Fin Config.numVoices, ∀ b x, b = 0x400 + 0x20 * v.val → x = s.voice v →
      (s.readReg b).toNat = ([.idle, .active, .releasing] : List Life).idxOf x.state +
        x.note.toNat * 2 ^ 8 + x.vel.toNat * 2 ^ 16 ∧
      (s.readReg (b + 0x04)).toNat =
        ([.idle, .attack, .decay, .sustain, .release] : List Stage).idxOf x.aenv.stage +
        ([.idle, .attack, .decay, .sustain, .release] : List Stage).idxOf x.fenv.stage * 2 ^ 4 ∧
      (s.readReg (b + 0x08)).toNat = x.aenv.level.toNat ∧
      (s.readReg (b + 0x0C)).toNat = x.fenv.level.toNat ∧
      s.readReg (b + 0x10) = x.phase ∧ s.readReg (b + 0x14) = x.inc ∧
      s.readReg (b + 0x18) = x.trigSeq.extractLsb' 0 32 ∧
      s.readReg (b + 0x1C) = x.freeSeq.extractLsb' 0 32) ∧
    ∀ c < 2, ∀ j < 1024, s.readReg (0x1000 + 0x1000 * c + 4 * j) = s.outWord c j

/-- R285: irq is DONE with its enable, or any error flag with its enable; it is 0 after reset. -/
def Obligations.IrqFollowsFlags : Prop :=
  (∀ s : State, s.irq =
    (s.status.getLsbD 1 && s.ctrl.getLsbD 0 || (s.status &&& 0x7C#32 != 0) && s.ctrl.getLsbD 1)) ∧
  State.reset.irq = false

/-- A host access turn reaches the block exactly when its address lies in the 0x4000 bytes at BASE (R60);
an access elsewhere uses up its turn and changes nothing, the last answer included (log 6). -/
def Obligations.AccessTurnReachesWindow : Prop :=
  ∀ (s : State) (r : List Turn) (size : Nat) (v : Word),
    (∀ off < 0x4000,
      (s.schedule = .access (.read (Config.base + off) size) :: r →
        step s = .next (State.hostRead off size { s with schedule := r })) ∧
      (s.schedule = .access (.write (Config.base + off) size v) :: r →
        step s = .next (State.hostWrite off size v { s with schedule := r }))) ∧
    ∀ addr, addr < Config.base ∨ Config.base + 0x4000 ≤ addr →
      (s.schedule = .access (.read addr size) :: r → step s = .next { s with schedule := r }) ∧
      (s.schedule = .access (.write addr size v) :: r → step s = .next { s with schedule := r })

/-! ### Steps and reset -/

/-- A step runs the decoded command: the executing word, or else the oldest word of CMDQ, is removed and
its command executed, when the command processor moves next; a word placed by withFetchWord is the next one
executed (R99, R23; the turns and the placing are the model's, log 2, log 3 and log 15). -/
def Obligations.StepRunsDecodedCommand : Prop :=
  (∀ (s : State) (r : List Turn) (w : Word) (i : Instr),
    (s.schedule = .command :: r ∨ s.schedule = [] ∧ r = []) → decode w = .ok i →
    (∀ q, s.executing = none → s.cmdq = w :: q → step s = exec i { s with cmdq := q, schedule := r }) ∧
    (s.executing = some w → step s = exec i { s with executing := none, schedule := r })) ∧
  ∀ (s : State) (nbits n : Nat) (i : Instr), decode (BitVec.ofNat 32 (n % 2 ^ nbits)) = .ok i →
    step (s.withFetchWord nbits n) = exec i { s with executing := none, cmdq := s.cmdq.tail }

/-- An illegal word at the head is discarded and recorded, and a step with nothing to execute keeps all
state (R99, R281, R295); an issue turn moves the head to the executing slot without changing CMDQ_LEVEL
(R23, R305; the turns are the model's, log 2 to log 4). -/
def Obligations.StepOtherTurns : Prop :=
  ∀ (s : State) (r : List Turn),
    (∀ w q e, (s.schedule = .command :: r ∨ s.schedule = [] ∧ r = []) → decode w = .error e →
      s.executing = none → s.cmdq = w :: q →
      step s = .next { s with
        cmdq := q, schedule := r, status := s.status ||| 0x4#32, lastIllegal := w }) ∧
    ((s.schedule = .command :: r ∨ s.schedule = [] ∧ r = []) → s.busy = false →
      step s = .next { s with schedule := r }) ∧
    (∀ w q, s.schedule = .issue :: r → s.executing = none → s.cmdq = w :: q →
      step s = .next { s with cmdq := q, executing := some w, schedule := r } ∧
      State.cmdqLevel { s with cmdq := q, executing := some w, schedule := r } = s.cmdqLevel)

/-- R296: no command, state or host input stops the block: a turn of the host, in the window or outside it,
an issue and a reset complete from every state, a command and a step from every state with room for its
stamps. (The one stop is SEQ at the end of its range, log 1.) -/
def Obligations.BlockNeverStops : Prop :=
  (∀ (i : Instr) (s : State), s.SeqRoom (stampsNeeded s) → ∃ t, exec i s = .next t) ∧
  (∀ (i : Instr) (s : State), (∃ t, exec i s = .next t) ∨
    exec i s = .refused .seqWrap ∧ ¬ s.SeqRoom (stampsNeeded s)) ∧
  (∀ s : State, s.SeqRoom (stampsNeeded s) → ∃ t, step s = .next t) ∧
  (∀ s : State, (∃ t, step s = .next t) ∨ step s = .refused .seqWrap ∧ ¬ s.SeqRoom (stampsNeeded s)) ∧
  ∀ (s : State) (x : Turn) (r : List Turn), s.schedule = x :: r → x ≠ .command → ∃ t, step s = .next t

/-- R300: the state after reset is the state after a PREPARE from the reset values, and a reset turn leads
to it from any state, with what the host has seen and will do kept (log 14). -/
def Obligations.ResetIsPrepareAtDefaults : Prop :=
  exec .prepare State.reset = .next State.reset ∧
  ∀ (s : State) (r : List Turn), s.schedule = .reset :: r →
    step s = .next { State.reset with schedule := r, response := s.response }

/-- R301: the reset value of every piece of state, and what the host reads there. -/
def Obligations.ResetValues : Prop :=
  State.reset.readReg 0x000 = 0x4D530007#32 ∧
  (∀ off ∈ [0x004, 0x008, 0x010, 0x014, 0x018, 0x01C, 0x020, 0x024, 0x028, 0x02C],
    State.reset.readReg off = 0) ∧
  State.reset.cmdq = [] ∧ State.reset.executing = none ∧ State.reset.evq = [] ∧
  State.reset.seq = 0 ∧ State.reset.lfoPhase = 0 ∧ State.reset.irq = false ∧
  (ParamId.all.map fun p => (State.reset.stg.get p).toNat) =
    [100, 200, 700, 300, 100, 200, 700, 300, 20000, 0, 0, 100, 0, 0, 0, 0, 0, 1, 0, 48000, 512, 2] ∧
  State.reset.act = State.reset.stg.snap ∧
  State.reset.fs = 48000 ∧ State.reset.maxblk = 512 ∧ State.reset.nch = 2 ∧
  State.reset.derived = ⟨89478, 0, 0, 20000, 759250125, 1518500249⟩ ∧
  (∀ v : Fin Config.numVoices, ∀ e : Env, e = ⟨.idle, 0, 0, 0, 0, 1, 4800, 9600, 14400, 11744051⟩ →
    State.reset.voice v =
      { state := .idle, note := 0, vel := 0, gain := 0, inc := 0, phase := 0
        rng0 := 0x6D2B79F5#32 ^^^ BitVec.ofNat 32 (2 * v.val)
        rng1 := 0x6D2B79F5#32 ^^^ BitVec.ofNat 32 (2 * v.val + 1)
        aenv := e, fenv := e, f0 := ⟨0, 0⟩, f1 := ⟨0, 0⟩, trigSeq := 0, freeSeq := 0 }) ∧
  (∀ v : Fin Config.numVoices, ∀ k < 8, State.reset.readReg (0x400 + 0x20 * v.val + 4 * k) = 0) ∧
  ∀ c < 2, ∀ j < 1024, State.reset.outWord c j = 0

/-! ### What every step keeps -/

/-- The invariants below hold right after reset. -/
def Obligations.ResetMeetsEveryInvariant : Prop :=
  State.reset.outbuf.wf ∧ State.reset.ParamsLegal ∧ State.reset.ReservedZero ∧ State.reset.QueuesBounded ∧
  State.reset.DerivedCurrent ∧ State.reset.OneActivePerNote ∧ State.reset.NoiseNonZero ∧
  State.reset.EnvelopesInRange ∧ State.reset.LifeMatches ∧ State.reset.StampsOrdered ∧
  State.reset.OutputBounded

/-- Every step keeps OUTBUF's list in its canonical form (the model's own form, log 9). -/
def Obligations.StepKeepsCanonicalOutbuf : Prop :=
  ∀ s t : State, s.outbuf.wf → step s = .next t → t.outbuf.wf

/-- Every step keeps every parameter and configuration register in its legal range (R26 to R28). -/
def Obligations.StepKeepsParamsLegal : Prop :=
  ∀ s t : State, s.ParamsLegal → step s = .next t → t.ParamsLegal

/-- Every step keeps CMDQ and EVQ within their depths and the reserved bits of STATUS and CTRL at 0 (R22 to
R24, R36). -/
def Obligations.StepKeepsQueuesAndReservedBits : Prop :=
  ∀ s t : State, s.QueuesBounded ∧ s.ReservedZero → step s = .next t → t.QueuesBounded ∧ t.ReservedZero

/-- Every step keeps the derived values, those in the envelope units too, equal to their formulas on act[]
and FS (R29). -/
def Obligations.StepKeepsDerivedCurrent : Prop :=
  ∀ s t : State, s.DerivedCurrent → step s = .next t → t.DerivedCurrent

/-- Every step keeps at most one voice ACTIVE with any note number (R247). -/
def Obligations.StepKeepsOneActivePerNote : Prop :=
  ∀ s t : State, s.OneActivePerNote → step s = .next t → t.OneActivePerNote

/-- Every step keeps every noise generator away from 0 (R30, R137). -/
def Obligations.StepKeepsNoiseNonZero : Prop :=
  ∀ s t : State, s.NoiseNonZero → step s = .next t → t.NoiseNonZero

/-- Every step keeps every envelope unit in its ranges: the level in 0..ONE and on its segment (R32, R164). -/
def Obligations.StepKeepsEnvelopesInRange : Prop :=
  ∀ s t : State, s.ParamsLegal ∧ s.EnvelopesInRange → step s = .next t →
    t.ParamsLegal ∧ t.EnvelopesInRange

/-- Every step keeps each voice's state in agreement with its amplitude envelope (R31, R222, R257). -/
def Obligations.StepKeepsLifeMatches : Prop :=
  ∀ s t : State, s.LifeMatches → step s = .next t → t.LifeMatches

/-- Every step keeps every stamp at most SEQ and the sounding voices' trig_seq distinct (R34, R243). -/
def Obligations.StepKeepsStampsOrdered : Prop :=
  ∀ s t : State, s.StampsOrdered → step s = .next t → t.StampsOrdered

/-- Every step keeps every OUTBUF word strictly between -ONE and ONE (R262). -/
def Obligations.StepKeepsOutputBounded : Prop :=
  ∀ s t : State, s.ParamsLegal ∧ s.OutputBounded → step s = .next t → t.ParamsLegal ∧ t.OutputBounded

end Statements
end

