-- ==== Sys2Proof/Laws/Memory.lean ====
section
/-! SUPPORT. The laws of OUTBUF's memory: a read after a range write, and that every write keeps the
canonical form. -/

namespace Sys2Proof.Machine

@[simp] theorem Memory.read_nil (a : Nat) : Memory.read [] a = Memory.unlisted := rfl

theorem Memory.read_cons (k : Nat) (b : Byte) (m : Memory) (a : Nat) :
    Memory.read ((k, b) :: m) a = if k = a then b else Memory.read m a := rfl

/-- An offset listed nowhere reads as unlisted. -/
theorem Memory.read_of_forall_ne {m : Memory} {a : Nat} (h : ∀ c ∈ m, c.1 ≠ a) :
    Memory.read m a = Memory.unlisted := by
  induction m with
  | nil => rfl
  | cons c m ih =>
    obtain ⟨k, b⟩ := c
    rw [Memory.read_cons, if_neg (h (k, b) (by simp)), ih fun c hc => h c (by simp [hc])]

/-- A read of two runs of cells, when the first lists no such offset. -/
theorem Memory.read_append_right {m m' : Memory} {a : Nat} (h : ∀ c ∈ m, c.1 ≠ a) :
    Memory.read (m ++ m') a = Memory.read m' a := by
  induction m with
  | nil => rfl
  | cons c m ih =>
    obtain ⟨k, b⟩ := c
    rw [List.cons_append, Memory.read_cons, if_neg (h (k, b) (by simp)),
      ih fun c hc => h c (by simp [hc])]

/-- A read of two runs of cells, when the second lists no such offset. -/
theorem Memory.read_append_left {m m' : Memory} {a : Nat} (h : ∀ c ∈ m', c.1 ≠ a) :
    Memory.read (m ++ m') a = Memory.read m a := by
  induction m with
  | nil => exact Memory.read_of_forall_ne h
  | cons c m ih =>
    obtain ⟨k, b⟩ := c
    rw [List.cons_append, Memory.read_cons, Memory.read_cons, ih]

/-- Keeping the cells of some offsets keeps what those offsets read as. -/
theorem Memory.read_filter {p : Nat → Bool} {m : Memory} {a : Nat} (h : p a = true) :
    Memory.read (m.filter fun c => p c.1) a = Memory.read m a := by
  induction m with
  | nil => rfl
  | cons c m ih =>
    obtain ⟨k, b⟩ := c
    by_cases hk : p k = true
    · rw [List.filter_cons_of_pos (by simpa using hk), Memory.read_cons, Memory.read_cons, ih]
    · rw [List.filter_cons_of_neg (by simpa using hk), Memory.read_cons, ih,
        if_neg (fun e : k = a => hk (e ▸ h))]

/-- The cells of a run lie in its range and are listed bytes. -/
theorem Memory.mem_cells {a : Nat} {bs : List Byte} {c : Host.Cell} (h : c ∈ Memory.cells a bs) :
    a ≤ c.1 ∧ c.1 < a + bs.length ∧ c.2 ≠ Memory.unlisted := by
  induction bs generalizing a with
  | nil => simp [Memory.cells] at h
  | cons b bs ih =>
    unfold Memory.cells at h
    split at h
    · obtain ⟨h1, h2, h3⟩ := ih h
      exact ⟨by omega, by simp; omega, h3⟩
    · rename_i hb
      rcases List.mem_cons.1 h with rfl | h
      · exact ⟨le_refl _, by simp, hb⟩
      · obtain ⟨h1, h2, h3⟩ := ih h
        exact ⟨by omega, by simp; omega, h3⟩

/-- A cell of a run reads as the byte of the run. -/
theorem Memory.read_cells (a i : Nat) (bs : List Byte) (h : i < bs.length) :
    Memory.read (Memory.cells a bs) (a + i) = bs[i] := by
  induction bs generalizing a i with
  | nil => simp at h
  | cons b bs ih =>
    cases i with
    | zero =>
      unfold Memory.cells
      split
      · rename_i hb
        rw [Memory.read_of_forall_ne fun c hc => by have := (Memory.mem_cells hc).1; omega]
        simpa using hb.symm
      · simp [Memory.read_cons]
    | succ i =>
      have hi : i < bs.length := by simpa using h
      have e : a + (i + 1) = a + 1 + i := by omega
      unfold Memory.cells
      split
      · rw [e, ih _ _ hi]; rfl
      · rw [Memory.read_cons, if_neg (by omega), e, ih _ _ hi]; rfl

/-- A byte outside a range write reads as before. -/
theorem Memory.read_writeBytes_outside {a : Nat} {bs : List Byte} {m : Memory} {x : Nat}
    (h : x < a ∨ a + bs.length ≤ x) : (Memory.writeBytes a bs m).read x = m.read x := by
  have hc : ∀ c ∈ Memory.cells a bs, c.1 ≠ x := fun c hc => by
    obtain ⟨h1, h2, -⟩ := Memory.mem_cells hc
    omega
  unfold Memory.writeBytes
  rcases h with h | h
  · rw [List.append_assoc, Memory.read_append_left, Memory.read_filter (p := fun k => k < a) (by simpa)]
    intro c hc'
    rcases List.mem_append.1 hc' with hc' | hc'
    · exact hc c hc'
    · have := (List.mem_filter.1 hc').2
      simp only [decide_eq_true_eq] at this
      omega
  · rw [Memory.read_append_right, Memory.read_filter (p := fun k => a + bs.length ≤ k) (by simpa)]
    intro c hc'
    rcases List.mem_append.1 hc' with hc' | hc'
    · have := (List.mem_filter.1 hc').2
      simp only [decide_eq_true_eq] at this
      omega
    · exact hc c hc'

/-- A byte inside a range write reads as the byte stored. -/
theorem Memory.read_writeBytes_inside {a : Nat} {bs : List Byte} {m : Memory} {i : Nat}
    (h : i < bs.length) : (Memory.writeBytes a bs m).read (a + i) = bs[i] := by
  unfold Memory.writeBytes
  rw [Memory.read_append_left, Memory.read_append_right, Memory.read_cells a i bs h]
  · intro c hc
    have := (List.mem_filter.1 hc).2
    simp only [decide_eq_true_eq] at this
    omega
  · intro c hc
    have := (List.mem_filter.1 hc).2
    simp only [decide_eq_true_eq] at this
    omega

theorem Memory.cells_sorted (a : Nat) (bs : List Byte) :
    ((Memory.cells a bs).map Prod.fst).Pairwise (· < ·) := by
  induction bs generalizing a with
  | nil => simp [Memory.cells]
  | cons b bs ih =>
    unfold Memory.cells
    split
    · exact ih _
    · rw [List.map_cons, List.pairwise_cons]
      refine ⟨fun k hk => ?_, ih _⟩
      obtain ⟨c, hc, rfl⟩ := List.mem_map.1 hk
      have := (Memory.mem_cells hc).1
      show a < c.1
      omega

/-- The empty memory is canonical. -/
theorem Memory.wf_nil : Memory.wf [] := by simp [Memory.wf]

/-- A range write keeps the canonical form. -/
theorem Memory.wf_writeBytes {a : Nat} {bs : List Byte} {m : Memory} (h : m.wf) :
    (Memory.writeBytes a bs m).wf := by
  obtain ⟨hs, hz⟩ := h
  have hsub : ∀ p : Host.Cell → Bool, ((m.filter p).map Prod.fst).Pairwise (· < ·) := fun p =>
    hs.sublist (List.filter_sublist.map Prod.fst)
  refine ⟨?_, fun c hc => ?_⟩
  · unfold Memory.writeBytes
    rw [List.map_append, List.map_append, List.pairwise_append, List.pairwise_append]
    refine ⟨⟨hsub _, Memory.cells_sorted _ _, ?_⟩, hsub _, ?_⟩
    · intro x hx y hy
      obtain ⟨c, hc, rfl⟩ := List.mem_map.1 hx
      obtain ⟨d, hd, rfl⟩ := List.mem_map.1 hy
      have h1 := (List.mem_filter.1 hc).2
      have h2 := (Memory.mem_cells hd).1
      simp only [decide_eq_true_eq] at h1
      omega
    · intro x hx y hy
      obtain ⟨d, hd, rfl⟩ := List.mem_map.1 hy
      have h2 := (List.mem_filter.1 hd).2
      simp only [decide_eq_true_eq] at h2
      rcases List.mem_append.1 hx with hx | hx
      · obtain ⟨c, hc, rfl⟩ := List.mem_map.1 hx
        have h1 := (List.mem_filter.1 hc).2
        simp only [decide_eq_true_eq] at h1
        omega
      · obtain ⟨c, hc, rfl⟩ := List.mem_map.1 hx
        have h1 := (Memory.mem_cells hc).2.1
        omega
  · unfold Memory.writeBytes at hc
    simp only [List.mem_append] at hc
    rcases hc with (hc | hc) | hc
    · exact hz c (List.mem_filter.1 hc).1
    · exact (Memory.mem_cells hc).2.2
    · exact hz c (List.mem_filter.1 hc).1

theorem wordBytes_length (w : Word) : (wordBytes w).length = 4 := rfl

theorem flatMap_wordBytes_length (ws : List Word) : (ws.flatMap wordBytes).length = 4 * ws.length := by
  induction ws with
  | nil => rfl
  | cons w ws ih => simp [List.flatMap_cons, ih, wordBytes_length]; omega

/-- Lane `b` of word `i` in a run of words. -/
theorem getElem?_flatMap_wordBytes (ws : List Word) (i b : Nat) (hb : b < 4) :
    (ws.flatMap wordBytes)[4 * i + b]? = ws[i]?.bind fun w => (wordBytes w)[b]? := by
  induction ws generalizing i with
  | nil => simp
  | cons w ws ih =>
    rw [List.flatMap_cons]
    cases i with
    | zero => rw [List.getElem?_append_left (by simp [wordBytes_length]; omega)]; simp
    | succ i =>
      rw [List.getElem?_append_right (by simp [wordBytes_length]; omega), wordBytes_length]
      rw [show 4 * (i + 1) + b - 4 = 4 * i + b by omega, ih]
      simp

/-- Four byte lanes put together again. -/
theorem word_of_bytes (w : Word) :
    w.extractLsb' 24 8 ++ w.extractLsb' 16 8 ++ w.extractLsb' 8 8 ++ w.extractLsb' 0 8 = w := by
  apply BitVec.eq_of_getLsbD_eq
  intro i hi
  simp only [BitVec.getLsbD_append, BitVec.getLsbD_extractLsb']
  rcases Nat.lt_or_ge i 8 with h | h
  · simp [h]
  · rcases Nat.lt_or_ge i 16 with h2 | h2
    · simp [show ¬ i < 8 by omega, show i - 8 < 8 by omega, show 8 + (i - 8) = i by omega]
    · rcases Nat.lt_or_ge i 24 with h3 | h3
      · simp [show ¬ i < 8 by omega, show ¬ i - 8 < 8 by omega, show i - 8 - 8 < 8 by omega,
          show 16 + (i - 8 - 8) = i by omega]
      · simp [show ¬ i < 8 by omega, show ¬ i - 8 < 8 by omega, show ¬ i - 8 - 8 < 8 by omega,
          show i - 8 - 8 - 8 < 8 by omega, show 24 + (i - 8 - 8 - 8) = i by omega]

/-- A word write keeps the canonical form. -/
theorem Memory.wf_writeWords {a : Nat} {ws : List Word} {m : Memory} (h : m.wf) :
    (Memory.writeWords a ws m).wf := Memory.wf_writeBytes h

/-- A byte outside a word write reads as before. -/
theorem Memory.read_writeWords_outside {a : Nat} {ws : List Word} {m : Memory} {x : Nat}
    (h : x < a ∨ a + 4 * ws.length ≤ x) : (Memory.writeWords a ws m).read x = m.read x :=
  Memory.read_writeBytes_outside (by rwa [flatMap_wordBytes_length])

/-- A byte lane of a stored word. -/
theorem Memory.read_writeWords_lane {a : Nat} {ws : List Word} {m : Memory} {i b : Nat}
    (hi : i < ws.length) (hb : b < 4) :
    (Memory.writeWords a ws m).read (a + 4 * i + b) = (wordBytes ws[i])[b] := by
  have hl : 4 * i + b < (ws.flatMap wordBytes).length := by rw [flatMap_wordBytes_length]; omega
  have h := Memory.read_writeBytes_inside (a := a) (m := m) hl
  rw [← Nat.add_assoc] at h
  have hb' : b < (wordBytes ws[i]).length := by rw [wordBytes_length]; exact hb
  have e := getElem?_flatMap_wordBytes ws i b hb
  rw [List.getElem?_eq_getElem hl, List.getElem?_eq_getElem hi, Option.bind_some,
    List.getElem?_eq_getElem hb', Option.some.injEq] at e
  exact h.trans e

/-- A stored word reads back. -/
theorem Memory.readWord_writeWords {a : Nat} {ws : List Word} {m : Memory} {i : Nat}
    (hi : i < ws.length) : (Memory.writeWords a ws m).readWord (a + 4 * i) = ws[i] := by
  have h0 := Memory.read_writeWords_lane (a := a) (m := m) hi (b := 0) (by omega)
  have h1 := Memory.read_writeWords_lane (a := a) (m := m) hi (b := 1) (by omega)
  have h2 := Memory.read_writeWords_lane (a := a) (m := m) hi (b := 2) (by omega)
  have h3 := Memory.read_writeWords_lane (a := a) (m := m) hi (b := 3) (by omega)
  rw [Nat.add_zero] at h0
  unfold Memory.readWord
  rw [h0, h1, h2, h3]
  exact word_of_bytes _

/-- A word whose four bytes a change leaves alone reads as before. -/
theorem Memory.readWord_congr {m m' : Memory} {a : Nat}
    (h : ∀ x, a ≤ x → x < a + 4 → m'.read x = m.read x) : m'.readWord a = m.readWord a := by
  unfold Memory.readWord
  rw [h a (by omega) (by omega), h (a + 1) (by omega) (by omega), h (a + 2) (by omega) (by omega),
    h (a + 3) (by omega) (by omega)]

/-- Writing channels keeps the canonical form. -/
theorem Memory.wf_writeChannels (n : Nat) (ws : List Word) {m : Memory} (h : m.wf) :
    (Memory.writeChannels n ws m).wf := by
  induction n with
  | zero => exact h
  | succ c ih => exact Memory.wf_writeWords ih

/-- A byte that lies in no written channel's words reads as before. -/
theorem Memory.read_writeChannels_outside (n : Nat) (ws : List Word) (m : Memory) (x : Nat)
    (h : ∀ c < n, x < outbufOffset c 0 ∨ outbufOffset c 0 + 4 * ws.length ≤ x) :
    (Memory.writeChannels n ws m).read x = m.read x := by
  induction n with
  | zero => rfl
  | succ c ih =>
    show (Memory.writeWords (outbufOffset c 0) ws (Memory.writeChannels c ws m)).read x = m.read x
    rw [Memory.read_writeWords_outside (h c (by omega)), ih fun d hd => h d (by omega)]

/-- Every written channel holds the block's words, when they fit a channel. -/
theorem Memory.readWord_writeChannels {n c j : Nat} (ws : List Word) (m : Memory) (hc : c < n)
    (hj : j < ws.length) (hfit : ws.length ≤ Config.maxBlockCap) :
    (Memory.writeChannels n ws m).readWord (outbufOffset c j) = ws[j] := by
  induction n with
  | zero => omega
  | succ d ih =>
    show (Memory.writeWords (outbufOffset d 0) ws (Memory.writeChannels d ws m)).readWord _ = _
    have e : outbufOffset c j = outbufOffset c 0 + 4 * j := by unfold outbufOffset; omega
    by_cases h : c = d
    · subst h
      rw [e, Memory.readWord_writeWords hj]
    · rw [Memory.readWord_congr (m := Memory.writeChannels d ws m), ih (by omega)]
      intro x h1 h2
      apply Memory.read_writeWords_outside
      unfold outbufOffset at *
      unfold Config.maxBlockCap at hfit
      omega

/-- Writing nothing to a canonical memory leaves it as it is. -/
theorem Memory.writeBytes_nil {a : Nat} {m : Memory} (h : m.wf) : Memory.writeBytes a [] m = m := by
  unfold Memory.writeBytes
  simp only [Memory.cells, List.append_nil, List.length_nil, Nat.add_zero]
  have hs := h.1
  clear h
  induction m with
  | nil => rfl
  | cons c m ih =>
    rw [List.map_cons, List.pairwise_cons] at hs
    by_cases hc : c.1 < a
    · rw [List.filter_cons_of_pos (by simpa using hc), List.filter_cons_of_neg (by simpa using hc),
        List.cons_append, ih hs.2]
    · have h1 : m.filter (fun x => x.1 < a) = [] := by
        rw [List.filter_eq_nil_iff]
        intro x hx
        have := hs.1 x.1 (List.mem_map_of_mem hx)
        simp
        omega
      have h2 : m.filter (fun x => a ≤ x.1) = m := by
        rw [List.filter_eq_self]
        intro x hx
        have := hs.1 x.1 (List.mem_map_of_mem hx)
        simp
        omega
      rw [List.filter_cons_of_neg (by simpa using hc), List.filter_cons_of_pos (by simp; omega), h1, h2]
      rfl

theorem Memory.writeChannels_nil (n : Nat) {m : Memory} (h : m.wf) : Memory.writeChannels n [] m = m := by
  induction n with
  | zero => rfl
  | succ n ih =>
    unfold Memory.writeChannels Memory.writeWords
    rw [ih]
    exact Memory.writeBytes_nil h

end Sys2Proof.Machine
end

