-- ==== Sys2Proof/Laws/Envelope.lean ====
section
/-! SUPPORT. The envelope unit: the segment's ends and bounds, what a tick, a gate event, a hard reset and
an update do, and that each keeps a unit in its ranges. -/

namespace Sys2Proof.Machine

/-- A segment starts at its start level. -/
theorem segLevel_zero (start target n : Nat) : segLevel start target 0 n = start := by
  simp [segLevel, fdiv]

/-- A segment ends at its target level. -/
theorem segLevel_end (start target : Nat) {n : Nat} (h : 0 < n) : segLevel start target n n = target := by
  unfold segLevel fdiv
  rw [Int.mul_ediv_cancel _ (by omega)]
  omega

/-- A segment stays between its two ends. -/
theorem segLevel_between (start target : Nat) {k n : Nat} (hk : k ≤ n) (hn : 0 < n) :
    min (start : Int) target ≤ segLevel start target k n ∧
      segLevel start target k n ≤ max (start : Int) target := by
  unfold segLevel fdiv
  have hn' : (0 : Int) < n := by exact_mod_cast hn
  have hk' : (k : Int) ≤ n := by exact_mod_cast hk
  have hk0 : (0 : Int) ≤ k := by omega
  rcases Nat.le_total start target with h | h
  · have hd : (0 : Int) ≤ (target : Int) - start := by omega
    have h0 : 0 ≤ ((target : Int) - start) * k / n := Int.ediv_nonneg (mul_nonneg hd hk0) hn'.le
    have h1 : ((target : Int) - start) * k / n ≤ (target : Int) - start :=
      Int.ediv_le_of_le_mul hn' (by nlinarith)
    omega
  · have hd : (target : Int) - start ≤ 0 := by omega
    have h0 : ((target : Int) - start) * k / n ≤ 0 :=
      Int.ediv_le_of_le_mul hn' (by nlinarith)
    have h1 : (target : Int) - start ≤ ((target : Int) - start) * k / n :=
      (Int.le_ediv_iff_mul_le hn').2 (by nlinarith)
    omega

/-- A level register holds any integer in 0..ONE exactly. -/
theorem toNat_ofInt_level {x : Int} (h0 : 0 ≤ x) (h1 : x ≤ 16777216) :
    ((BitVec.ofInt 25 x).toNat : Int) = x := by
  rw [BitVec.toNat_ofInt]
  omega

/-- A sample counter below a segment's length does not wrap. -/
theorem Env.k_succ {e : Env} (h : e.k < e.n) : (e.k + 1).toNat = e.k.toNat + 1 := by
  have h1 := e.n.isLt
  have h2 : e.k.toNat < e.n.toNat := h
  rw [BitVec.toNat_add]
  simp
  omega

/-- A tick in IDLE changes nothing (R156). -/
theorem Env.tick_idle {e : Env} (h : e.stage = .idle) : e.tick = e := by
  unfold Env.tick
  rw [h]

/-- A tick elsewhere advances along the segment and then completes it if it is at its end (R156). -/
theorem Env.tick_running {e : Env} (h : e.stage ≠ .idle) : e.tick = e.advance.complete := by
  unfold Env.tick
  cases hs : e.stage <;> simp_all

/-- A tick keeps the four parameters (R156). -/
theorem Env.tick_params (e : Env) :
    e.tick.na = e.na ∧ e.tick.nd = e.nd ∧ e.tick.nr = e.nr ∧ e.tick.sus = e.sus := by
  by_cases h : e.stage = .idle
  · rw [Env.tick_idle h]
    exact ⟨rfl, rfl, rfl, rfl⟩
  · rw [Env.tick_running h]
    have hc : ∀ d : Env,
        d.complete.na = d.na ∧ d.complete.nd = d.nd ∧ d.complete.nr = d.nr ∧ d.complete.sus = d.sus := by
      intro d
      unfold Env.complete
      split
      · split <;> exact ⟨rfl, rfl, rfl, rfl⟩
      · exact ⟨rfl, rfl, rfl, rfl⟩
    have ha : e.advance.na = e.na ∧ e.advance.nd = e.nd ∧ e.advance.nr = e.nr ∧
        e.advance.sus = e.sus := by
      unfold Env.advance
      split <;> exact ⟨rfl, rfl, rfl, rfl⟩
    obtain ⟨h1, h2, h3, h4⟩ := hc e.advance
    exact ⟨h1.trans ha.1, h2.trans ha.2.1, h3.trans ha.2.2.1, h4.trans ha.2.2.2⟩

/-- The ranges of a unit's four parameters (R151). -/
abbrev EnvParams.InRange (q : EnvParams) : Prop :=
  80 ≤ q.na.toNat ∧ q.na.toNat ≤ 960000 ∧ 80 ≤ q.nd.toNat ∧ q.nd.toNat ≤ 960000 ∧
    80 ≤ q.nr.toNat ∧ q.nr.toNat ≤ 960000 ∧ q.sus.toNat ≤ 16777216

/-- A fresh segment from the current level: how gate events, completions and updates build one. -/
theorem segLevel_fresh (l t n : Nat) : (l : Int) = segLevel l t (0#20).toNat n := by
  simpa using (segLevel_zero l t n).symm

/-- gate_on keeps a unit in its ranges (R153). -/
theorem Env.gateOn_inRange {e : Env} (h : e.InRange) : e.gateOn.InRange := by
  obtain ⟨hp, ⟨-, -, hl⟩, -⟩ := h
  refine ⟨hp, ⟨hl, by simp [Env.gateOn, levelOne], hl⟩, ⟨?_, ?_, by simp [Env.gateOn]⟩, segLevel_fresh _ _ _, ?_⟩
  · simp only [Env.gateOn]; omega
  · simp only [Env.gateOn]; omega
  · simp only [Env.gateOn, reduceCtorEq, false_implies, true_and, and_true, forall_const]
    show (0#20).toNat < e.na.toNat
    simp
    omega

/-- hard_reset keeps a unit in its ranges (R155). -/
theorem Env.hardReset_inRange {e : Env}
    (h : (⟨e.na, e.nd, e.sus, e.nr⟩ : EnvParams).InRange) : e.hardReset.InRange := by
  refine ⟨h, by simp [Env.hardReset], by simp [Env.hardReset], ?_, by simp [Env.hardReset]⟩
  exact segLevel_fresh 0 0 1

/-- gate_off keeps a unit in its ranges (R154). -/
theorem Env.gateOff_inRange {e : Env} (h : e.InRange) : e.gateOff.InRange := by
  have hfresh : ∀ d : Env, d = { e with stage := .release, start := e.level, target := 0, k := 0, n := e.nr } →
      d.InRange := by
    rintro d rfl
    obtain ⟨hp, ⟨-, -, hl⟩, -⟩ := h
    refine ⟨hp, ⟨hl, by simp, hl⟩, ⟨?_, ?_, by simp⟩, segLevel_fresh _ _ _, ?_⟩
    · simp only; omega
    · simp only; omega
    · simp only [reduceCtorEq, false_implies, true_and, forall_const]
      show (0#20).toNat < e.nr.toNat
      simp
      omega
  unfold Env.gateOff
  split
  · exact hfresh _ rfl
  · exact hfresh _ rfl
  · exact hfresh _ rfl
  · exact h
  · exact h

/-- One sample along a segment keeps the level on it, and inside 0..ONE (R152, R156). -/
theorem Env.advance_spec {e : Env} (h : e.InRange) :
    e.advance.stage = e.stage ∧ e.advance.start = e.start ∧ e.advance.target = e.target ∧
      e.advance.n = e.n ∧ e.advance.na = e.na ∧ e.advance.nd = e.nd ∧ e.advance.nr = e.nr ∧
      e.advance.sus = e.sus ∧ e.advance.level.toNat ≤ 16777216 ∧ e.advance.k.toNat ≤ e.n.toNat ∧
      e.advance.k.toNat = min e.n.toNat (e.k.toNat + 1) ∧
      (e.advance.level.toNat : Int) =
        segLevel e.start.toNat e.target.toNat e.advance.k.toNat e.n.toNat := by
  obtain ⟨hp, ⟨hs, ht, hl⟩, ⟨hn1, hn2, hk⟩, hseg, -⟩ := h
  unfold Env.advance
  split
  · rename_i hlt
    have hk' := Env.k_succ hlt
    have hlt' : e.k.toNat < e.n.toNat := hlt
    obtain ⟨hb1, hb2⟩ := segLevel_between e.start.toNat e.target.toNat (k := e.k.toNat + 1)
      (n := e.n.toNat) (by omega) (by omega)
    have hx := toNat_ofInt_level (x := segLevel e.start.toNat e.target.toNat (e.k.toNat + 1) e.n.toNat)
      (by omega) (by omega)
    refine ⟨rfl, rfl, rfl, rfl, rfl, rfl, rfl, rfl, ?_, ?_, ?_, ?_⟩
    · show (BitVec.ofInt 25 _).toNat ≤ _
      omega
    · show (e.k + 1).toNat ≤ _
      omega
    · show (e.k + 1).toNat = _
      omega
    · show ((BitVec.ofInt 25 _).toNat : Int) = _
      rw [hx]
      show _ = segLevel _ _ (e.k + 1).toNat _
      rw [hk']
  · rename_i hlt
    have hlt' : ¬ e.k.toNat < e.n.toNat := hlt
    exact ⟨rfl, rfl, rfl, rfl, rfl, rfl, rfl, rfl, hl, hk, by omega, hseg⟩

/-- A tick keeps a unit in its ranges (R156, R164). -/
theorem Env.tick_inRange {e : Env} (h : e.InRange) : e.tick.InRange := by
  by_cases hi : e.stage = .idle
  · rwa [Env.tick_idle hi]
  rw [Env.tick_running hi]
  obtain ⟨a1, a2, a3, a4, a5, a6, a7, a8, a9, a10, a11, a12⟩ := Env.advance_spec h
  obtain ⟨hp, ⟨hs, ht, hl⟩, ⟨hn1, hn2, hk⟩, hseg, g0, g1, g2, g3, g4⟩ := h
  generalize e.advance = d at *
  have hp' : (80 ≤ d.na.toNat ∧ d.na.toNat ≤ 960000 ∧ 80 ≤ d.nd.toNat ∧ d.nd.toNat ≤ 960000 ∧
      80 ≤ d.nr.toNat ∧ d.nr.toNat ≤ 960000 ∧ d.sus.toNat ≤ 16777216) := by
    rw [a5, a6, a7, a8]; exact hp
  have ht' : d.target.toNat ≤ 16777216 := by rw [a3]; exact ht
  have hs' : d.start.toNat ≤ 16777216 := by rw [a2]; exact hs
  have hn1' : 1 ≤ d.n.toNat := by rw [a4]; exact hn1
  have hn2' : d.n.toNat ≤ 960000 := by rw [a4]; exact hn2
  have hk' : d.k.toNat ≤ d.n.toNat := by rw [a4]; exact a10
  have hseg' : (d.level.toNat : Int) = segLevel d.start.toNat d.target.toNat d.k.toNat d.n.toNat := by
    rw [a2, a3, a4]; exact a12
  have g1' : d.stage = .attack → d.target = levelOne := fun x => by rw [a3]; exact (g1 (a1 ▸ x)).1
  have g2' : d.stage = .decay → d.target = d.sus := fun x => by rw [a3, a8]; exact (g2 (a1 ▸ x)).1
  have g3' : d.stage = .sustain → d.target = d.sus := fun x => by rw [a3, a8]; exact g3 (a1 ▸ x)
  have g4' : d.stage = .release → d.target = 0 := fun x => by rw [a3]; exact (g4 (a1 ▸ x)).1
  have hi' : d.stage ≠ .idle := by rw [a1]; exact hi
  unfold Env.complete
  split
  · rename_i hkn
    have hend : (d.level.toNat : Int) = d.target.toNat := by
      rw [hseg', hkn]
      exact segLevel_end _ _ (by omega)
    split
    · refine ⟨hp', ⟨a9, hp'.2.2.2.2.2.2, a9⟩, ⟨by simp only; omega, by simp only; omega, by simp⟩,
        segLevel_fresh _ _ _, ?_⟩
      simp only [reduceCtorEq, false_implies, true_and, forall_const, and_true]
      show (0#20).toNat < d.nd.toNat
      simp
      omega
    · rename_i hst
      exact ⟨hp', ⟨hs', ht', a9⟩, ⟨hn1', hn2', hk'⟩, hseg', by simp [g2' hst]⟩
    · rename_i hst
      exact ⟨hp', ⟨hs', ht', a9⟩, ⟨hn1', hn2', hk'⟩, hseg', by simp [hst, g3' hst]⟩
    · rename_i hst
      refine ⟨hp', ⟨hs', ht', a9⟩, ⟨hn1', hn2', hk'⟩, hseg', ?_⟩
      simp only [reduceCtorEq, false_implies, and_true, forall_const]
      rw [g4' hst] at hend
      apply BitVec.eq_of_toNat_eq
      simpa using hend
    · rename_i hst
      exact absurd hst hi'
  · rename_i hkn
    have hlt : d.k < d.n := by
      show d.k.toNat < d.n.toNat
      have : d.k.toNat ≠ d.n.toNat := fun x => hkn (BitVec.eq_of_toNat_eq x)
      omega
    exact ⟨hp', ⟨hs', ht', a9⟩, ⟨hn1', hn2', hk'⟩, hseg', fun x => absurd x hi',
      fun x => ⟨g1' x, hlt⟩, fun x => ⟨g2' x, hlt⟩, g3', fun x => ⟨g4' x, hlt⟩⟩

/-- A re-planned segment in its ranges: the level as its start and the counter at 0 (R162). -/
theorem Env.update_inRange {e : Env} {q : EnvParams} (h : e.InRange) (hq : q.InRange) :
    (e.update q).InRange := by
  obtain ⟨hp, ⟨hs, ht, hl⟩, ⟨hn1, hn2, hk⟩, hseg, g0, g1, g2, g3, g4⟩ := h
  obtain ⟨q1, q2, q3, q4, q5, q6, q7⟩ := hq
  have z : ∀ {n : BitVec 20}, 80 ≤ n.toNat → (0#20) < n := fun {n} hn => by
    show (0#20).toNat < n.toNat
    simp
    omega
  have z' : ∀ {n : BitVec 20}, (0#20).toNat ≤ n.toNat := fun {n} => by simp
  unfold Env.update Env.replan
  cases hst : e.stage
  · simp only
    exact ⟨⟨q1, q2, q3, q4, q5, q6, q7⟩, ⟨hs, ht, hl⟩, ⟨hn1, hn2, hk⟩, hseg, fun _ => g0 hst,
      by simp [hst]⟩
  · simp only
    split
    · exact ⟨⟨q1, q2, q3, q4, q5, q6, q7⟩, ⟨hs, ht, hl⟩, ⟨hn1, hn2, hk⟩, hseg, by simp [hst, g1 hst]⟩
    · refine ⟨⟨q1, q2, q3, q4, q5, q6, q7⟩, ⟨hl, ht, hl⟩, ⟨by simp only; omega, q2, z'⟩,
        segLevel_fresh _ _ _, ?_⟩
      simp [(g1 hst).1]
      exact z q1
  · simp only
    split
    · rename_i hh
      exact ⟨⟨q1, q2, q3, q4, q5, q6, q7⟩, ⟨hs, ht, hl⟩, ⟨hn1, hn2, hk⟩, hseg,
        by simp [hst, g2 hst, hh]⟩
    · refine ⟨⟨q1, q2, q3, q4, q5, q6, q7⟩, ⟨hl, q7, hl⟩, ⟨by simp only; omega, q4, z'⟩,
        segLevel_fresh _ _ _, ?_⟩
      simp
      exact z q3
  · simp only
    split
    · rename_i hh
      exact ⟨⟨q1, q2, q3, q4, q5, q6, q7⟩, ⟨hs, ht, hl⟩, ⟨hn1, hn2, hk⟩, hseg, by simp [hst, g3 hst, hh]⟩
    · exact ⟨⟨q1, q2, q3, q4, q5, q6, q7⟩, ⟨hl, q7, hl⟩, ⟨by simp only; omega, q4, z'⟩,
        segLevel_fresh _ _ _, by simp⟩
  · simp only
    split
    · exact ⟨⟨q1, q2, q3, q4, q5, q6, q7⟩, ⟨hs, ht, hl⟩, ⟨hn1, hn2, hk⟩, hseg, by simp [hst, g4 hst]⟩
    · refine ⟨⟨q1, q2, q3, q4, q5, q6, q7⟩, ⟨hl, ht, hl⟩, ⟨by simp only; omega, q6, z'⟩,
        segLevel_fresh _ _ _, ?_⟩
      simp [(g4 hst).1]
      exact z q5

/-- n ticks keep a unit in its ranges. -/
theorem Env.iter_tick_inRange (n : Nat) {e : Env} (h : e.InRange) : (iter Env.tick n e).InRange := by
  induction n generalizing e with
  | zero => exact h
  | succ n ih => exact ih (Env.tick_inRange h)

/-- n ticks keep the four parameters. -/
theorem Env.iter_tick_params (n : Nat) (e : Env) :
    (iter Env.tick n e).na = e.na ∧ (iter Env.tick n e).nd = e.nd ∧ (iter Env.tick n e).nr = e.nr ∧
      (iter Env.tick n e).sus = e.sus := by
  induction n generalizing e with
  | zero => exact ⟨rfl, rfl, rfl, rfl⟩
  | succ n ih =>
    obtain ⟨h1, h2, h3, h4⟩ := ih e.tick
    obtain ⟨g1, g2, g3, g4⟩ := Env.tick_params e
    exact ⟨h1.trans g1, h2.trans g2, h3.trans g3, h4.trans g4⟩

/-- The derived lengths and levels of legal parameters lie in R151's ranges. -/
theorem envParams_inRange {a d s r fs : BitVec 18} (ha : 10 ≤ a.toNat ∧ a.toNat ≤ 5000)
    (hd : 10 ≤ d.toNat ∧ d.toNat ≤ 5000) (hs : s.toNat ≤ 1000) (hr : 10 ≤ r.toNat ∧ r.toNat ≤ 5000)
    (hf : 8000 ≤ fs.toNat ∧ fs.toNat ≤ 192000) : (envParams a d s r fs).InRange := by
  have key : ∀ {x : Nat}, 10 ≤ x ∧ x ≤ 5000 → 80000 ≤ x * fs.toNat ∧ x * fs.toNat ≤ 960000000 :=
    fun {x} hx => ⟨by nlinarith [hx.1, hf.1], by nlinarith [hx.2, hf.2]⟩
  obtain ⟨a1, a2⟩ := key ha
  obtain ⟨d1, d2⟩ := key hd
  obtain ⟨r1, r2⟩ := key hr
  have hs' : s.toNat * 2 ^ 24 / 1000 ≤ 16777216 := by
    rw [show (2 : Nat) ^ 24 = 16777216 by norm_num]
    omega
  unfold envParams mceil mround sustainLevel EnvParams.InRange
  simp only [BitVec.toNat_ofNat]
  rw [Nat.mod_eq_of_lt (show s.toNat * 2 ^ 24 / 1000 < 2 ^ 25 by omega)]
  omega

/-- A gate off keeps the four parameters (R154). -/
theorem Env.gateOff_params (e : Env) :
    e.gateOff.na = e.na ∧ e.gateOff.nd = e.nd ∧ e.gateOff.nr = e.nr ∧ e.gateOff.sus = e.sus := by
  unfold Env.gateOff
  split <;> simp

/-- A gate off ends in RELEASE, but for an IDLE unit (R154). -/
theorem Env.gateOff_stage (e : Env) : e.gateOff.stage = if e.stage = .idle then .idle else .release := by
  unfold Env.gateOff
  split <;> simp_all

/-- A hard reset does not see a gate off before it (R155). -/
theorem Env.gateOff_hardReset (e : Env) : e.gateOff.hardReset = e.hardReset := by
  obtain ⟨a, b, c, d⟩ := Env.gateOff_params e
  unfold Env.hardReset
  simp [a, b, c, d]

/-- An update keeps the stage and the level (R162). -/
theorem Env.update_keeps (e : Env) (q : EnvParams) :
    (e.update q).stage = e.stage ∧ (e.update q).level = e.level := by
  unfold Env.update Env.replan
  cases h : e.stage <;> simp only [h] <;> (try split) <;> simp [h]

/-- An update stores the four parameters (R162). -/
theorem Env.update_params (e : Env) (q : EnvParams) :
    (⟨(e.update q).na, (e.update q).nd, (e.update q).sus, (e.update q).nr⟩ : EnvParams) = q := rfl

end Sys2Proof.Machine
end

