-- ==== Sys2Proof/Laws/State.lean ====
section
/-! SUPPORT. One lemma per field per named update of the state, true by rfl, and the voices of an updated
state. -/

namespace Sys2Proof.Machine

@[simp] theorem State.setFlag_ctrl (s : State) (f : Flag) : (s.setFlag f).ctrl = s.ctrl := rfl
@[simp] theorem State.setFlag_blockCount (s : State) (f : Flag) : (s.setFlag f).blockCount = s.blockCount := rfl
@[simp] theorem State.setFlag_lastIllegal (s : State) (f : Flag) : (s.setFlag f).lastIllegal = s.lastIllegal := rfl
@[simp] theorem State.setFlag_cmdq (s : State) (f : Flag) : (s.setFlag f).cmdq = s.cmdq := rfl
@[simp] theorem State.setFlag_executing (s : State) (f : Flag) : (s.setFlag f).executing = s.executing := rfl
@[simp] theorem State.setFlag_stg (s : State) (f : Flag) : (s.setFlag f).stg = s.stg := rfl
@[simp] theorem State.setFlag_act (s : State) (f : Flag) : (s.setFlag f).act = s.act := rfl
@[simp] theorem State.setFlag_fs (s : State) (f : Flag) : (s.setFlag f).fs = s.fs := rfl
@[simp] theorem State.setFlag_maxblk (s : State) (f : Flag) : (s.setFlag f).maxblk = s.maxblk := rfl
@[simp] theorem State.setFlag_nch (s : State) (f : Flag) : (s.setFlag f).nch = s.nch := rfl
@[simp] theorem State.setFlag_derived (s : State) (f : Flag) : (s.setFlag f).derived = s.derived := rfl
@[simp] theorem State.setFlag_voices (s : State) (f : Flag) : (s.setFlag f).voices = s.voices := rfl
@[simp] theorem State.setFlag_seq (s : State) (f : Flag) : (s.setFlag f).seq = s.seq := rfl
@[simp] theorem State.setFlag_lfoPhase (s : State) (f : Flag) : (s.setFlag f).lfoPhase = s.lfoPhase := rfl
@[simp] theorem State.setFlag_evq (s : State) (f : Flag) : (s.setFlag f).evq = s.evq := rfl
@[simp] theorem State.setFlag_outbuf (s : State) (f : Flag) : (s.setFlag f).outbuf = s.outbuf := rfl
@[simp] theorem State.setFlag_schedule (s : State) (f : Flag) : (s.setFlag f).schedule = s.schedule := rfl
@[simp] theorem State.setFlag_response (s : State) (f : Flag) : (s.setFlag f).response = s.response := rfl
@[simp] theorem State.setFlag_status (s : State) (f : Flag) : (s.setFlag f).status = s.status ||| (1#32 <<< f.bit) := rfl

@[simp] theorem raise_ctrl (s : State) (f : Flag) : (raise f s).ctrl = s.ctrl := rfl
@[simp] theorem raise_blockCount (s : State) (f : Flag) : (raise f s).blockCount = s.blockCount := rfl
@[simp] theorem raise_lastIllegal (s : State) (f : Flag) : (raise f s).lastIllegal = s.lastIllegal := rfl
@[simp] theorem raise_cmdq (s : State) (f : Flag) : (raise f s).cmdq = s.cmdq := rfl
@[simp] theorem raise_executing (s : State) (f : Flag) : (raise f s).executing = s.executing := rfl
@[simp] theorem raise_stg (s : State) (f : Flag) : (raise f s).stg = s.stg := rfl
@[simp] theorem raise_act (s : State) (f : Flag) : (raise f s).act = s.act := rfl
@[simp] theorem raise_fs (s : State) (f : Flag) : (raise f s).fs = s.fs := rfl
@[simp] theorem raise_maxblk (s : State) (f : Flag) : (raise f s).maxblk = s.maxblk := rfl
@[simp] theorem raise_nch (s : State) (f : Flag) : (raise f s).nch = s.nch := rfl
@[simp] theorem raise_derived (s : State) (f : Flag) : (raise f s).derived = s.derived := rfl
@[simp] theorem raise_voices (s : State) (f : Flag) : (raise f s).voices = s.voices := rfl
@[simp] theorem raise_seq (s : State) (f : Flag) : (raise f s).seq = s.seq := rfl
@[simp] theorem raise_lfoPhase (s : State) (f : Flag) : (raise f s).lfoPhase = s.lfoPhase := rfl
@[simp] theorem raise_evq (s : State) (f : Flag) : (raise f s).evq = s.evq := rfl
@[simp] theorem raise_outbuf (s : State) (f : Flag) : (raise f s).outbuf = s.outbuf := rfl
@[simp] theorem raise_schedule (s : State) (f : Flag) : (raise f s).schedule = s.schedule := rfl
@[simp] theorem raise_response (s : State) (f : Flag) : (raise f s).response = s.response := rfl
@[simp] theorem raise_status (s : State) (f : Flag) : (raise f s).status = s.status ||| (1#32 <<< f.bit) := rfl

@[simp] theorem raiseIllegal_ctrl (s : State) (w : Word) : (raiseIllegal w s).ctrl = s.ctrl := rfl
@[simp] theorem raiseIllegal_blockCount (s : State) (w : Word) : (raiseIllegal w s).blockCount = s.blockCount := rfl
@[simp] theorem raiseIllegal_cmdq (s : State) (w : Word) : (raiseIllegal w s).cmdq = s.cmdq := rfl
@[simp] theorem raiseIllegal_executing (s : State) (w : Word) : (raiseIllegal w s).executing = s.executing := rfl
@[simp] theorem raiseIllegal_stg (s : State) (w : Word) : (raiseIllegal w s).stg = s.stg := rfl
@[simp] theorem raiseIllegal_act (s : State) (w : Word) : (raiseIllegal w s).act = s.act := rfl
@[simp] theorem raiseIllegal_fs (s : State) (w : Word) : (raiseIllegal w s).fs = s.fs := rfl
@[simp] theorem raiseIllegal_maxblk (s : State) (w : Word) : (raiseIllegal w s).maxblk = s.maxblk := rfl
@[simp] theorem raiseIllegal_nch (s : State) (w : Word) : (raiseIllegal w s).nch = s.nch := rfl
@[simp] theorem raiseIllegal_derived (s : State) (w : Word) : (raiseIllegal w s).derived = s.derived := rfl
@[simp] theorem raiseIllegal_voices (s : State) (w : Word) : (raiseIllegal w s).voices = s.voices := rfl
@[simp] theorem raiseIllegal_seq (s : State) (w : Word) : (raiseIllegal w s).seq = s.seq := rfl
@[simp] theorem raiseIllegal_lfoPhase (s : State) (w : Word) : (raiseIllegal w s).lfoPhase = s.lfoPhase := rfl
@[simp] theorem raiseIllegal_evq (s : State) (w : Word) : (raiseIllegal w s).evq = s.evq := rfl
@[simp] theorem raiseIllegal_outbuf (s : State) (w : Word) : (raiseIllegal w s).outbuf = s.outbuf := rfl
@[simp] theorem raiseIllegal_schedule (s : State) (w : Word) : (raiseIllegal w s).schedule = s.schedule := rfl
@[simp] theorem raiseIllegal_response (s : State) (w : Word) : (raiseIllegal w s).response = s.response := rfl
@[simp] theorem raiseIllegal_status (s : State) (w : Word) : (raiseIllegal w s).status = s.status ||| 4#32 := rfl
@[simp] theorem raiseIllegal_lastIllegal (s : State) (w : Word) : (raiseIllegal w s).lastIllegal = w := rfl

@[simp] theorem State.setVoice_status (s : State) (v : Fin Config.numVoices) (x : Voice) : (s.setVoice v x).status = s.status := rfl
@[simp] theorem State.setVoice_ctrl (s : State) (v : Fin Config.numVoices) (x : Voice) : (s.setVoice v x).ctrl = s.ctrl := rfl
@[simp] theorem State.setVoice_blockCount (s : State) (v : Fin Config.numVoices) (x : Voice) : (s.setVoice v x).blockCount = s.blockCount := rfl
@[simp] theorem State.setVoice_lastIllegal (s : State) (v : Fin Config.numVoices) (x : Voice) : (s.setVoice v x).lastIllegal = s.lastIllegal := rfl
@[simp] theorem State.setVoice_cmdq (s : State) (v : Fin Config.numVoices) (x : Voice) : (s.setVoice v x).cmdq = s.cmdq := rfl
@[simp] theorem State.setVoice_executing (s : State) (v : Fin Config.numVoices) (x : Voice) : (s.setVoice v x).executing = s.executing := rfl
@[simp] theorem State.setVoice_stg (s : State) (v : Fin Config.numVoices) (x : Voice) : (s.setVoice v x).stg = s.stg := rfl
@[simp] theorem State.setVoice_act (s : State) (v : Fin Config.numVoices) (x : Voice) : (s.setVoice v x).act = s.act := rfl
@[simp] theorem State.setVoice_fs (s : State) (v : Fin Config.numVoices) (x : Voice) : (s.setVoice v x).fs = s.fs := rfl
@[simp] theorem State.setVoice_maxblk (s : State) (v : Fin Config.numVoices) (x : Voice) : (s.setVoice v x).maxblk = s.maxblk := rfl
@[simp] theorem State.setVoice_nch (s : State) (v : Fin Config.numVoices) (x : Voice) : (s.setVoice v x).nch = s.nch := rfl
@[simp] theorem State.setVoice_derived (s : State) (v : Fin Config.numVoices) (x : Voice) : (s.setVoice v x).derived = s.derived := rfl
@[simp] theorem State.setVoice_seq (s : State) (v : Fin Config.numVoices) (x : Voice) : (s.setVoice v x).seq = s.seq := rfl
@[simp] theorem State.setVoice_lfoPhase (s : State) (v : Fin Config.numVoices) (x : Voice) : (s.setVoice v x).lfoPhase = s.lfoPhase := rfl
@[simp] theorem State.setVoice_evq (s : State) (v : Fin Config.numVoices) (x : Voice) : (s.setVoice v x).evq = s.evq := rfl
@[simp] theorem State.setVoice_outbuf (s : State) (v : Fin Config.numVoices) (x : Voice) : (s.setVoice v x).outbuf = s.outbuf := rfl
@[simp] theorem State.setVoice_schedule (s : State) (v : Fin Config.numVoices) (x : Voice) : (s.setVoice v x).schedule = s.schedule := rfl
@[simp] theorem State.setVoice_response (s : State) (v : Fin Config.numVoices) (x : Voice) : (s.setVoice v x).response = s.response := rfl

@[simp] theorem State.writeStatus_ctrl (s : State) (v : Word) : (s.writeStatus v).ctrl = s.ctrl := rfl
@[simp] theorem State.writeStatus_blockCount (s : State) (v : Word) : (s.writeStatus v).blockCount = s.blockCount := rfl
@[simp] theorem State.writeStatus_lastIllegal (s : State) (v : Word) : (s.writeStatus v).lastIllegal = s.lastIllegal := rfl
@[simp] theorem State.writeStatus_cmdq (s : State) (v : Word) : (s.writeStatus v).cmdq = s.cmdq := rfl
@[simp] theorem State.writeStatus_executing (s : State) (v : Word) : (s.writeStatus v).executing = s.executing := rfl
@[simp] theorem State.writeStatus_stg (s : State) (v : Word) : (s.writeStatus v).stg = s.stg := rfl
@[simp] theorem State.writeStatus_act (s : State) (v : Word) : (s.writeStatus v).act = s.act := rfl
@[simp] theorem State.writeStatus_fs (s : State) (v : Word) : (s.writeStatus v).fs = s.fs := rfl
@[simp] theorem State.writeStatus_maxblk (s : State) (v : Word) : (s.writeStatus v).maxblk = s.maxblk := rfl
@[simp] theorem State.writeStatus_nch (s : State) (v : Word) : (s.writeStatus v).nch = s.nch := rfl
@[simp] theorem State.writeStatus_derived (s : State) (v : Word) : (s.writeStatus v).derived = s.derived := rfl
@[simp] theorem State.writeStatus_voices (s : State) (v : Word) : (s.writeStatus v).voices = s.voices := rfl
@[simp] theorem State.writeStatus_seq (s : State) (v : Word) : (s.writeStatus v).seq = s.seq := rfl
@[simp] theorem State.writeStatus_lfoPhase (s : State) (v : Word) : (s.writeStatus v).lfoPhase = s.lfoPhase := rfl
@[simp] theorem State.writeStatus_evq (s : State) (v : Word) : (s.writeStatus v).evq = s.evq := rfl
@[simp] theorem State.writeStatus_outbuf (s : State) (v : Word) : (s.writeStatus v).outbuf = s.outbuf := rfl
@[simp] theorem State.writeStatus_schedule (s : State) (v : Word) : (s.writeStatus v).schedule = s.schedule := rfl
@[simp] theorem State.writeStatus_response (s : State) (v : Word) : (s.writeStatus v).response = s.response := rfl
@[simp] theorem State.writeStatus_status (s : State) (v : Word) : (s.writeStatus v).status = s.status &&& ~~~(v &&& stickyMask) := rfl

@[simp] theorem State.writeCtrl_status (s : State) (v : Word) : (s.writeCtrl v).status = s.status := rfl
@[simp] theorem State.writeCtrl_blockCount (s : State) (v : Word) : (s.writeCtrl v).blockCount = s.blockCount := rfl
@[simp] theorem State.writeCtrl_lastIllegal (s : State) (v : Word) : (s.writeCtrl v).lastIllegal = s.lastIllegal := rfl
@[simp] theorem State.writeCtrl_cmdq (s : State) (v : Word) : (s.writeCtrl v).cmdq = s.cmdq := rfl
@[simp] theorem State.writeCtrl_executing (s : State) (v : Word) : (s.writeCtrl v).executing = s.executing := rfl
@[simp] theorem State.writeCtrl_stg (s : State) (v : Word) : (s.writeCtrl v).stg = s.stg := rfl
@[simp] theorem State.writeCtrl_act (s : State) (v : Word) : (s.writeCtrl v).act = s.act := rfl
@[simp] theorem State.writeCtrl_fs (s : State) (v : Word) : (s.writeCtrl v).fs = s.fs := rfl
@[simp] theorem State.writeCtrl_maxblk (s : State) (v : Word) : (s.writeCtrl v).maxblk = s.maxblk := rfl
@[simp] theorem State.writeCtrl_nch (s : State) (v : Word) : (s.writeCtrl v).nch = s.nch := rfl
@[simp] theorem State.writeCtrl_derived (s : State) (v : Word) : (s.writeCtrl v).derived = s.derived := rfl
@[simp] theorem State.writeCtrl_voices (s : State) (v : Word) : (s.writeCtrl v).voices = s.voices := rfl
@[simp] theorem State.writeCtrl_seq (s : State) (v : Word) : (s.writeCtrl v).seq = s.seq := rfl
@[simp] theorem State.writeCtrl_lfoPhase (s : State) (v : Word) : (s.writeCtrl v).lfoPhase = s.lfoPhase := rfl
@[simp] theorem State.writeCtrl_evq (s : State) (v : Word) : (s.writeCtrl v).evq = s.evq := rfl
@[simp] theorem State.writeCtrl_outbuf (s : State) (v : Word) : (s.writeCtrl v).outbuf = s.outbuf := rfl
@[simp] theorem State.writeCtrl_schedule (s : State) (v : Word) : (s.writeCtrl v).schedule = s.schedule := rfl
@[simp] theorem State.writeCtrl_response (s : State) (v : Word) : (s.writeCtrl v).response = s.response := rfl
@[simp] theorem State.writeCtrl_ctrl (s : State) (v : Word) : (s.writeCtrl v).ctrl = v &&& 0x3#32 := rfl

/-- A voice after one voice is written. -/
theorem State.voice_setVoice (s : State) (v w : Fin Config.numVoices) (x : Voice) :
    (s.setVoice v x).voice w = if v = w then x else s.voice w := by
  simp only [State.voice, State.setVoice, Vector.getElem_set, Fin.ext_iff]

@[simp] theorem State.voice_setVoice_same (s : State) (v : Fin Config.numVoices) (x : Voice) :
    (s.setVoice v x).voice v = x := by simp [State.voice_setVoice]

theorem State.voice_setVoice_ne (s : State) {v w : Fin Config.numVoices} (x : Voice) (h : v ≠ w) :
    (s.setVoice v x).voice w = s.voice w := by simp [State.voice_setVoice, h]

/-- The voices are read through `voices` alone. -/
theorem State.voice_congr {s t : State} (h : s.voices = t.voices) (v : Fin Config.numVoices) :
    s.voice v = t.voice v := by simp [State.voice, h]

@[simp] theorem State.voice_raise (s : State) (f : Flag) (v : Fin Config.numVoices) :
    (raise f s).voice v = s.voice v := rfl

@[simp] theorem State.voice_setFlag (s : State) (f : Flag) (v : Fin Config.numVoices) :
    (s.setFlag f).voice v = s.voice v := rfl

/-- A voice after every voice is replaced at once. -/
@[simp] theorem getElem_mapVoices (f : Fin Config.numVoices → Voice → Voice)
    (vs : Vector Voice Config.numVoices) (v : Fin Config.numVoices) :
    (mapVoices f vs)[v.val] = f v vs[v.val] := by
  fin_cases v <;> rfl

/-- Every voice number is in the list of voice numbers. -/
@[simp] theorem mem_voiceIds (v : Fin Config.numVoices) : v ∈ voiceIds := by
  fin_cases v <;> decide

/-- Setting a flag sets that bit and no other. -/
theorem State.flag_setFlag (s : State) (f g : Flag) : (s.setFlag f).flag g = (s.flag g || f == g) := by
  simp only [State.flag, State.setFlag, BitVec.getLsbD_or]
  cases f <;> cases g <;> rfl

@[simp] theorem State.flag_raise (s : State) (f g : Flag) : (raise f s).flag g = (s.flag g || f == g) :=
  State.flag_setFlag s f g

end Sys2Proof.Machine
end

