-- ==== Sys2Proof/Laws/Ops.lean ====
section
/-! SUPPORT. What the shared operations can do, said once each: sequencing, loops over the voices, the
choice of a voice, stamps, SET_PARAM's store, the queues. -/

namespace Sys2Proof.Machine

@[simp] theorem andThen_next (s : State) (f : State → Result) : andThen (.next s) f = f s := rfl

@[simp] theorem andThen_refused (x : Refusal) (f : State → Result) :
    andThen (.refused x) f = .refused x := rfl

@[simp] theorem andThen_fault (x : Fault) (f : State → Result) : andThen (.fault x) f = .fault x := rfl

/-- A sequence answers next exactly when both parts do. -/
theorem andThen_eq_next {r : Result} {f : State → Result} {t : State} :
    andThen r f = .next t ↔ ∃ s, r = .next s ∧ f s = .next t := by
  cases r <;> simp [andThen]

/-- A loop over voices keeps what each turn of it keeps. -/
theorem forVoices_induct {f : Fin Config.numVoices → State → Result} {P : State → Prop}
    (hf : ∀ v s t, P s → f v s = .next t → P t) {vs : List (Fin Config.numVoices)} {s t : State}
    (hs : P s) (h : forVoices f vs s = .next t) : P t := by
  induction vs generalizing s with
  | nil => simp only [forVoices, Host.Outcome.next.injEq] at h; exact h ▸ hs
  | cons v vs ih =>
    obtain ⟨u, hu, h⟩ := andThen_eq_next.1 h
    exact ih (hf v s u hs hu) h

/-- A loop over voices completes when each turn does, with a measure that each turn lets grow by 1. -/
theorem forVoices_completes {f : Fin Config.numVoices → State → Result} {room : State → Nat → Prop}
    (hf : ∀ v s n, room s (n + 1) → ∃ t, f v s = .next t ∧ room t n)
    {vs : List (Fin Config.numVoices)} {s : State} {n : Nat} (h : room s (n + vs.length)) :
    ∃ t, forVoices f vs s = .next t ∧ room t n := by
  induction vs generalizing s with
  | nil => exact ⟨s, rfl, h⟩
  | cons v vs ih =>
    obtain ⟨u, hu, hr⟩ := hf v s (n + vs.length) (by simpa [Nat.add_assoc] using h)
    obtain ⟨t, ht, hr⟩ := ih hr
    exact ⟨t, by rw [forVoices, hu]; exact ht, hr⟩

/-- `argMin` answers none only for an empty list. -/
theorem argMin_eq_none {key : Fin Config.numVoices → Nat} {vs : List (Fin Config.numVoices)} :
    argMin key vs = none ↔ vs = [] := by
  cases vs with
  | nil => simp [argMin]
  | cons v vs =>
    simp only [argMin, reduceCtorEq, iff_false]
    cases argMin key vs with
    | none => simp
    | some w => simp only; split <;> simp

/-- The chosen voice is in the list and has the smallest key. -/
theorem argMin_spec {key : Fin Config.numVoices → Nat} {vs : List (Fin Config.numVoices)}
    {v : Fin Config.numVoices} (h : argMin key vs = some v) : v ∈ vs ∧ ∀ w ∈ vs, key v ≤ key w := by
  induction vs generalizing v with
  | nil => simp [argMin] at h
  | cons x xs ih =>
    unfold argMin at h
    split at h
    · rename_i hn
      rw [argMin_eq_none] at hn
      subst hn
      simp only [Option.some.injEq] at h
      subst h
      simp
    · rename_i w hw
      obtain ⟨hm, hle⟩ := ih hw
      split at h <;> simp only [Option.some.injEq] at h <;> subst h
      · refine ⟨by simp, fun y hy => ?_⟩
        rcases List.mem_cons.1 hy with rfl | hy
        · exact le_refl _
        · exact le_trans (by assumption) (hle y hy)
      · refine ⟨by simp [hm], fun y hy => ?_⟩
        rcases List.mem_cons.1 hy with rfl | hy
        · omega
        · exact hle y hy

/-- Among equal keys the first of the list is chosen: in a rising list, the smallest voice number. -/
theorem argMin_first {key : Fin Config.numVoices → Nat} {vs : List (Fin Config.numVoices)}
    {v : Fin Config.numVoices} (hs : vs.Pairwise (· < ·)) (h : argMin key vs = some v) :
    ∀ w ∈ vs, key w = key v → v ≤ w := by
  induction vs generalizing v with
  | nil => simp
  | cons x xs ih =>
    obtain ⟨hx, hxs⟩ := List.pairwise_cons.1 hs
    unfold argMin at h
    split at h
    · rename_i hn
      rw [argMin_eq_none] at hn
      subst hn
      simp only [Option.some.injEq] at h
      subst h
      intro w hw _
      simp at hw
      exact le_of_eq hw.symm
    · rename_i u hu
      split at h <;> rename_i hk <;> simp only [Option.some.injEq] at h <;> subst h <;> intro w hw e
      · rcases List.mem_cons.1 hw with rfl | hw
        · exact le_refl _
        · exact le_of_lt (hx w hw)
      · rcases List.mem_cons.1 hw with rfl | hw
        · omega
        · exact ih hxs hu w hw e

theorem voiceIds_sorted : voiceIds.Pairwise (· < ·) := by decide

/-- next_seq() steps SEQ by one and changes nothing else. -/
theorem nextSeq_eq_next {s t : State} :
    nextSeq s = .next t ↔ s.seq.toNat < 2 ^ 64 - 1 ∧ t = { s with seq := s.seq + 1 } := by
  have hmax : s.seq = BitVec.allOnes 64 ↔ ¬ s.seq.toNat < 2 ^ 64 - 1 := by
    rw [← BitVec.toNat_inj, BitVec.toNat_allOnes]
    have := s.seq.isLt
    omega
  unfold nextSeq
  split
  · rename_i h
    refine ⟨fun e => ?_, fun e => absurd e.1 (hmax.1 h)⟩
    cases e
  · rename_i h
    rw [hmax, not_not] at h
    simp only [Host.Outcome.next.injEq, h, true_and]
    exact eq_comm

/-- A stamp is the successor of SEQ as a number. -/
theorem seq_succ_toNat {q : BitVec 64} (h : q.toNat < 2 ^ 64 - 1) : (q + 1).toNat = q.toNat + 1 := by
  rw [BitVec.toNat_add]
  simp
  omega

/-- The value SET_PARAM stores is legal (R26: "it only ever holds a value in its legal range"). -/
theorem storedValue_legal (p : ParamId) (val : BitVec 18) :
    p.lo ≤ (storedValue p val).toNat ∧ (storedValue p val).toNat ≤ p.hi := by
  unfold storedValue
  cases p <;> simp only [ParamId.isWaveform, ParamId.lo, ParamId.hi, if_true, Bool.false_eq_true, if_false,
    BitVec.toNat_ofNat] <;> first | omega | (split <;> simp; omega)

/-- stg[] after a store: the written register, and every other as before (R102). -/
theorem Staging.get_set (t : Staging) (c : BitVec 18) (p q : ParamId) :
    (t.set c p).get q = if p = q then c else t.get q := by
  cases p <;> cases q <;> rfl

/-- The configuration registers do not lie in the snapshot, and the others do (R26 to R28). -/
theorem Staging.get_eq_snap {t : Staging} {p : ParamId} (h : p.num < 0x20) :
    t.get p = t.snap.get p := by
  cases p <;> first | rfl | (simp [ParamId.num] at h)

/-- What SET_PARAM changes: stg[] and, when the value is altered, one flag (R102). -/
theorem setParam_eq (p : ParamId) (val : BitVec 18) (s : State) :
    ∃ t, setParam p val s = .next t ∧ t.stg = s.stg.set (storedValue p val) p ∧
      t = { s with stg := t.stg, status := t.status } ∧
      ∀ f, t.flag f = (s.flag f || (f == .errParamClamp && storedValue p val != val)) := by
  unfold setParam
  by_cases h : storedValue p val = val
  · simp only [h, if_true]
    exact ⟨_, rfl, rfl, rfl, fun f => by simp [State.flag]⟩
  · simp only [h, if_false]
    refine ⟨_, rfl, rfl, rfl, fun f => ?_⟩
    rw [State.flag_raise]
    cases f <;> simp [State.flag, h] <;> rfl

/-- What enqueue changes: EVQ, or one flag (R106). -/
theorem enqueue_cases (e : Event) (s : State) :
    (s.evq.length < Config.evqDepth ∧ enqueue e s = { s with evq := s.evq ++ [e] }) ∨
      (Config.evqDepth ≤ s.evq.length ∧ enqueue e s = raise .errEvqOvf s) := by
  unfold enqueue
  split
  · exact .inl ⟨by assumption, rfl⟩
  · exact .inr ⟨by omega, rfl⟩

/-- What a CMD write changes: CMDQ, or one flag (R23). -/
theorem writeCmd_cases (w : Word) (s : State) :
    (s.cmdq.length < Config.cmdqDepth ∧ writeCmd w s = { s with cmdq := s.cmdq ++ [w] }) ∨
      (Config.cmdqDepth ≤ s.cmdq.length ∧ writeCmd w s = raise .errCmdqOvf s) := by
  unfold writeCmd
  split
  · exact .inl ⟨by assumption, rfl⟩
  · exact .inr ⟨by omega, rfl⟩

/-- What fetch takes: the executing word, else the head of CMDQ (R23). -/
theorem fetch_eq_some {s t : State} {w : Word} (h : fetch s = some (w, t)) :
    (s.executing = some w ∧ t = { s with executing := none }) ∨
      (s.executing = none ∧ ∃ q, s.cmdq = w :: q ∧ t = { s with cmdq := q }) := by
  unfold fetch at h
  split at h
  · rename_i w' he
    simp only [Option.some.injEq, Prod.mk.injEq] at h
    obtain ⟨rfl, rfl⟩ := h
    exact .inl ⟨he, rfl⟩
  · rename_i he
    split at h
    · simp at h
    · rename_i w' q hq
      simp only [Option.some.injEq, Prod.mk.injEq] at h
      obtain ⟨rfl, rfl⟩ := h
      exact .inr ⟨he, q, hq, rfl⟩

/-- What issue does: nothing, or the head of CMDQ begins executing (R23). -/
theorem issue_cases (s : State) :
    issue s = s ∨ ∃ w q, s.executing = none ∧ s.cmdq = w :: q ∧
      issue s = { s with cmdq := q, executing := some w } := by
  unfold issue
  split
  · rename_i w q he hq
    exact .inr ⟨w, q, he, hq, rfl⟩
  · exact .inl rfl

end Sys2Proof.Machine
end

