-- ==== Sys2Proof/Laws/Voice.lean ====
section
/-! SUPPORT. What the voice operations can do, said once each: start, stop and the end-of-block free, the
loops over the voices built from them, and what a voice render changes. -/

namespace Sys2Proof.Machine

theorem SameButVoices.trans {s t u : State} (h : SameButVoices s t) (g : SameButVoices t u) :
    SameButVoices s u := by
  unfold SameButVoices at *
  rw [g, h]

theorem SameButVoices.setVoice (s : State) (v : Fin Config.numVoices) (x : Voice) :
    SameButVoices s (s.setVoice v x) := rfl

/-- start_note stamps and writes one voice (R220). -/
theorem startNote_eq_next {v : Fin Config.numVoices} {m vel : BitVec 7} {s t : State} :
    startNote v m vel s = .next t ↔ s.seq.toNat < 2 ^ 64 - 1 ∧
      t = State.setVoice { s with seq := s.seq + 1 } v ((s.voice v).started m vel s.fs (s.seq + 1)) := by
  unfold startNote
  rw [andThen_eq_next]
  constructor
  · rintro ⟨u, hu, h⟩
    obtain ⟨hr, rfl⟩ := nextSeq_eq_next.1 hu
    cases h
    exact ⟨hr, rfl⟩
  · rintro ⟨hr, rfl⟩
    exact ⟨_, nextSeq_eq_next.2 ⟨hr, rfl⟩, rfl⟩

/-- A hard stop stamps and writes one voice (R222). -/
theorem stopNote_hard_eq_next {v : Fin Config.numVoices} {s t : State} :
    stopNote true v s = .next t ↔ s.seq.toNat < 2 ^ 64 - 1 ∧
      t = State.setVoice { s with seq := s.seq + 1 } v ((s.voice v).hardStopped (s.seq + 1)) := by
  unfold stopNote
  rw [if_pos rfl, andThen_eq_next]
  constructor
  · rintro ⟨u, hu, h⟩
    obtain ⟨hr, rfl⟩ := nextSeq_eq_next.1 hu
    cases h
    exact ⟨hr, rfl⟩
  · rintro ⟨hr, rfl⟩
    exact ⟨_, nextSeq_eq_next.2 ⟨hr, rfl⟩, rfl⟩

/-- A tail-off stop writes one voice and takes no stamp (R222). -/
theorem stopNote_tail (v : Fin Config.numVoices) (s : State) :
    stopNote false v s = .next (s.setVoice v (s.voice v).released) := rfl

/-- The freeing of a voice stamps and writes it, when its amplitude envelope is done (R257). -/
theorem freeVoice_eq_next {v : Fin Config.numVoices} {s t : State} :
    freeVoice v s = .next t ↔
      if (s.voice v).state ≠ .idle ∧ (s.voice v).aenv.stage = .idle then
        s.seq.toNat < 2 ^ 64 - 1 ∧
          t = State.setVoice { s with seq := s.seq + 1 } v
            { s.voice v with state := .idle, freeSeq := s.seq + 1 }
      else t = s := by
  have hc : ((s.voice v).state != .idle && !(s.voice v).aenv.isActive) = true ↔
      (s.voice v).state ≠ .idle ∧ (s.voice v).aenv.stage = .idle := by
    simp [Env.isActive]
  unfold freeVoice
  by_cases h : (s.voice v).state ≠ .idle ∧ (s.voice v).aenv.stage = .idle
  · rw [if_pos (hc.2 h), if_pos h, andThen_eq_next]
    constructor
    · rintro ⟨u, hu, e⟩
      obtain ⟨hr, rfl⟩ := nextSeq_eq_next.1 hu
      cases e
      exact ⟨hr, rfl⟩
    · rintro ⟨hr, rfl⟩
      exact ⟨_, nextSeq_eq_next.2 ⟨hr, rfl⟩, rfl⟩
  · rw [if_neg (fun x => h (hc.1 x)), if_neg h]
    simp only [Host.Outcome.next.injEq]
    exact eq_comm

/-- A loop that writes the voices which meet `p`, without stamps, writes exactly those. -/
theorem forVoices_write {p : Voice → Bool} {g : Voice → Voice}
    {f : Fin Config.numVoices → State → Result}
    (hf : ∀ v s, f v s = .next (if p (s.voice v) then s.setVoice v (g (s.voice v)) else s))
    {vs : List (Fin Config.numVoices)} (hn : vs.Nodup) (s : State) :
    ∃ t, forVoices f vs s = .next t ∧ t = { s with voices := t.voices } ∧
      ∀ w, t.voice w = if w ∈ vs ∧ p (s.voice w) then g (s.voice w) else s.voice w := by
  induction vs generalizing s with
  | nil => exact ⟨s, rfl, rfl, fun w => by simp⟩
  | cons v vs ih =>
    obtain ⟨hv, hn⟩ := List.nodup_cons.1 hn
    obtain ⟨t, ht, hs, hw⟩ := ih hn (if p (s.voice v) then s.setVoice v (g (s.voice v)) else s)
    refine ⟨t, by rw [forVoices, hf, andThen_next, ht], ?_, fun w => ?_⟩
    · rw [hs]; split <;> rfl
    · rw [hw w]
      by_cases hwv : w = v
      · subst hwv
        by_cases hp : p (s.voice w) <;> simp [hv, hp]
      · by_cases hp : p (s.voice v) <;> simp [hwv, hp, State.voice_setVoice_ne _ _ (Ne.symm hwv)]

/-- A loop in index order that stamps and writes the voices which meet `p` writes exactly those, with
consecutive stamps in index order, and steps SEQ once for each. -/
theorem forVoices_stamp {p : Voice → Bool} {g : BitVec 64 → Voice → Voice}
    {f : Fin Config.numVoices → State → Result}
    (hf : ∀ v s, f v s = if p (s.voice v) then
      andThen (nextSeq s) fun t => .next (t.setVoice v (g t.seq (t.voice v))) else .next s)
    {vs : List (Fin Config.numVoices)} (hn : vs.Pairwise (· < ·)) {s t : State}
    (h : forVoices f vs s = .next t) :
    SameButVoices s t ∧
      t.seq.toNat = s.seq.toNat + (vs.filter fun w => p (s.voice w)).length ∧
      ∀ w, t.voice w = if w ∈ vs ∧ p (s.voice w) then
          g (s.seq + BitVec.ofNat 64 (stampRank (fun x => p (s.voice x)) vs w)) (s.voice w)
        else s.voice w := by
  induction vs generalizing s with
  | nil =>
    simp only [forVoices, Host.Outcome.next.injEq] at h
    subst h
    exact ⟨rfl, by simp, fun w => by simp⟩
  | cons v vs ih =>
    obtain ⟨hv, hn⟩ := List.pairwise_cons.1 hn
    obtain ⟨u, hu, h⟩ := andThen_eq_next.1 h
    rw [hf] at hu
    obtain ⟨h1, h2, h3⟩ := ih hn h
    by_cases hp : p (s.voice v)
    · rw [if_pos hp] at hu
      obtain ⟨u', hu', e⟩ := andThen_eq_next.1 hu
      obtain ⟨hr, rfl⟩ := nextSeq_eq_next.1 hu'
      simp only [Host.Outcome.next.injEq] at e
      have hvo : ∀ w, u.voice w = if v = w then g (s.seq + 1) (s.voice v) else s.voice w := fun w => by
        rw [← e, State.voice_setVoice]; rfl
      have hsq : u.seq = s.seq + 1 := by rw [← e]; rfl
      have hcongr : ∀ w ∈ vs, u.voice w = s.voice w := fun w hw => by
        rw [hvo w, if_neg (ne_of_lt (hv w hw))]
      have hflt : ∀ q : Fin Config.numVoices → Bool,
          (vs.filter fun w => q w && p (u.voice w)) = vs.filter fun w => q w && p (s.voice w) := fun q =>
        List.filter_congr fun w hw => by rw [hcongr w hw]
      refine ⟨?_, ?_, fun w => ?_⟩
      · exact SameButVoices.trans (by rw [← e]; rfl : SameButVoices s u) h1
      · have := hflt fun _ => true
        simp only [Bool.true_and] at this
        rw [h2, this, hsq, seq_succ_toNat hr, List.filter_cons_of_pos (by simpa using hp)]
        simp only [List.length_cons]
        omega
      · rw [h3 w]
        by_cases hwv : v = w
        · subst hwv
          have hvv : v ∉ vs := fun hm => lt_irrefl v (hv v hm)
          have hz : vs.filter (fun x => decide (x ≤ v) && p (s.voice x)) = [] := by
            rw [List.filter_eq_nil_iff]
            intro x hx
            have := hv x hx
            simp only [Bool.and_eq_true, decide_eq_true_eq, not_and]
            intro hle
            exact absurd this (not_lt.2 hle)
          have hrank : stampRank (fun x => p (s.voice x)) (v :: vs) v = 1 := by
            unfold stampRank
            rw [List.filter_cons_of_pos (by simpa using hp), hz]
            rfl
          rw [if_neg (fun x => hvv x.1), if_pos ⟨List.mem_cons_self, hp⟩, hrank, hvo v, if_pos rfl]
          rfl
        · have hvo' : u.voice w = s.voice w := by rw [hvo w, if_neg hwv]
          rw [hvo']
          by_cases hm : w ∈ vs ∧ p (s.voice w)
          · have hrank : stampRank (fun x => p (s.voice x)) (v :: vs) w =
                stampRank (fun x => p (u.voice x)) vs w + 1 := by
              unfold stampRank
              rw [hflt fun x => decide (x ≤ w)]
              rw [List.filter_cons_of_pos (by simpa [hp] using le_of_lt (hv w hm.1))]
              rfl
            rw [if_pos hm, if_pos ⟨List.mem_cons_of_mem _ hm.1, hm.2⟩, hrank, hsq]
            congr 1
            rw [BitVec.ofNat_add, BitVec.add_assoc]
            exact congrArg _ (BitVec.add_comm _ _)
          · rw [if_neg hm, if_neg]
            rintro ⟨hm1, hm2⟩
            rcases List.mem_cons.1 hm1 with rfl | hm1
            · exact hwv rfl
            · exact hm ⟨hm1, hm2⟩
    · rw [if_neg hp] at hu
      cases hu
      refine ⟨h1, ?_, fun w => ?_⟩
      · rw [h2, List.filter_cons_of_neg (by simpa using hp)]
      · rw [h3 w]
        have hrank : stampRank (fun x => p (s.voice x)) (v :: vs) w =
            stampRank (fun x => p (s.voice x)) vs w := by
          unfold stampRank
          rw [List.filter_cons_of_neg (by simp [hp])]
        rw [hrank]
        by_cases hwv : w = v
        · subst hwv
          simp [hp]
        · simp [hwv]

/-- n ticks of the oscillator bank: the phase and both generators advance, the rest stays (R130, R137,
R140). -/
theorem iter_bankNext (n : Nat) (x : Voice) :
    iter bankNext n x =
      { x with
        phase := x.phase + BitVec.ofNat 32 n * x.inc
        rng0 := iter xs n x.rng0
        rng1 := iter xs n x.rng1 } := by
  induction n generalizing x with
  | zero => simp [iter]
  | succ n ih =>
    simp only [iter, ih, bankNext]
    congr 1
    rw [BitVec.ofNat_add, BitVec.add_mul, BitVec.add_assoc, BitVec.add_comm x.inc]
    simp

/-- The samples of a run of the filter, one for each input (R191). -/
theorem filterRun_length (c : BlockCtx) (k : Coeffs) (xs : List Int) (f : FilterState) :
    (filterRun c k xs f).1.length = xs.length := by
  induction xs generalizing f with
  | nil => rfl
  | cons x xs ih => simp [filterRun, ih]

theorem filterChunk_length (c : BlockCtx) (xs buf : List Int) (g : FilterStage) :
    (filterChunk c xs buf g).1.length = xs.length := filterRun_length _ _ _ _

/-- The filter stage gives one sample for each input sample its chunks cover (R226). -/
theorem filterChunks_length (c : BlockCtx) (k : Nat) (xs buf : List Int) (g : FilterStage) :
    (filterChunks c k xs buf g).1.length = min (k * Config.chunk) xs.length := by
  induction k generalizing xs buf g with
  | zero => simp [filterChunks]
  | succ k ih =>
    simp only [filterChunks, List.length_append, filterChunk_length, ih, List.length_take, List.length_drop,
      Config.chunk]
    omega

/-- m + n applications are m and then n. -/
theorem iter_add {α : Type} (f : α → α) (m n : Nat) (x : α) :
    iter f (m + n) x = iter f n (iter f m x) := by
  induction m generalizing x with
  | zero => simp [iter]
  | succ m ih => rw [Nat.succ_add]; exact ih (f x)

theorem iter_succ' {α : Type} (f : α → α) (n : Nat) (x : α) : iter f (n + 1) x = f (iter f n x) :=
  iter_add f n 1 x

/-- FENV after one non-empty chunk. -/
theorem filterChunk_fenv (c : BlockCtx) {xs : List Int} (buf : List Int) (g : FilterStage)
    (h : 0 < xs.length) : (filterChunk c xs buf g).2.fenv = iter Env.tick xs.length g.fenv := by
  obtain ⟨n, hn⟩ : ∃ n, xs.length = n + 1 := ⟨xs.length - 1, by omega⟩
  simp only [filterChunk, hn]
  rfl

/-- FENV after the chunks of a block: one tick for each sample (R226). -/
theorem filterChunks_fenv (c : BlockCtx) (k : Nat) (xs buf : List Int) (g : FilterStage)
    (h : (k - 1) * 32 < xs.length ∨ k = 0) :
    (filterChunks c k xs buf g).2.fenv = iter Env.tick (min (k * 32) xs.length) g.fenv := by
  induction k generalizing xs buf g with
  | zero => simp [filterChunks, iter]
  | succ k ih =>
    simp only [filterChunks, Config.chunk]
    rw [ih _ _ _ (by simp only [List.length_drop]; omega),
      filterChunk_fenv _ _ _ (by simp only [List.length_take]; omega), ← iter_add]
    congr 1
    simp only [List.length_take, List.length_drop]
    omega

theorem bankSamples_length (a : Snapshot) (n : Nat) (x : Voice) : (bankSamples a n x).length = n := by
  induction n generalizing x with
  | zero => rfl
  | succ n ih => simp [bankSamples, ih]

theorem gainedSamples_length (a : Snapshot) (n : Nat) (x : Voice) : (gainedSamples a n x).length = n := by
  simp [gainedSamples, bankSamples_length]

theorem Env.levels_length (n : Nat) (e : Env) : (Env.levels n e).length = n := by
  induction n generalizing e with
  | zero => rfl
  | succ n ih => simp [Env.levels, ih]

theorem applyLevels_length (xs ls : List Int) : (applyLevels xs ls).length = min xs.length ls.length := by
  induction xs generalizing ls with
  | nil => simp [applyLevels]
  | cons x xs ih =>
    cases ls with
    | nil => simp [applyLevels]
    | cons l ls => simp [applyLevels, ih]

/-- A voice render gives one sample for each frame (R223). -/
theorem renderOut_length (c : BlockCtx) (buf : List Int) (n : Nat) (x : Voice) :
    (renderOut c buf n x).length = n := by
  unfold renderOut filteredSamples
  rw [applyLevels_length, filterChunks_length, gainedSamples_length, Env.levels_length]
  simp only [chunkCount, Config.chunk]
  omega

/-- A voice after its render: phase and noise advance n times, both envelopes tick n times, the sections
move, and nothing else changes (R223 to R227). -/
theorem renderNext_eq (c : BlockCtx) (buf : List Int) (n : Nat) (x : Voice) :
    renderNext c buf n x =
      { x with
        phase := x.phase + BitVec.ofNat 32 n * x.inc
        rng0 := iter xs n x.rng0
        rng1 := iter xs n x.rng1
        aenv := iter Env.tick n x.aenv
        fenv := iter Env.tick n x.fenv
        f0 := (renderNext c buf n x).f0
        f1 := (renderNext c buf n x).f1 } := by
  have hf : (filteredSamples c buf n x).2.fenv = iter Env.tick n x.fenv := by
    unfold filteredSamples
    rw [filterChunks_fenv]
    · rw [gainedSamples_length]
      congr 1
      simp only [chunkCount, Config.chunk]
      omega
    · rw [gainedSamples_length]
      simp only [chunkCount, Config.chunk]
      omega
  rw [← hf]
  unfold renderNext
  rw [iter_bankNext]

/-- A render of no frames leaves a voice as it is (R259). -/
theorem renderNext_zero (c : BlockCtx) (buf : List Int) (x : Voice) : renderNext c buf 0 x = x := rfl

end Sys2Proof.Machine
end

