-- ==== Sys2Proof/Laws/Engine.lean ====
section
/-! SUPPORT. What the engine's operations can do, said once each: note dispatch and allocation, commit, the
mix, and the block as a whole. -/

namespace Sys2Proof.Machine

/-- After the same-note release, or a tail-off note_off: every voice that plays the note is released, and
nothing else changes (R241, R244). -/
theorem noteOff_tail (m : BitVec 7) (s : State) :
    ∃ t, noteOff m false s = .next t ∧ t = { s with voices := t.voices } ∧
      ∀ w, t.voice w = if s.plays m w then (s.voice w).released else s.voice w := by
  obtain ⟨t, h1, h2, h3⟩ := forVoices_write (p := fun x => x.state == .active && x.note == m)
    (g := Voice.released) (f := fun v t => if t.plays m v then stopNote false v t else .next t)
    (fun v s => by rw [stopNote_tail]; unfold State.plays; split <;> rfl) (vs := voiceIds) (by decide) s
  exact ⟨t, h1, h2, fun w => by rw [h3 w]; simp [State.plays]⟩

/-- After a hard note_off: every voice that plays the note is hard-stopped, with stamps in index order
(R244). -/
theorem noteOff_hard {m : BitVec 7} {s t : State} (h : noteOff m true s = .next t) :
    SameButVoices s t ∧ t.seq.toNat = s.seq.toNat + (voiceIds.filter (s.plays m)).length ∧
      ∀ w, t.voice w = if s.plays m w then
          (s.voice w).hardStopped (s.seq + BitVec.ofNat 64 (stampRank (s.plays m) voiceIds w))
        else s.voice w := by
  obtain ⟨h1, h2, h3⟩ := forVoices_stamp (p := fun x => x.state == .active && x.note == m)
    (g := Voice.hardStopped) (fun v s => by unfold State.plays stopNote; rfl) voiceIds_sorted h
  exact ⟨h1, h2, fun w => by rw [h3 w]; simp only [mem_voiceIds, true_and]; rfl⟩

/-- After ALL_NOTES_OFF without H: every ACTIVE voice is released, and nothing else changes (R245). -/
theorem allOff_tail (s : State) :
    ∃ t, allOff false s = .next t ∧ t = { s with voices := t.voices } ∧
      ∀ w, t.voice w = if (s.voice w).state = .active then (s.voice w).released else s.voice w := by
  obtain ⟨t, h1, h2, h3⟩ := forVoices_write (p := fun x => x.state == .active)
    (g := Voice.released)
    (f := fun v t => if (if false then (t.voice v).state != .idle else (t.voice v).state == .active) then
        stopNote false v t else .next t)
    (fun v s => by rw [stopNote_tail]; simp only [Bool.false_eq_true, if_false]; split <;> rfl)
    (vs := voiceIds) (by decide) s
  exact ⟨t, h1, h2, fun w => by rw [h3 w]; simp⟩

/-- After a panic stop: every voice that is not IDLE is hard-stopped, with stamps in index order (R245). -/
theorem allOff_hard {s t : State} (h : allOff true s = .next t) :
    SameButVoices s t ∧ t.seq.toNat = s.seq.toNat + (voiceIds.filter fun w => !s.isIdle w).length ∧
      ∀ w, t.voice w = if s.isIdle w then s.voice w
        else (s.voice w).hardStopped
          (s.seq + BitVec.ofNat 64 (stampRank (fun x => !s.isIdle x) voiceIds w)) := by
  obtain ⟨h1, h2, h3⟩ := forVoices_stamp (p := fun x => x.state != .idle)
    (g := Voice.hardStopped)
    (fun v s => by simp only [if_true]; unfold stopNote; simp) voiceIds_sorted h
  refine ⟨h1, h2, fun w => ?_⟩
  rw [h3 w]
  by_cases hi : s.isIdle w
  · have : (s.voice w).state = .idle := by simpa [State.isIdle] using hi
    simp [this, hi]
  · have : (s.voice w).state ≠ .idle := by simpa [State.isIdle] using hi
    simp only [mem_voiceIds, true_and, bne_iff_ne, ne_eq, this, not_false_eq_true, if_true, hi]
    rfl

/-- After free_finished(): every sounding voice whose amplitude envelope is done is IDLE, with stamps in
index order (R257). -/
theorem freeFinished_spec {s t : State} (h : freeFinished s = .next t) :
    SameButVoices s t ∧
      t.seq.toNat = s.seq.toNat +
        (voiceIds.filter fun w => (s.voice w).state != .idle && !(s.voice w).aenv.isActive).length ∧
      ∀ w, t.voice w = if (s.voice w).state ≠ .idle ∧ (s.voice w).aenv.stage = .idle then
          { s.voice w with
            state := .idle
            freeSeq := s.seq + BitVec.ofNat 64
              (stampRank (fun x => (s.voice x).state != .idle && !(s.voice x).aenv.isActive) voiceIds w) }
        else s.voice w := by
  obtain ⟨h1, h2, h3⟩ := forVoices_stamp (p := fun x => x.state != .idle && !x.aenv.isActive)
    (g := fun q x => { x with state := .idle, freeSeq := q })
    (fun v s => by unfold freeVoice; rfl) voiceIds_sorted h
  refine ⟨h1, h2, fun w => ?_⟩
  rw [h3 w]
  simp [Env.isActive]

/-- select_free() answers none exactly when no voice is IDLE (R242). -/
theorem selectFree_eq_none {s : State} : selectFree s = none ↔ ∀ v, s.isIdle v = false := by
  unfold selectFree
  rw [argMin_eq_none, List.filter_eq_nil_iff]
  simp

/-- The voice of select_free(): IDLE, with the smallest pair of free_seq and index (R242). -/
theorem selectFree_spec {s : State} {v : Fin Config.numVoices} (h : selectFree s = some v) :
    s.isIdle v ∧ ∀ w, s.isIdle w → (s.voice v).freeSeq ≤ (s.voice w).freeSeq ∧
      ((s.voice w).freeSeq = (s.voice v).freeSeq → v ≤ w) := by
  obtain ⟨hm, hle⟩ := argMin_spec h
  have hf := argMin_first (List.Pairwise.filter _ voiceIds_sorted) h
  refine ⟨(List.mem_filter.1 hm).2, fun w hw => ?_⟩
  have hw' : w ∈ voiceIds.filter s.isIdle := List.mem_filter.2 ⟨mem_voiceIds w, hw⟩
  exact ⟨hle w hw', fun e => hf w hw' (congrArg BitVec.toNat e)⟩

/-- The pool of select_steal(): the RELEASING voices, or every voice when none is RELEASING (R243). -/
theorem mem_stealPool {s : State} {v : Fin Config.numVoices} :
    v ∈ stealPool s ↔ (s.voice v).state = .releasing ∨ ∀ w, (s.voice w).state ≠ .releasing := by
  unfold stealPool
  by_cases h : (voiceIds.filter fun v => (s.voice v).state == .releasing).isEmpty
  · simp only [h, if_true, mem_voiceIds, true_iff]
    right
    rw [List.isEmpty_iff, List.filter_eq_nil_iff] at h
    simpa using h
  · simp only [h, if_false, List.mem_filter, mem_voiceIds, true_and, beq_iff_eq, Bool.false_eq_true]
    constructor
    · exact .inl
    · rintro (h' | h')
      · exact h'
      · rw [List.isEmpty_iff, List.filter_eq_nil_iff] at h
        exact absurd (fun w _ => by simpa using h' w) h

/-- The voice of select_steal(): in the pool, with the smallest trig_seq (R243). -/
theorem selectSteal_spec (s : State) :
    selectSteal s ∈ stealPool s ∧
      ∀ w ∈ stealPool s, (s.voice (selectSteal s)).trigSeq ≤ (s.voice w).trigSeq := by
  have hne : stealPool s ≠ [] := by
    simp only [stealPool]
    split
    · decide
    · rename_i h
      simpa [List.isEmpty_iff] using h
  unfold selectSteal
  cases h : argMin (fun v => (s.voice v).trigSeq.toNat) (stealPool s) with
  | none => exact absurd (argMin_eq_none.1 h) hne
  | some v => exact argMin_spec h

/-- What a voice plays is its state and note. -/
theorem State.plays_iff {s : State} {m : BitVec 7} {v : Fin Config.numVoices} :
    s.plays m v ↔ (s.voice v).state = .active ∧ (s.voice v).note = m := by
  simp [State.plays]

theorem State.isIdle_iff {s : State} {v : Fin Config.numVoices} :
    s.isIdle v ↔ (s.voice v).state = .idle := by
  simp [State.isIdle]

/-- The state after a note start at a voice: SEQ stepped, the voice started with the new SEQ (R220). -/
def startedState (v : Fin Config.numVoices) (m vel : BitVec 7) (s : State) : State :=
  State.setVoice { s with seq := s.seq + 1 } v ((s.voice v).started m vel s.fs (s.seq + 1))

/-- The state after a hard stop of a voice: SEQ stepped, the voice hard-stopped with the new SEQ (R222). -/
def hardStoppedState (v : Fin Config.numVoices) (s : State) : State :=
  State.setVoice { s with seq := s.seq + 1 } v ((s.voice v).hardStopped (s.seq + 1))

/-- What allocation does: it starts the note on the free voice, or on the stolen one after its hard stop
(R241 to R243). -/
theorem allocate_cases {m vel : BitVec 7} {s t : State} (h : allocate m vel s = .next t) :
    (∃ v, selectFree s = some v ∧ s.seq.toNat < 2 ^ 64 - 1 ∧ t = startedState v m vel s) ∨
      (selectFree s = none ∧ s.seq.toNat < 2 ^ 64 - 1 ∧
        (hardStoppedState (selectSteal s) s).seq.toNat < 2 ^ 64 - 1 ∧
        t = startedState (selectSteal s) m vel (hardStoppedState (selectSteal s) s)) := by
  unfold allocate at h
  cases hf : selectFree s with
  | some v =>
    rw [hf] at h
    exact .inl ⟨v, rfl, startNote_eq_next.1 h⟩
  | none =>
    rw [hf] at h
    obtain ⟨u, hu, h⟩ := andThen_eq_next.1 h
    obtain ⟨hr, rfl⟩ := stopNote_hard_eq_next.1 hu
    exact .inr ⟨rfl, hr, startNote_eq_next.1 h⟩

/-- Note dispatch keeps what its three voice operations keep: a tail-off stop of an ACTIVE voice, a hard
stop of a voice that is not IDLE, and a start on an IDLE voice while no voice plays the note (R222, R220,
R247). -/
structure KeptByVoiceOps (P : State → Prop) : Prop where
  tail : ∀ v s, P s → (s.voice v).state = .active → P (s.setVoice v (s.voice v).released)
  hard : ∀ v s, P s → s.seq.toNat < 2 ^ 64 - 1 → (s.voice v).state ≠ .idle → P (hardStoppedState v s)
  start : ∀ v m vel s, P s → s.seq.toNat < 2 ^ 64 - 1 → (s.voice v).state = .idle →
    (∀ w, ¬ s.plays m w) → P (startedState v m vel s)

theorem KeptByVoiceOps.noteOff {P : State → Prop} (hP : KeptByVoiceOps P) {m : BitVec 7} {hard : Bool}
    {s t : State} (hs : P s) (h : noteOff m hard s = .next t) : P t := by
  refine forVoices_induct (fun v s t hs h => ?_) hs h
  split at h
  · rename_i hp
    have hp := (State.plays_iff.1 hp).1
    cases hard with
    | false =>
      rw [stopNote_tail] at h
      cases h
      exact hP.tail v s hs hp
    | true =>
      obtain ⟨hr, rfl⟩ := stopNote_hard_eq_next.1 h
      exact hP.hard v s hs hr (by rw [hp]; decide)
  · cases h
    exact hs

theorem KeptByVoiceOps.allOff {P : State → Prop} (hP : KeptByVoiceOps P) {hard : Bool}
    {s t : State} (hs : P s) (h : allOff hard s = .next t) : P t := by
  refine forVoices_induct (fun v s t hs h => ?_) hs h
  cases hard with
  | false =>
    simp only [Bool.false_eq_true, if_false, beq_iff_eq] at h
    split at h
    · rename_i hp
      rw [stopNote_tail] at h
      cases h
      exact hP.tail v s hs hp
    · cases h
      exact hs
  | true =>
    simp only [if_true, bne_iff_ne, ne_eq, ite_not] at h
    split at h
    · cases h
      exact hs
    · rename_i hp
      obtain ⟨hr, rfl⟩ := stopNote_hard_eq_next.1 h
      exact hP.hard v s hs hr hp

theorem hardStoppedState_voice (v w : Fin Config.numVoices) (s : State) :
    (hardStoppedState v s).voice w =
      if v = w then (s.voice v).hardStopped (s.seq + 1) else s.voice w := by
  unfold hardStoppedState
  rw [State.voice_setVoice]
  rfl

theorem startedState_voice (v w : Fin Config.numVoices) (m vel : BitVec 7) (s : State) :
    (startedState v m vel s).voice w =
      if v = w then (s.voice v).started m vel s.fs (s.seq + 1) else s.voice w := by
  unfold startedState
  rw [State.voice_setVoice]
  rfl

/-- No voice plays a note after its same-note release (R241). -/
theorem not_plays_of_noteOff_tail {m : BitVec 7} {s t : State} (h : noteOff m false s = .next t)
    (w : Fin Config.numVoices) : ¬ t.plays m w := by
  obtain ⟨u, hu, -, hw⟩ := noteOff_tail m s
  rw [hu] at h
  cases h
  rw [State.plays_iff, hw w]
  split
  · simp [Voice.released]
  · rename_i hp
    rwa [State.plays_iff] at hp

theorem KeptByVoiceOps.noteOn {P : State → Prop} (hP : KeptByVoiceOps P) {m vel : BitVec 7}
    {s t : State} (hs : P s) (h : noteOn m vel s = .next t) : P t := by
  obtain ⟨u, hu, h⟩ := andThen_eq_next.1 h
  have hPu := hP.noteOff hs hu
  have hno := not_plays_of_noteOff_tail hu
  rcases allocate_cases h with ⟨v, hv, hr, rfl⟩ | ⟨hn, hr, hr', rfl⟩
  · exact hP.start v m vel u hPu hr (State.isIdle_iff.1 (selectFree_spec hv).1) hno
  · have hi : (u.voice (selectSteal u)).state ≠ .idle := fun e => by
      have := selectFree_eq_none.1 hn (selectSteal u)
      rw [State.isIdle_iff.2 e] at this
      cases this
    refine hP.start _ m vel _ (hP.hard _ u hPu hr hi) hr' ?_ fun w hw => ?_
    · rw [hardStoppedState_voice, if_pos rfl]
      rfl
    · rw [State.plays_iff, hardStoppedState_voice] at hw
      split at hw
      · simp [Voice.hardStopped] at hw
      · exact hno w (State.plays_iff.2 hw)

/-- Dispatching the queued events keeps what the voice operations keep (R246, R251). -/
theorem KeptByVoiceOps.dispatchAll {P : State → Prop} (hP : KeptByVoiceOps P) {es : List Event}
    {s t : State} (hs : P s) (h : dispatchAll es s = .next t) : P t := by
  induction es generalizing s with
  | nil => cases h; exact hs
  | cons e es ih =>
    obtain ⟨u, hu, h⟩ := andThen_eq_next.1 h
    refine ih ?_ h
    cases e with
    | noteOn note vel => exact hP.noteOn hs hu
    | noteOff hard note vel => exact hP.noteOff hs hu
    | allNotesOff hard => exact hP.allOff hs hu

/-- Dispatch changes the voices and SEQ alone, and SEQ never falls. -/
theorem dispatchAll_frame {es : List Event} {s t : State} (h : dispatchAll es s = .next t) :
    SameButVoices s t ∧ s.seq.toNat ≤ t.seq.toNat := by
  refine KeptByVoiceOps.dispatchAll (P := fun t => SameButVoices s t ∧ s.seq.toNat ≤ t.seq.toNat)
    ⟨fun v u hu _ => ⟨hu.1.trans rfl, hu.2⟩, fun v u hu hr _ => ⟨hu.1.trans rfl, ?_⟩,
      fun v m vel u hu hr _ _ => ⟨hu.1.trans rfl, ?_⟩⟩ ⟨rfl, le_refl _⟩ h
  · show _ ≤ (u.seq + 1).toNat
    rw [seq_succ_toNat hr]
    omega
  · show _ ≤ (u.seq + 1).toNat
    rw [seq_succ_toNat hr]
    omega

/-- With room for a stamp, next_seq() answers. -/
theorem nextSeq_room {s : State} {n : Nat} (h : s.SeqRoom (n + 1)) :
    nextSeq s = .next { s with seq := s.seq + 1 } ∧ State.SeqRoom { s with seq := s.seq + 1 } n := by
  have hr : s.seq.toNat < 2 ^ 64 - 1 := by unfold State.SeqRoom at h; omega
  refine ⟨nextSeq_eq_next.2 ⟨hr, rfl⟩, ?_⟩
  unfold State.SeqRoom at *
  rw [seq_succ_toNat hr]
  omega

theorem SeqRoom.mono {s : State} {m n : Nat} (h : s.SeqRoom n) (hm : m ≤ n) : s.SeqRoom m := by
  unfold State.SeqRoom at *
  omega

theorem stopNote_room {hard : Bool} {v : Fin Config.numVoices} {s : State} {n : Nat}
    (h : s.SeqRoom (n + 1)) : ∃ t, stopNote hard v s = .next t ∧ t.SeqRoom n := by
  cases hard with
  | false => exact ⟨_, stopNote_tail v s, SeqRoom.mono h (by omega)⟩
  | true =>
    obtain ⟨h1, h2⟩ := nextSeq_room h
    exact ⟨hardStoppedState v s, by unfold stopNote; rw [if_pos rfl, h1]; rfl, h2⟩

theorem startNote_room {v : Fin Config.numVoices} {m vel : BitVec 7} {s : State} {n : Nat}
    (h : s.SeqRoom (n + 1)) : ∃ t, startNote v m vel s = .next t ∧ t.SeqRoom n := by
  obtain ⟨h1, h2⟩ := nextSeq_room h
  exact ⟨startedState v m vel s, by unfold startNote; rw [h1]; rfl, h2⟩

/-- With room for ten stamps, an event is dispatched. -/
theorem dispatch_room {e : Event} {s : State} {n : Nat} (h : s.SeqRoom (n + 10)) :
    ∃ t, dispatch e s = .next t ∧ t.SeqRoom n := by
  have loop : ∀ {c : Fin Config.numVoices → State → Bool} {hard : Bool},
      ∃ t, forVoices (fun v t => if c v t then stopNote hard v t else .next t) voiceIds s = .next t ∧
        t.SeqRoom n := fun {c hard} =>
    forVoices_completes (room := State.SeqRoom) (vs := voiceIds) (fun v s n hr => by
      by_cases hc : c v s
      · simp only [hc, if_true]
        exact stopNote_room hr
      · exact ⟨s, by simp [hc], SeqRoom.mono hr (by omega)⟩) h
  cases e with
  | noteOff hard note vel => exact loop (c := fun v t => t.plays note v)
  | allNotesOff hard =>
    exact loop (c := fun v t => if hard then (t.voice v).state != .idle else (t.voice v).state == .active)
  | noteOn note vel =>
    obtain ⟨u, hu, hs, -⟩ := noteOff_tail note s
    have hr : u.SeqRoom (n + 2) := by
      rw [hs]
      exact SeqRoom.mono h (by omega)
    show ∃ t, andThen (noteOff note false s) (allocate note vel) = .next t ∧ t.SeqRoom n
    rw [hu, andThen_next]
    unfold allocate
    split
    · exact startNote_room (SeqRoom.mono hr (by omega))
    · obtain ⟨w, hw, hr⟩ := stopNote_room (hard := true) (v := selectSteal u) hr
      rw [hw, andThen_next]
      exact startNote_room hr

/-- With room for ten stamps each, the queued events are dispatched. -/
theorem dispatchAll_room {es : List Event} {s : State} {n : Nat} (h : s.SeqRoom (n + 10 * es.length)) :
    ∃ t, dispatchAll es s = .next t ∧ t.SeqRoom n := by
  induction es generalizing s with
  | nil => exact ⟨s, rfl, h⟩
  | cons e es ih =>
    obtain ⟨u, hu, hr⟩ := dispatch_room (e := e) (s := s) (n := n + 10 * es.length)
      (SeqRoom.mono h (by simp only [List.length_cons]; omega))
    obtain ⟨t, ht, hr⟩ := ih hr
    exact ⟨t, by rw [dispatchAll, hu]; exact ht, hr⟩

/-- With room for ten stamps, free_finished() answers. -/
theorem freeFinished_room {s : State} {n : Nat} (h : s.SeqRoom (n + 10)) :
    ∃ t, freeFinished s = .next t ∧ t.SeqRoom n :=
  forVoices_completes (room := State.SeqRoom) (vs := voiceIds) (fun v s n hr => by
    unfold freeVoice
    split
    · obtain ⟨h1, h2⟩ := nextSeq_room hr
      exact ⟨State.setVoice { s with seq := s.seq + 1 } v
        { s.voice v with state := .idle, freeSeq := s.seq + 1 }, by rw [h1]; rfl, h2⟩
    · exact ⟨s, rfl, SeqRoom.mono hr (by omega)⟩) h

/-- Two states with the same voices, one by one, and otherwise alike are the same. -/
theorem State.eq_of_voices {s t : State} (h : t = { s with voices := t.voices })
    (hv : ∀ w, t.voice w = s.voice w) : t = s := by
  have : t.voices = s.voices := Vector.ext fun i hi => hv ⟨i, hi⟩
  rw [h, this]

end Sys2Proof.Machine
end

