-- ==== Sys2Proof/Laws/Render.lean ====
section
/-! SUPPORT. What a voice render computes, frame by frame: the bank and gain stage, the chunked filter and
the amplitude envelope, each as a map over the frame numbers. -/

namespace Sys2Proof.Machine

/-- LFO.phase advances by n LFO_INC (R183). -/
theorem lfoPhaseAfter_eq (n : Nat) (p inc : Word) :
    lfoPhaseAfter n p inc = p + BitVec.ofNat 32 n * inc := by
  unfold lfoPhaseAfter
  induction n generalizing p with
  | zero => simp [iter]
  | succ n ih =>
    simp only [iter, ih]
    rw [BitVec.ofNat_add, BitVec.add_mul, BitVec.add_assoc, BitVec.add_comm inc]
    simp

/-- LFOBUF[j] is the LFO at the phase j increments on (R183). -/
theorem lfoFill_eq (n : Nat) (p inc : Word) :
    lfoFill n p inc = (List.range n).map fun j => lfo (p + BitVec.ofNat 32 j * inc) := by
  induction n generalizing p with
  | zero => rfl
  | succ n ih =>
    rw [lfoFill, ih, List.range_succ_eq_map, List.map_cons, List.map_map]
    simp only [Function.comp_def, Nat.succ_eq_add_one, BitVec.ofNat_add, BitVec.add_mul]
    simp [BitVec.add_assoc, BitVec.add_comm inc]

theorem lfoFill_length (n : Nat) (p inc : Word) : (lfoFill n p inc).length = n := by simp [lfoFill_eq]

theorem lfoFill_getElem {n : Nat} {p inc : Word} {j : Nat} (h : j < (lfoFill n p inc).length) :
    (lfoFill n p inc)[j] = lfo (p + BitVec.ofNat 32 j * inc) := by simp [lfoFill_eq]

/-- The samples of n bank ticks, each at its own phase and noise state (R224). -/
theorem bankSamples_eq (a : Snapshot) (n : Nat) (x : Voice) :
    bankSamples a n x = (List.range n).map fun j => bankSample a (iter bankNext j x) := by
  induction n generalizing x with
  | zero => rfl
  | succ n ih => simp [bankSamples, ih, List.range_succ_eq_map, iter, Function.comp_def]

/-- The bank and the gain stage, frame by frame (R224, R225). -/
theorem gainedSamples_eq (a : Snapshot) (n : Nat) (x : Voice) :
    gainedSamples a n x = (List.range' 0 n).map (gainedAt a · x) := by
  rw [gainedSamples, bankSamples_eq, List.map_map, ← List.range_eq_range']
  refine List.map_congr_left fun j _ => ?_
  simp only [Function.comp, iter_bankNext]
  rfl

/-- The outputs of n envelope ticks (R227). -/
theorem Env.levels_eq (n : Nat) (e : Env) :
    Env.levels n e = (List.range n).map fun j => ((iter Env.tick (j + 1) e).level.toNat : Int) := by
  induction n generalizing e with
  | zero => rfl
  | succ n ih => simp [Env.levels, ih, List.range_succ_eq_map, iter, Function.comp_def]

theorem applyLevels_map (f g : Nat → Int) (l : List Nat) :
    applyLevels (l.map f) (l.map g) = l.map fun j => shr (f j * g j) 24 := by
  induction l with
  | nil => rfl
  | cons j l ih => simp [applyLevels, ih]

/-- A run of the filter over consecutive frames, along the sections `F` that its steps make (R199). -/
theorem filterRun_range (c : BlockCtx) (k : Coeffs) {g : Nat → Int} {F : Nat → FilterState} {a l : Nat}
    (h : ∀ m, a ≤ m → m < a + l → F (m + 1) = filterNext c k (g m) (F m)) :
    filterRun c k ((List.range' a l).map g) (F a) =
      ((List.range' a l).map fun m => filterOut c k (g m) (F m), F (a + l)) := by
  induction l generalizing a with
  | zero => rfl
  | succ l ih =>
    rw [List.range'_succ, List.map_cons, filterRun, ← h a le_rfl (by omega),
      ih fun m hm hl => h m (by omega) (by omega)]
    simp [Nat.add_assoc, Nat.add_comm 1]

/-- Frames of one chunk have its coefficients (R191). -/
theorem coeffsAt_chunk (s : State) (n : Nat) (x : Voice) {i m : Nat} (h : 32 * i ≤ m) (h' : m < 32 * i + 32) :
    coeffsAt s n x m = coeffsAt s n x (32 * i) := by
  have : chunkStart m = chunkStart (32 * i) := by unfold chunkStart; omega
  unfold coeffsAt lfoAverage chunkLength
  rw [this]

/-- The chunk loop from frame 32 i to the end of the block, along `sectionsAt` (R191, R226). -/
theorem filterChunks_range (s : State) (n : Nat) (x : Voice) {i k l : Nat} (hn : 32 * i + l = n)
    (hl : l ≤ 32 * k) (hk : 32 * (k - 1) < l ∨ k = 0) :
    filterChunks s.ctx k ((List.range' (32 * i) l).map (gainedAt s.act · x))
        ((List.range' (32 * i) l).map (lfoSample s)) ⟨iter Env.tick (32 * i) x.fenv, sectionsAt s n x (32 * i)⟩ =
      ((List.range' (32 * i) l).map fun m =>
          filterOut s.ctx (coeffsAt s n x m) (gainedAt s.act m x) (sectionsAt s n x m),
        ⟨iter Env.tick n x.fenv, sectionsAt s n x n⟩) := by
  induction k generalizing i l with
  | zero =>
    obtain rfl : l = 0 := by omega
    obtain rfl : n = 32 * i := by omega
    rfl
  | succ k ih =>
    have hlen : (List.range' (32 * i) l).take 32 = List.range' (32 * i) (min 32 l) :=
      List.ext_getElem (by simp) (by simp)
    have hdrop : (List.range' (32 * i) l).drop 32 = List.range' (32 * i + 32) (l - 32) := by
      simp [List.drop_range']
    have hchunk : filterChunk s.ctx ((List.range' (32 * i) (min 32 l)).map (gainedAt s.act · x))
        ((List.range' (32 * i) (min 32 l)).map (lfoSample s))
        ⟨iter Env.tick (32 * i) x.fenv, sectionsAt s n x (32 * i)⟩ =
        ((List.range' (32 * i) (min 32 l)).map fun m =>
            filterOut s.ctx (coeffsAt s n x m) (gainedAt s.act m x) (sectionsAt s n x m),
          ⟨iter Env.tick (32 * i + min 32 l) x.fenv, sectionsAt s n x (32 * i + min 32 l)⟩) := by
      have hs : chunkStart (32 * i) = 32 * i := by unfold chunkStart; omega
      have hc : chunkLength n (32 * i) = min 32 l := by unfold chunkLength; rw [hs]; congr 1; omega
      have hco : coeffs s.ctx.fs s.ctx.derived.fk (cutoff s.ctx
          (iter Env.tick (32 * i) x.fenv).tick.level.toNat
          (lfoAvg ((List.range' (32 * i) (min 32 l)).map (lfoSample s)))) = coeffsAt s n x (32 * i) := by
        unfold coeffsAt lfoAverage lfoAvg fdiv
        rw [hs, hc, iter_succ', List.length_map, List.length_range']
        rfl
      unfold filterChunk
      simp only [hco, List.length_map, List.length_range']
      rw [filterRun_range s.ctx (coeffsAt s n x (32 * i)) (F := sectionsAt s n x) fun m hm hl => by
        rw [sectionsAt, coeffsAt_chunk s n x hm (by omega)]]
      refine Prod.ext (List.map_congr_left fun m hm => ?_) ?_
      · obtain ⟨h1, h2⟩ := List.mem_range'_1.1 hm
        rw [coeffsAt_chunk s n x h1 (by omega)]
      · have : 32 * i + min 32 l = 32 * i + 1 + (min 32 l - 1) := by omega
        simp only
        rw [← iter_succ' Env.tick, ← iter_add, ← this]
    simp only [filterChunks, Config.chunk, ← List.map_take, ← List.map_drop, hlen, hdrop, hchunk]
    by_cases h : l ≤ 32
    · obtain rfl : k = 0 := by omega
      have : min 32 l = l := by omega
      simp [this, hn, filterChunks]
    · have hm : min 32 l = 32 := by omega
      have := ih (i := i + 1) (l := l - 32) (by omega) (by omega) (by omega)
      simp only [Nat.mul_add, Nat.mul_one] at this
      rw [hm, this]
      refine Prod.ext ?_ rfl
      simp only [← List.map_append]
      congr 1
      rw [List.range'_append_1]
      congr 1
      omega

/-- The filter stage of a block: frame by frame, along `sectionsAt` (R226). -/
theorem filteredSamples_eq (s : State) (n : Nat) (x : Voice) :
    filteredSamples s.ctx (lfoFill n s.lfoPhase s.derived.lfoInc) n x =
      ((List.range n).map fun m =>
          filterOut s.ctx (coeffsAt s n x m) (gainedAt s.act m x) (sectionsAt s n x m),
        ⟨iter Env.tick n x.fenv, sectionsAt s n x n⟩) := by
  have h := filterChunks_range s n x (i := 0) (k := chunkCount n) (l := n) (by omega)
    (by simp only [chunkCount, Config.chunk]; omega) (by simp only [chunkCount, Config.chunk]; omega)
  unfold filteredSamples
  rw [gainedSamples_eq, lfoFill_eq, List.range_eq_range']
  exact h

/-- A voice's samples in a block, frame by frame (R223 to R227). -/
theorem renderOut_eq (s : State) (n : Nat) (x : Voice) :
    renderOut s.ctx (lfoFill n s.lfoPhase s.derived.lfoInc) n x = (List.range n).map (voiceSample s n x) := by
  unfold renderOut
  rw [filteredSamples_eq, Env.levels_eq, applyLevels_map]
  rfl

/-- A voice's sections after a block (R199, R200). -/
theorem renderNext_sections (s : State) (n : Nat) (x : Voice) :
    (⟨(renderNext s.ctx (lfoFill n s.lfoPhase s.derived.lfoInc) n x).f0,
      (renderNext s.ctx (lfoFill n s.lfoPhase s.derived.lfoInc) n x).f1⟩ : FilterState) =
      sectionsAt s n x n := by
  unfold renderNext
  rw [filteredSamples_eq]

/-- The 12 dB/oct modes keep F[1] (R200). -/
theorem sectionsAt_f1 {s : State} (h : s.act.filterMode.toNat < 3) (n : Nat) (x : Voice) (j : Nat) :
    (sectionsAt s n x j).f1 = x.f1 := by
  induction j with
  | zero => rfl
  | succ j ih => rw [sectionsAt, ← ih]; simp [filterNext, twoSections, State.ctx, Nat.not_le.2 h]

end Sys2Proof.Machine
end

