-- ==== Sys2Proof/Laws/Block.lean ====
section
/-! SUPPORT. What a block does, said once: the mix, OUTBUF, commit, the engine reset, and
RENDER as a chain of its steps. -/

namespace Sys2Proof.Machine

theorem addMix_length (ms xs : List Int) : (addMix ms xs).length = ms.length := by
  induction ms generalizing xs with
  | nil => cases xs <;> rfl
  | cons m ms ih => cases xs <;> simp [addMix, ih]

/-- The sum of a mix and a voice, frame by frame (R254). -/
theorem addMix_getD (ms xs : List Int) (h : xs.length = ms.length) (j : Nat) :
    (addMix ms xs).getD j 0 = ms.getD j 0 + xs.getD j 0 := by
  induction ms generalizing xs j with
  | nil => simp_all [addMix]
  | cons m ms ih =>
    cases xs with
    | nil => simp at h
    | cons x xs =>
      cases j with
      | zero => simp [addMix]
      | succ j =>
        simp only [addMix, List.getD_cons_succ]
        exact ih xs (by simpa using h) j

/-- Rendering the listed voices: which voices change and how, and the mix (R253, R254). -/
theorem mixVoices_spec (n : Nat) (buf : List Int) {vs : List (Fin Config.numVoices)} (hn : vs.Nodup)
    {r : List Int × State} (hl : r.1.length = n) :
    (mixVoices n buf vs r).2 = { r.2 with voices := (mixVoices n buf vs r).2.voices } ∧
      (mixVoices n buf vs r).1.length = n ∧
      (∀ w, (mixVoices n buf vs r).2.voice w =
        if w ∈ vs ∧ r.2.isIdle w = false then renderNext r.2.ctx buf n (r.2.voice w) else r.2.voice w) ∧
      ∀ j, (mixVoices n buf vs r).1.getD j 0 = r.1.getD j 0 +
        ((vs.filter fun v => !r.2.isIdle v).map fun v =>
          (renderOut r.2.ctx buf n (r.2.voice v)).getD j 0).sum := by
  induction vs generalizing r with
  | nil => exact ⟨rfl, hl, fun w => by simp [mixVoices], fun j => by simp [mixVoices]⟩
  | cons v vs ih =>
    obtain ⟨hv, hn⟩ := List.nodup_cons.1 hn
    by_cases hi : r.2.isIdle v = true
    · have hm : mixVoices n buf (v :: vs) r = mixVoices n buf vs r := by
        simp [mixVoices, mixVoice, hi]
      obtain ⟨h1, h2, h3, h4⟩ := ih hn hl
      rw [hm]
      refine ⟨h1, h2, fun w => ?_, fun j => ?_⟩
      · rw [h3 w]
        by_cases hw : w = v
        · subst hw
          simp [hi]
        · simp [hw]
      · rw [h4 j, List.filter_cons_of_neg (by simp [hi])]
    · have hi' : r.2.isIdle v = false := by simpa using hi
      have hm : mixVoices n buf (v :: vs) r = mixVoices n buf vs
          (addMix r.1 (renderOut r.2.ctx buf n (r.2.voice v)),
            r.2.setVoice v (renderNext r.2.ctx buf n (r.2.voice v))) := by
        simp [mixVoices, mixVoice, hi']
      have hlen : (addMix r.1 (renderOut r.2.ctx buf n (r.2.voice v))).length = n := by
        rw [addMix_length, hl]
      obtain ⟨h1, h2, h3, h4⟩ := ih (r := (addMix r.1 (renderOut r.2.ctx buf n (r.2.voice v)),
            r.2.setVoice v (renderNext r.2.ctx buf n (r.2.voice v)))) hn hlen
      have hc : (r.2.setVoice v (renderNext r.2.ctx buf n (r.2.voice v))).ctx = r.2.ctx := rfl
      have hne : ∀ w, w ≠ v → (r.2.setVoice v (renderNext r.2.ctx buf n (r.2.voice v))).voice w =
          r.2.voice w := fun w hw => State.voice_setVoice_ne _ _ (Ne.symm hw)
      have hidle : ∀ w, w ≠ v → (r.2.setVoice v (renderNext r.2.ctx buf n (r.2.voice v))).isIdle w =
          r.2.isIdle w := fun w hw => by unfold State.isIdle; rw [hne w hw]
      have hmem : ∀ w ∈ vs, w ≠ v := fun w hw e => hv (e ▸ hw)
      rw [hm]
      refine ⟨?_, h2, fun w => ?_, fun j => ?_⟩
      · rw [h1]
        rfl
      · rw [h3 w, hc]
        by_cases hw : w = v
        · subst hw
          rw [if_neg (fun x => hv x.1), if_pos ⟨List.mem_cons_self, hi'⟩, State.voice_setVoice_same]
        · rw [hne w hw, hidle w hw]
          simp [hw]
      · rw [h4 j, hc]
        simp only
        rw [addMix_getD _ _ (by rw [renderOut_length, hl]), List.filter_cons_of_pos (by simp [hi']),
          List.map_cons, List.sum_cons]
        have : (vs.filter fun x => !(r.2.setVoice v (renderNext r.2.ctx buf n (r.2.voice v))).isIdle x) =
            vs.filter fun x => !r.2.isIdle x :=
          List.filter_congr fun w hw => by rw [hidle w (hmem w hw)]
        rw [this]
        have : ((vs.filter fun x => !r.2.isIdle x).map fun x => (renderOut r.2.ctx buf n
              ((r.2.setVoice v (renderNext r.2.ctx buf n (r.2.voice v))).voice x)).getD j 0) =
            ((vs.filter fun x => !r.2.isIdle x).map fun x =>
              (renderOut r.2.ctx buf n (r.2.voice x)).getD j 0) :=
          List.map_congr_left fun w hw => by rw [hne w (hmem w (List.mem_filter.1 hw).1)]
        rw [this, Int.add_assoc]

theorem renderAudio_eq (n : Nat) (s : State) :
    renderAudio n s = writeOutbuf (outputWords (renderMix n s).1) (renderMix n s).2 := rfl

theorem writeOutbuf_eq (ws : List Word) (s : State) :
    writeOutbuf ws s = { s with outbuf := Memory.writeChannels s.nch.toNat ws s.outbuf } := rfl

theorem writeOutbuf_voice (ws : List Word) (s : State) (v : Fin Config.numVoices) :
    (writeOutbuf ws s).voice v = s.voice v := rfl

/-- Steps 3 to 6 of a block: the LFO, the voices that are not IDLE, and OUTBUF (R252 to R256). -/
theorem renderAudio_spec (n : Nat) (s : State) :
    ∃ ws : List Word, ws.length = n ∧
      (∀ j < n, ws.getD j 0 = BitVec.ofInt 32 (limit (mixSample n j s))) ∧
      renderAudio n s = { s with
        voices := (renderAudio n s).voices
        lfoPhase := s.lfoPhase + BitVec.ofNat 32 n * s.derived.lfoInc
        outbuf := Memory.writeChannels s.nch.toNat ws s.outbuf } ∧
      ∀ v, (renderAudio n s).voice v = if s.isIdle v then s.voice v else
        renderNext s.ctx (lfoFill n s.lfoPhase s.derived.lfoInc) n (s.voice v) := by
  have h := mixVoices_spec n (lfoFill n s.lfoPhase s.derived.lfoInc) (vs := voiceIds) (by decide)
    (r := (List.replicate n 0, { s with lfoPhase := lfoPhaseAfter n s.lfoPhase s.derived.lfoInc }))
    (by simp)
  have hr : renderMix n s = mixVoices n (lfoFill n s.lfoPhase s.derived.lfoInc) voiceIds
    (List.replicate n 0, { s with lfoPhase := lfoPhaseAfter n s.lfoPhase s.derived.lfoInc }) := rfl
  rw [← hr] at h
  obtain ⟨h1, h2, h3, h4⟩ := h
  refine ⟨outputWords (renderMix n s).1, by simp [outputWords, h2], fun j hj => ?_, ?_, fun v => ?_⟩
  · have h4j := h4 j
    have hz : (List.replicate n (0 : Int)).getD j 0 = 0 := by
      simp [List.getD_eq_getElem?_getD, hj]
    rw [hz, Int.zero_add] at h4j
    have hm : (renderMix n s).1.getD j 0 = mixSample n j s := h4j.trans <| by
      unfold mixSample
      refine congrArg _ (List.map_congr_left fun v _ => ?_)
      change (renderOut s.ctx (lfoFill n s.lfoPhase s.derived.lfoInc) n (s.voice v)).getD j 0 = _
      simp [renderOut_eq, List.getD_eq_getElem?_getD, hj]
    rw [← hm]
    simp [outputWords, List.getD_eq_getElem?_getD, h2, hj]
  · have hn : (renderMix n s).2.nch = s.nch := by rw [h1]
    have ho : (renderMix n s).2.outbuf = s.outbuf := by rw [h1]
    rw [renderAudio_eq, writeOutbuf_eq, hn, ho, h1, lfoPhaseAfter_eq]
  · rw [renderAudio_eq, writeOutbuf_voice, h3 v]
    cases hi : s.isIdle v
    · rw [if_pos ⟨mem_voiceIds v, hi⟩]
      rfl
    · rw [if_neg (fun x => by
        have := x.2
        change s.isIdle v = false at this
        rw [hi] at this
        cases this)]
      rfl

/-- A voice after a commit (R250). -/
theorem commit_voice (s : State) (v : Fin Config.numVoices) :
    (commit s).voice v =
      (s.voice v).updated (ampParams s.stg.snap s.fs) (fltParams s.stg.snap s.fs) :=
  getElem_mapVoices _ _ _

/-- A voice after an engine reset (R260). -/
theorem engineReset_voice (s : State) (v : Fin Config.numVoices) :
    (engineReset s).voice v = (s.voice v).engineReset v := getElem_mapVoices _ _ _

/-- The state a RENDER dispatches its events from: the frame count checked, the snapshot committed, EVQ
taken (R107, R250, R251). -/
def drainStart (nfr : BitVec 16) (s : State) : State :=
  { commit (clampFrames nfr s) with evq := [] }

theorem clampFrames_eq (nfr : BitVec 16) (s : State) :
    clampFrames nfr s = { s with status := (clampFrames nfr s).status } := by
  unfold clampFrames
  split <;> rfl

theorem clampFrames_status (nfr : BitVec 16) (s : State) :
    (clampFrames nfr s).status = if s.maxblk.toNat < nfr.toNat then s.status ||| 0x20#32 else s.status := by
  unfold clampFrames
  split <;> rfl

/-- What the start of a RENDER leaves (R107, R250). -/
theorem drainStart_eq (nfr : BitVec 16) (s : State) :
    drainStart nfr s = { s with
      status := (clampFrames nfr s).status
      act := s.stg.snap
      derived := derive s.stg.snap s.fs
      voices := (drainStart nfr s).voices
      evq := [] } := by
  unfold drainStart
  rw [clampFrames_eq]
  rfl

theorem drainStart_voice (nfr : BitVec 16) (s : State) (v : Fin Config.numVoices) :
    (drainStart nfr s).voice v =
      (s.voice v).updated (ampParams s.stg.snap s.fs) (fltParams s.stg.snap s.fs) := by
  have h : (drainStart nfr s).voice v = (commit (clampFrames nfr s)).voice v := rfl
  rw [h, commit_voice, clampFrames_eq]
  rfl

/-- RENDER as a chain: the events from the start state, the audio, the frees, the completion (R107,
R240). -/
theorem execRender_eq_next {nfr : BitVec 16} {s t : State} :
    execRender nfr s = .next t ↔ ∃ u w, dispatchAll s.evq (drainStart nfr s) = .next u ∧
      freeFinished (renderAudio (renderFrames nfr s.maxblk) u) = .next w ∧ t = completeBlock w := by
  have hd : drainEvq (commit (clampFrames nfr s)) = dispatchAll s.evq (drainStart nfr s) := by
    unfold drainEvq drainStart
    rw [clampFrames_eq]
    rfl
  unfold execRender renderBlock
  rw [hd, andThen_eq_next]
  constructor
  · rintro ⟨u, hu, h⟩
    obtain ⟨w, hw, h⟩ := andThen_eq_next.1 h
    cases h
    exact ⟨u, w, hu, hw, rfl⟩
  · rintro ⟨u, w, hu, hw, rfl⟩
    exact ⟨u, hu, andThen_eq_next.2 ⟨w, hw, rfl⟩⟩

/-- With room for its stamps a RENDER completes (R107, R34). -/
theorem execRender_room {nfr : BitVec 16} {s : State} {n : Nat} (h : s.SeqRoom (n + stampsNeeded s)) :
    ∃ t, execRender nfr s = .next t ∧ t.SeqRoom n := by
  have h0 : (drainStart nfr s).SeqRoom (n + 10 + 10 * s.evq.length) := by
    rw [drainStart_eq]
    unfold stampsNeeded at h
    exact SeqRoom.mono h (by omega)
  obtain ⟨u, hu, hr⟩ := dispatchAll_room h0
  have hr' : (renderAudio (renderFrames nfr s.maxblk) u).SeqRoom (n + 10) := by
    obtain ⟨ws, -, -, h3, -⟩ := renderAudio_spec (renderFrames nfr s.maxblk) u
    rw [h3]
    exact hr
  obtain ⟨w, hw, hr''⟩ := freeFinished_room hr'
  exact ⟨completeBlock w, execRender_eq_next.2 ⟨u, w, hu, hw, rfl⟩, hr''⟩

/-- What a RENDER changes, beside the voices: STATUS, BLOCK_COUNT, act[], the derived values, SEQ, the LFO
phase, EVQ and OUTBUF (R107, R240). -/
theorem execRender_frame {nfr : BitVec 16} {s t : State} (h : execRender nfr s = .next t) :
    ∃ ws : List Word, ws.length = renderFrames nfr s.maxblk ∧
      (∀ w ∈ ws, ∃ x, w = BitVec.ofInt 32 (limit x)) ∧
      t = { s with
        status := (clampFrames nfr s).status ||| 0x2#32
        blockCount := s.blockCount + 1
        act := s.stg.snap
        derived := derive s.stg.snap s.fs
        voices := t.voices
        seq := t.seq
        lfoPhase := s.lfoPhase + BitVec.ofNat 32 (renderFrames nfr s.maxblk) * lfoIncOf s.stg.snap.lfoFreq s.fs
        evq := []
        outbuf := Memory.writeChannels s.nch.toNat ws s.outbuf } := by
  obtain ⟨u, w, hu, hw, rfl⟩ := execRender_eq_next.1 h
  have h1 := (dispatchAll_frame hu).1
  obtain ⟨ws, hl, hws, ha, -⟩ := renderAudio_spec (renderFrames nfr s.maxblk) u
  have h2 := (freeFinished_spec hw).1
  refine ⟨ws, hl, fun x hx => ?_, ?_⟩
  · obtain ⟨j, hj, rfl⟩ := List.getElem_of_mem hx
    refine ⟨_, (?_ : ws[j] = _).trans (hws j (hl ▸ hj))⟩
    simp [List.getD_eq_getElem?_getD, hj]
  · rw [drainStart_eq] at h1
    unfold completeBlock
    rw [h2, ha, h1]
    rfl

/-- Where a RENDER leaves each voice: as the dispatch left it when it is IDLE there, else rendered, and
freed if its amplitude envelope is done (R228, R253, R257). -/
theorem execRender_voice {nfr : BitVec 16} {s t : State} (h : execRender nfr s = .next t) :
    ∃ u, dispatchAll s.evq (drainStart nfr s) = .next u ∧ ∀ v,
      if u.isIdle v then t.voice v = u.voice v
      else
        (t.voice v = renderNext u.ctx (lfoFill (renderFrames nfr s.maxblk) u.lfoPhase u.derived.lfoInc)
            (renderFrames nfr s.maxblk) (u.voice v) ∧
          (iter Env.tick (renderFrames nfr s.maxblk) (u.voice v).aenv).stage ≠ .idle) ∨
        ∃ q, t.voice v = { renderNext u.ctx (lfoFill (renderFrames nfr s.maxblk) u.lfoPhase u.derived.lfoInc)
            (renderFrames nfr s.maxblk) (u.voice v) with state := .idle, freeSeq := q } ∧
          (iter Env.tick (renderFrames nfr s.maxblk) (u.voice v).aenv).stage = .idle ∧
          u.seq.toNat < q.toNat ∧ q.toNat ≤ t.seq.toNat := by
  obtain ⟨u, w, hu, hw, rfl⟩ := execRender_eq_next.1 h
  obtain ⟨ws, -, -, ha, hv⟩ := renderAudio_spec (renderFrames nfr s.maxblk) u
  obtain ⟨-, h2, h3⟩ := freeFinished_spec hw
  have hsq : (renderAudio (renderFrames nfr s.maxblk) u).seq = u.seq := by rw [ha]
  refine ⟨u, hu, fun v => ?_⟩
  have ht : (completeBlock w).voice v = w.voice v := rfl
  have hts : (completeBlock w).seq = w.seq := rfl
  rw [ht, h3 v, hv v, hts]
  by_cases hi : u.isIdle v
  · simp only [hi, if_true]
    have := State.isIdle_iff.1 hi
    simp [this]
  · have hst : (u.voice v).state ≠ .idle := fun e => hi (State.isIdle_iff.2 e)
    have hrs : ∀ buf, (renderNext u.ctx buf (renderFrames nfr s.maxblk) (u.voice v)).state =
        (u.voice v).state := fun buf => by rw [renderNext_eq]
    have hra : ∀ buf, (renderNext u.ctx buf (renderFrames nfr s.maxblk) (u.voice v)).aenv =
        iter Env.tick (renderFrames nfr s.maxblk) (u.voice v).aenv := fun buf => by rw [renderNext_eq]
    simp only [hi, if_false, Bool.false_eq_true, hrs, hra]
    by_cases he : (iter Env.tick (renderFrames nfr s.maxblk) (u.voice v).aenv).stage = .idle
    · right
      rw [if_pos ⟨hst, he⟩]
      refine ⟨_, rfl, he, ?_⟩
      have hpass : (fun x => ((renderAudio (renderFrames nfr s.maxblk) u).voice x).state != Life.idle &&
          !((renderAudio (renderFrames nfr s.maxblk) u).voice x).aenv.isActive) v = true := by
        simp only [hv v, hi, if_false, Bool.false_eq_true, hrs, hra, Env.isActive, he]
        simp [hst]
      have hpos : 0 < stampRank (fun x => ((renderAudio (renderFrames nfr s.maxblk) u).voice x).state !=
          Life.idle && !((renderAudio (renderFrames nfr s.maxblk) u).voice x).aenv.isActive) voiceIds v := by
        unfold stampRank
        exact List.length_pos_of_mem (List.mem_filter.2 ⟨mem_voiceIds v, by simpa using hpass⟩)
      have hle : stampRank (fun x => ((renderAudio (renderFrames nfr s.maxblk) u).voice x).state !=
          Life.idle && !((renderAudio (renderFrames nfr s.maxblk) u).voice x).aenv.isActive) voiceIds v ≤
          (voiceIds.filter fun w => ((renderAudio (renderFrames nfr s.maxblk) u).voice w).state != .idle &&
            !((renderAudio (renderFrames nfr s.maxblk) u).voice w).aenv.isActive).length := by
        unfold stampRank
        refine List.Sublist.length_le ?_
        refine List.monotone_filter_right voiceIds fun x hx => ?_
        simp only [Bool.and_eq_true] at hx ⊢
        exact hx.2
      have hlt := w.seq.isLt
      rw [hsq] at h2 ⊢
      rw [BitVec.toNat_add, BitVec.toNat_ofNat]
      omega
    · left
      rw [if_neg (fun x => he x.2)]
      exact ⟨rfl, he⟩

end Sys2Proof.Machine
end

