-- ==== Sys2Proof/Laws/PerInstr.lean ====
section
/-! SUPPORT. The fields of the encoded words, and the law family OpcodeField: the word of every command
carries its opcode in bits 31:24 (R81 to R88), one lemma per constructor. -/

namespace Sys2Proof

/-- A field of a word given as a number below 2^32. -/
theorem field_ofNat {x : Nat} (h : x < 2 ^ 32) (hi lo : Nat) :
    field (BitVec.ofNat 32 x) hi lo = x / 2 ^ lo % 2 ^ (hi + 1 - lo) := by
  unfold field
  rw [BitVec.toNat_ofNat, Nat.mod_eq_of_lt h]

/-- Every id number fits its field, and names its parameter (R26, R84). -/
theorem ParamId.num_lt (p : ParamId) : p.num < 64 := by cases p <;> decide

theorem ParamId.ofNum?_num (p : ParamId) : ParamId.ofNum? p.num = some p := by cases p <;> rfl

/-- An id number names at most the parameter whose number it is (R26). -/
theorem ParamId.num_of_ofNum? {n : Nat} {p : ParamId} (h : ParamId.ofNum? n = some p) : p.num = n := by
  unfold ParamId.ofNum? at h
  split at h <;> first | (cases h; rfl) | cases h

/-- The opcode field of a SET_PARAM word (R84). -/
theorem field_encodeSetParam_op (p : ParamId) (v : BitVec 18) : field (encodeSetParam p v) 31 24 = 0x02 := by
  have hp := p.num_lt
  have hv := v.isLt
  unfold encodeSetParam
  rw [field_ofNat (by omega)]
  omega

/-- The opcode of a command, by its rule (R82 to R88). -/
def Instr.opcode : Instr → Nat
  | .nop => 0x00
  | .prepare => 0x01
  | .setParamAmpAttack _ => 0x02
  | .setParamAmpDecay _ => 0x02
  | .setParamAmpSustain _ => 0x02
  | .setParamAmpRelease _ => 0x02
  | .setParamFltAttack _ => 0x02
  | .setParamFltDecay _ => 0x02
  | .setParamFltSustain _ => 0x02
  | .setParamFltRelease _ => 0x02
  | .setParamFilterCutoff _ => 0x02
  | .setParamFilterResonance _ => 0x02
  | .setParamFilterMode _ => 0x02
  | .setParamLfoFreq _ => 0x02
  | .setParamLfoAmount _ => 0x02
  | .setParamFenvEnable _ => 0x02
  | .setParamFenvAmount _ => 0x02
  | .setParamOsc0Waveform _ => 0x02
  | .setParamOsc1Waveform _ => 0x02
  | .setParamOsc0Enable _ => 0x02
  | .setParamOsc1Enable _ => 0x02
  | .setParamCfgSampleRate _ => 0x02
  | .setParamCfgMaxBlock _ => 0x02
  | .setParamCfgNumChannels _ => 0x02
  | .noteOn _ _ => 0x03
  | .noteOff _ _ _ => 0x04
  | .allNotesOff _ => 0x05
  | .render _ => 0x06

namespace Laws.OpcodeField

/-- The word of the command carries its opcode in bits 31:24 (R81). -/
def Statement (i : Instr) : Prop := field (encode i) 31 24 = i.opcode

theorem nop : Statement .nop := by unfold Statement; decide

theorem prepare : Statement .prepare := by unfold Statement; decide

theorem setParamAmpAttack (v : BitVec 18) : Statement (.setParamAmpAttack v) := field_encodeSetParam_op _ v

theorem setParamAmpDecay (v : BitVec 18) : Statement (.setParamAmpDecay v) := field_encodeSetParam_op _ v

theorem setParamAmpSustain (v : BitVec 18) : Statement (.setParamAmpSustain v) := field_encodeSetParam_op _ v

theorem setParamAmpRelease (v : BitVec 18) : Statement (.setParamAmpRelease v) := field_encodeSetParam_op _ v

theorem setParamFltAttack (v : BitVec 18) : Statement (.setParamFltAttack v) := field_encodeSetParam_op _ v

theorem setParamFltDecay (v : BitVec 18) : Statement (.setParamFltDecay v) := field_encodeSetParam_op _ v

theorem setParamFltSustain (v : BitVec 18) : Statement (.setParamFltSustain v) := field_encodeSetParam_op _ v

theorem setParamFltRelease (v : BitVec 18) : Statement (.setParamFltRelease v) := field_encodeSetParam_op _ v

theorem setParamFilterCutoff (v : BitVec 18) : Statement (.setParamFilterCutoff v) := field_encodeSetParam_op _ v

theorem setParamFilterResonance (v : BitVec 18) : Statement (.setParamFilterResonance v) := field_encodeSetParam_op _ v

theorem setParamFilterMode (v : BitVec 18) : Statement (.setParamFilterMode v) := field_encodeSetParam_op _ v

theorem setParamLfoFreq (v : BitVec 18) : Statement (.setParamLfoFreq v) := field_encodeSetParam_op _ v

theorem setParamLfoAmount (v : BitVec 18) : Statement (.setParamLfoAmount v) := field_encodeSetParam_op _ v

theorem setParamFenvEnable (v : BitVec 18) : Statement (.setParamFenvEnable v) := field_encodeSetParam_op _ v

theorem setParamFenvAmount (v : BitVec 18) : Statement (.setParamFenvAmount v) := field_encodeSetParam_op _ v

theorem setParamOsc0Waveform (v : BitVec 18) : Statement (.setParamOsc0Waveform v) := field_encodeSetParam_op _ v

theorem setParamOsc1Waveform (v : BitVec 18) : Statement (.setParamOsc1Waveform v) := field_encodeSetParam_op _ v

theorem setParamOsc0Enable (v : BitVec 18) : Statement (.setParamOsc0Enable v) := field_encodeSetParam_op _ v

theorem setParamOsc1Enable (v : BitVec 18) : Statement (.setParamOsc1Enable v) := field_encodeSetParam_op _ v

theorem setParamCfgSampleRate (v : BitVec 18) : Statement (.setParamCfgSampleRate v) := field_encodeSetParam_op _ v

theorem setParamCfgMaxBlock (v : BitVec 18) : Statement (.setParamCfgMaxBlock v) := field_encodeSetParam_op _ v

theorem setParamCfgNumChannels (v : BitVec 18) : Statement (.setParamCfgNumChannels v) := field_encodeSetParam_op _ v

theorem noteOn (note vel : BitVec 7) : Statement (.noteOn note vel) := by
  have hn := note.isLt
  have hv := vel.isLt
  show field (encodeNoteOn note vel) 31 24 = 3
  unfold encodeNoteOn
  rw [field_ofNat (by omega)]
  omega

theorem noteOff (hard : Bool) (note vel : BitVec 7) : Statement (.noteOff hard note vel) := by
  have hn := note.isLt
  have hv := vel.isLt
  show field (encodeNoteOff hard note vel) 31 24 = 4
  unfold encodeNoteOff
  cases hard <;> simp only [Bool.toNat_true, Bool.toNat_false] <;> rw [field_ofNat (by omega)] <;> omega

theorem allNotesOff (hard : Bool) : Statement (.allNotesOff hard) := by
  unfold Statement
  cases hard <;> decide

theorem render (nfr : BitVec 16) : Statement (.render nfr) := by
  have hn := nfr.isLt
  show field (encodeRender nfr) 31 24 = 6
  unfold encodeRender
  rw [field_ofNat (by omega)]
  omega

end Laws.OpcodeField

end Sys2Proof
end

