-- ==== Sys2Proof/Laws/Encoding.lean ====
section
/-! SUPPORT. The fields of a word as bits and as slices, R94's masks as fields, and the SET_PARAM row of the
decoder. -/

namespace Sys2Proof

theorem field_op_lt (w : Word) : field w 31 24 < 256 := Nat.mod_lt _ (by norm_num)

/-- R8: a field is a slice of the word, read as a number. -/
theorem field_eq_extract (w : Word) (hi lo : Nat) :
    field w hi lo = (w.extractLsb' lo (hi + 1 - lo)).toNat := by
  unfold field
  rw [BitVec.extractLsb'_toNat, Nat.shiftRight_eq_div_pow]

theorem ofNat_field (w : Word) (hi lo : Nat) :
    BitVec.ofNat (hi + 1 - lo) (field w hi lo) = w.extractLsb' lo (hi + 1 - lo) := by
  rw [field_eq_extract, BitVec.ofNat_toNat, BitVec.setWidth_eq]

/-- A one-bit field is that bit (R8). -/
theorem field_bit (w : Word) (k : Nat) : (field w k k == 1) = w.getLsbD k := by
  unfold field
  rw [BitVec.getLsbD, Nat.testBit_eq_decide_div_mod_eq, show k + 1 - k = 1 by omega]
  simp only [pow_one]
  rfl

/-- A field has a value exactly when its bits are the bits of that value. -/
theorem field_eq_iff (w : Word) (hi lo x : Nat) (hx : x < 2 ^ (hi + 1 - lo)) :
    field w hi lo = x ↔ ∀ i < hi + 1 - lo, w.getLsbD (lo + i) = x.testBit i := by
  unfold field
  rw [← Nat.shiftRight_eq_div_pow]
  constructor
  · rintro rfl i hi'
    rw [Nat.testBit_mod_two_pow]
    simp only [hi', decide_true, Nat.testBit_shiftRight, Bool.true_and]
    rfl
  · intro h
    apply Nat.eq_of_testBit_eq
    intro i
    rw [Nat.testBit_mod_two_pow]
    by_cases hi' : i < hi + 1 - lo
    · simp only [hi', decide_true, Nat.testBit_shiftRight, Bool.true_and]
      exact h i hi'
    · simp only [hi', decide_false, Bool.false_and]
      rw [Nat.testBit_lt_two_pow (lt_of_lt_of_le hx (Nat.pow_le_pow_right (by norm_num) (by omega)))]

/-- A masked word has a value exactly when its bits do. -/
theorem and_eq_iff (w m p : Word) :
    w &&& m = p ↔ ∀ i ∈ List.range 32, (w.getLsbD i && m.getLsbD i) = p.getLsbD i := by
  constructor
  · rintro rfl i _
    simp
  · intro h
    apply BitVec.eq_of_getLsbD_eq
    intro i hi
    simpa using h i (List.mem_range.2 hi)

theorem field_eq_iff_range (w : Word) (hi lo x : Nat) (hx : x < 2 ^ (hi + 1 - lo)) :
    field w hi lo = x ↔ ∀ i ∈ List.range (hi + 1 - lo), w.getLsbD (lo + i) = x.testBit i := by
  rw [field_eq_iff w hi lo x hx]
  simp

/-- NOP's row of R94. -/
theorem nopRow_iff (w : Word) :
    w &&& 0xFFFFFFFF#32 = 0x00000000#32 ↔ field w 31 24 = 0 ∧ field w 23 0 = 0 := by
  rw [and_eq_iff, field_eq_iff_range _ _ _ _ (by decide), field_eq_iff_range _ _ _ _ (by decide)]
  simp [List.range_succ]
  grind

/-- PREPARE's row of R94. -/
theorem prepareRow_iff (w : Word) :
    w &&& 0xFFFFFFFF#32 = 0x01000000#32 ↔ field w 31 24 = 1 ∧ field w 23 0 = 0 := by
  rw [and_eq_iff, field_eq_iff_range _ _ _ _ (by decide), field_eq_iff_range _ _ _ _ (by decide)]
  simp [List.range_succ]
  grind

/-- SET_PARAM's row of R94, without its extra condition. -/
theorem setParamRow_iff (w : Word) : w &&& 0xFF000000#32 = 0x02000000#32 ↔ field w 31 24 = 2 := by
  rw [and_eq_iff, field_eq_iff_range _ _ _ _ (by decide)]
  have h : ∀ i ∈ [2, 3, 4, 5, 6, 7], Nat.testBit 2 i = false := by decide
  have h1 : Nat.testBit 2 1 = true := by decide
  simp at h
  simp [List.range_succ, h, h1]

/-- NOTE_ON's row of R94. -/
theorem noteOnRow_iff (w : Word) : w &&& 0xFFFF8080#32 = 0x03000000#32 ↔
    field w 31 24 = 3 ∧ field w 23 15 = 0 ∧ field w 7 7 = 0 := by
  rw [and_eq_iff, field_eq_iff_range _ _ _ _ (by decide), field_eq_iff_range _ _ _ _ (by decide),
    field_eq_iff_range _ _ _ _ (by decide)]
  simp [List.range_succ]
  grind

/-- NOTE_OFF's row of R94. -/
theorem noteOffRow_iff (w : Word) : w &&& 0xFFFE8080#32 = 0x04000000#32 ↔
    field w 31 24 = 4 ∧ field w 23 17 = 0 ∧ field w 15 15 = 0 ∧ field w 7 7 = 0 := by
  rw [and_eq_iff, field_eq_iff_range _ _ _ _ (by decide), field_eq_iff_range _ _ _ _ (by decide),
    field_eq_iff_range _ _ _ _ (by decide), field_eq_iff_range _ _ _ _ (by decide)]
  simp [List.range_succ]
  grind

/-- ALL_NOTES_OFF's row of R94. -/
theorem allNotesOffRow_iff (w : Word) : w &&& 0xFFFEFFFF#32 = 0x05000000#32 ↔
    field w 31 24 = 5 ∧ field w 23 17 = 0 ∧ field w 15 0 = 0 := by
  rw [and_eq_iff, field_eq_iff_range _ _ _ _ (by decide), field_eq_iff_range _ _ _ _ (by decide),
    field_eq_iff_range _ _ _ _ (by decide)]
  simp [List.range_succ]
  grind

/-- RENDER's row of R94. -/
theorem renderRow_iff (w : Word) :
    w &&& 0xFFFF0000#32 = 0x06000000#32 ↔ field w 31 24 = 6 ∧ field w 23 16 = 0 := by
  rw [and_eq_iff, field_eq_iff_range _ _ _ _ (by decide), field_eq_iff_range _ _ _ _ (by decide)]
  simp [List.range_succ]
  grind

/-- A SET_PARAM command determines its parameter and value, and is no other command. -/
theorem setParamInstr_inj {p q : ParamId} {v u : BitVec 18} (h : setParamInstr p v = setParamInstr q u) :
    p = q ∧ v = u := by
  cases p <;> cases q <;> simp_all [setParamInstr]

theorem encode_setParamInstr (p : ParamId) (v : BitVec 18) :
    encode (setParamInstr p v) = encodeSetParam p v := by cases p <;> rfl

/-- The SET_PARAM row of the decoder (R84). -/
theorem decode_eq_setParam (w : Word) (p : ParamId) (v : BitVec 18) :
    decode w = .ok (setParamInstr p v) ↔
      field w 31 24 = 2 ∧ ParamId.ofNum? (field w 23 18) = some p ∧ v = BitVec.ofNat 18 (field w 17 0) := by
  have hne : ∀ i : Instr, (i = .nop ∨ i = .prepare ∨ (∃ a b, i = .noteOn a b) ∨ (∃ a b c, i = .noteOff a b c) ∨
      (∃ a, i = .allNotesOff a) ∨ ∃ a, i = .render a) → i ≠ setParamInstr p v := by
    rintro i h e
    subst e
    cases p <;> simp [setParamInstr] at h
  unfold decode
  split <;> rename_i hop
  · unfold decodeNop
    split <;> simp [hop, hne .nop (by simp)]
  · unfold decodePrepare
    split <;> simp [hop, hne .prepare (by simp)]
  · simp only [hop, true_and]
    unfold decodeSetParam
    split
    · rename_i q hq
      rw [hq]
      constructor
      · intro h
        simp only [Except.ok.injEq] at h
        obtain ⟨rfl, rfl⟩ := setParamInstr_inj h
        exact ⟨rfl, rfl⟩
      · rintro ⟨h, rfl⟩
        cases h
        rfl
    · rename_i hq
      rw [hq]
      simp
  · unfold decodeNoteOn
    split <;> simp [hop, hne (.noteOn _ _) (by simp)]
  · unfold decodeNoteOff
    split <;> simp [hop, hne (.noteOff _ _ _) (by simp)]
  · unfold decodeAllNotesOff
    split <;> simp [hop, hne (.allNotesOff _) (by simp)]
  · unfold decodeRender
    split <;> simp [hop, hne (.render _) (by simp)]
  · simp only [reduceCtorEq, false_iff]
    rintro ⟨h, -⟩
    contradiction

end Sys2Proof
end

