-- ==== Sys2Proof/Laws/Signal.lean ====
section
/-! SUPPORT. The ROM lookups: bounds of the sine, and that the tanh is non-decreasing and below ONE. -/

namespace Sys2Proof.Machine

theorem sinRom_bounds : ∀ i < 1024, -1073741824 ≤ sinRom i ∧ sinRom i ≤ 1073741824 := by
  decide +kernel

theorem tanhRom_succ : ∀ j < 256, tanhRom j ≤ tanhRom (j + 1) := by decide +kernel

theorem tanhRom_last : tanhRom 256 = 16777212 := by decide +kernel

/-- An interpolation between two values lies between them. -/
theorem interp_between (a b f : Int) (n : Nat) (h0 : 0 ≤ f) (h1 : f ≤ 2 ^ n) :
    min a b ≤ a + fdiv ((b - a) * f) (2 ^ n) ∧ a + fdiv ((b - a) * f) (2 ^ n) ≤ max a b := by
  have hp : (0 : Int) < 2 ^ n := by positivity
  unfold fdiv
  rcases le_total a b with h | h
  · have := Int.ediv_nonneg (mul_nonneg (sub_nonneg.2 h) h0) hp.le
    have := Int.ediv_le_of_le_mul hp (show (b - a) * f ≤ (b - a) * 2 ^ n by nlinarith)
    omega
  · have : (b - a) * f / 2 ^ n ≤ 0 := Int.ediv_le_of_le_mul hp (by nlinarith)
    have := (Int.le_ediv_iff_mul_le hp).2 (show (b - a) * 2 ^ n ≤ (b - a) * f by nlinarith)
    omega

/-- The interpolated sine lies in [-2^30, 2^30] (R270). -/
theorem sinq30_bounds (p : Word) : -1073741824 ≤ sinq30 p ∧ sinq30 p ≤ 1073741824 := by
  unfold sinq30
  have hp := p.isLt
  have hi : p.toNat / 2 ^ 22 < 1024 := by omega
  have ha := sinRom_bounds _ hi
  have hb := sinRom_bounds ((p.toNat / 2 ^ 22 + 1) % 1024) (Nat.mod_lt _ (by decide))
  have := interp_between (sinRom (p.toNat / 2 ^ 22)) (sinRom ((p.toNat / 2 ^ 22 + 1) % 1024))
    (p.toNat % 2 ^ 22 : Nat) 22 (by omega) (by omega)
  simp only at *
  omega

/-- TANH_ROM is non-decreasing (R271). -/
theorem tanhRom_mono {i j : Nat} (h : i ≤ j) (hj : j ≤ 256) : tanhRom i ≤ tanhRom j := by
  induction j with
  | zero => simp_all
  | succ j ih =>
    rcases Nat.eq_or_lt_of_le h with rfl | h
    · exact le_rfl
    · exact (ih (by omega) (by omega)).trans (tanhRom_succ j (by omega))

/-- The interpolated tanh lies between the two table entries around its argument (R271). -/
theorem tanhq24_between {u : Nat} (h : u < 2 ^ 27) :
    (tanhRom (u / 2 ^ 19) : Int) ≤ tanhq24 u ∧ tanhq24 u ≤ tanhRom (u / 2 ^ 19 + 1) := by
  unfold tanhq24
  rw [if_neg (by omega)]
  have hm := tanhRom_succ (u / 2 ^ 19) (by omega)
  have := interp_between (tanhRom (u / 2 ^ 19)) (tanhRom (u / 2 ^ 19 + 1)) (u % 2 ^ 19 : Nat) 19
    (by omega) (by omega)
  simp only at *
  omega

/-- The interpolated tanh is non-decreasing (R271). -/
theorem tanhq24_mono {u v : Nat} (h : u ≤ v) : tanhq24 u ≤ tanhq24 v := by
  by_cases hv : 2 ^ 27 ≤ v
  · have e : tanhq24 v = tanhRom 256 := by unfold tanhq24; rw [if_pos hv]
    by_cases hu : 2 ^ 27 ≤ u
    · unfold tanhq24; rw [if_pos hv, if_pos hu]
    · have h1 := (tanhq24_between (u := u) (by omega)).2
      have h2 := tanhRom_mono (i := u / 2 ^ 19 + 1) (j := 256) (by omega) le_rfl
      omega
  · rcases Nat.lt_or_ge (u / 2 ^ 19) (v / 2 ^ 19) with hlt | hge
    · have h1 := (tanhq24_between (u := u) (by omega)).2
      have h2 := (tanhq24_between (u := v) (by omega)).1
      have h3 := tanhRom_mono (i := u / 2 ^ 19 + 1) (j := v / 2 ^ 19) (by omega) (by omega)
      omega
    · have he : u / 2 ^ 19 = v / 2 ^ 19 := by omega
      unfold tanhq24
      rw [if_neg (by omega), if_neg hv, he]
      have hm := tanhRom_succ (v / 2 ^ 19) (by omega)
      simp only [fdiv]
      have hle : ((u % 2 ^ 19 : Nat) : Int) ≤ (v % 2 ^ 19 : Nat) := by omega
      have := Int.ediv_le_ediv (a := ((tanhRom (v / 2 ^ 19 + 1) : Int) - tanhRom (v / 2 ^ 19)) * (u % 2 ^ 19 : Nat))
        (b := ((tanhRom (v / 2 ^ 19 + 1) : Int) - tanhRom (v / 2 ^ 19)) * (v % 2 ^ 19 : Nat))
        (show (0 : Int) < 2 ^ 19 by norm_num) (mul_le_mul_of_nonneg_left hle (by omega))
      omega

/-- The interpolated tanh lies in 0..ONE - 4 (R271). -/
theorem tanhq24_bounds (u : Nat) : 0 ≤ tanhq24 u ∧ tanhq24 u ≤ 16777212 := by
  have h0 : tanhq24 0 = 0 := by decide +kernel
  have h1 : tanhq24 (2 ^ 27 + u) = 16777212 := by
    unfold tanhq24
    rw [if_pos (by omega), tanhRom_last]
    rfl
  have := tanhq24_mono (Nat.zero_le u)
  have := tanhq24_mono (show u ≤ 2 ^ 27 + u by omega)
  omega

end Sys2Proof.Machine
end

