-- ==== Sys2Proof/Laws/Step.lean ====
section
/-! SUPPORT. What a command and a step can do, said once: every later invariant follows from these, without
unfolding the dispatch. -/

namespace Sys2Proof.Machine

/-- What a command is: nothing, a prepare, a store to stg[], a queued event, or a block (R100 to R107). -/
theorem exec_cases (i : Instr) (s : State) :
    (i = .nop ∧ exec i s = .next s) ∨
      (i = .prepare ∧ exec i s = .next (commit (engineReset (latchConfig s)))) ∨
      (∃ p v, i = setParamInstr p v ∧ exec i s = setParam p v s) ∨
      (∃ e, exec i s = .next (enqueue e s)) ∨
      ∃ n, i = .render n ∧ exec i s = execRender n s := by
  cases i with
  | nop => exact .inl ⟨rfl, rfl⟩
  | prepare => exact .inr (.inl ⟨rfl, rfl⟩)
  | noteOn note vel => exact .inr (.inr (.inr (.inl ⟨_, rfl⟩)))
  | noteOff hard note vel => exact .inr (.inr (.inr (.inl ⟨_, rfl⟩)))
  | allNotesOff hard => exact .inr (.inr (.inr (.inl ⟨_, rfl⟩)))
  | render nfr => exact .inr (.inr (.inr (.inr ⟨nfr, rfl, rfl⟩)))
  | setParamAmpAttack v => exact .inr (.inr (.inl ⟨.ampAttack, v, rfl, rfl⟩))
  | setParamAmpDecay v => exact .inr (.inr (.inl ⟨.ampDecay, v, rfl, rfl⟩))
  | setParamAmpSustain v => exact .inr (.inr (.inl ⟨.ampSustain, v, rfl, rfl⟩))
  | setParamAmpRelease v => exact .inr (.inr (.inl ⟨.ampRelease, v, rfl, rfl⟩))
  | setParamFltAttack v => exact .inr (.inr (.inl ⟨.fltAttack, v, rfl, rfl⟩))
  | setParamFltDecay v => exact .inr (.inr (.inl ⟨.fltDecay, v, rfl, rfl⟩))
  | setParamFltSustain v => exact .inr (.inr (.inl ⟨.fltSustain, v, rfl, rfl⟩))
  | setParamFltRelease v => exact .inr (.inr (.inl ⟨.fltRelease, v, rfl, rfl⟩))
  | setParamFilterCutoff v => exact .inr (.inr (.inl ⟨.filterCutoff, v, rfl, rfl⟩))
  | setParamFilterResonance v => exact .inr (.inr (.inl ⟨.filterResonance, v, rfl, rfl⟩))
  | setParamFilterMode v => exact .inr (.inr (.inl ⟨.filterMode, v, rfl, rfl⟩))
  | setParamLfoFreq v => exact .inr (.inr (.inl ⟨.lfoFreq, v, rfl, rfl⟩))
  | setParamLfoAmount v => exact .inr (.inr (.inl ⟨.lfoAmount, v, rfl, rfl⟩))
  | setParamFenvEnable v => exact .inr (.inr (.inl ⟨.fenvEnable, v, rfl, rfl⟩))
  | setParamFenvAmount v => exact .inr (.inr (.inl ⟨.fenvAmount, v, rfl, rfl⟩))
  | setParamOsc0Waveform v => exact .inr (.inr (.inl ⟨.osc0Waveform, v, rfl, rfl⟩))
  | setParamOsc1Waveform v => exact .inr (.inr (.inl ⟨.osc1Waveform, v, rfl, rfl⟩))
  | setParamOsc0Enable v => exact .inr (.inr (.inl ⟨.osc0Enable, v, rfl, rfl⟩))
  | setParamOsc1Enable v => exact .inr (.inr (.inl ⟨.osc1Enable, v, rfl, rfl⟩))
  | setParamCfgSampleRate v => exact .inr (.inr (.inl ⟨.cfgSampleRate, v, rfl, rfl⟩))
  | setParamCfgMaxBlock v => exact .inr (.inr (.inl ⟨.cfgMaxBlock, v, rfl, rfl⟩))
  | setParamCfgNumChannels v => exact .inr (.inr (.inl ⟨.cfgNumChannels, v, rfl, rfl⟩))

/-- A command answers next from every state with room for its stamps (R99, R296). -/
theorem exec_room (i : Instr) {s : State} (h : s.SeqRoom (stampsNeeded s)) : ∃ t, exec i s = .next t := by
  rcases exec_cases i s with ⟨-, e⟩ | ⟨-, e⟩ | ⟨p, v, -, e⟩ | ⟨x, e⟩ | ⟨n, -, e⟩
  · exact ⟨_, e⟩
  · exact ⟨_, e⟩
  · obtain ⟨t, ht, -⟩ := setParam_eq p v s
    exact ⟨t, e.trans ht⟩
  · exact ⟨_, e⟩
  · obtain ⟨t, ht, -⟩ := execRender_room (nfr := n) (s := s) (n := 0) (by simpa using h)
    exact ⟨t, e.trans ht⟩

/-- A command answers next, or is refused as seqWrap; it stops in no other way (R296, I4). -/
theorem exec_next_or_seqWrap (i : Instr) (s : State) :
    (∃ t, exec i s = .next t) ∨ exec i s = .refused .seqWrap := by
  have hok : ∀ t : State, (∃ u, (.next t : Result) = .next u) ∨ (.next t : Result) = .refused .seqWrap :=
    fun t => .inl ⟨t, rfl⟩
  have hnext : ∀ s : State, (∃ t, nextSeq s = .next t) ∨ nextSeq s = .refused .seqWrap := fun s => by
    unfold nextSeq; split <;> simp
  have hthen : ∀ {r : Result} {f : State → Result}, ((∃ t, r = .next t) ∨ r = .refused .seqWrap) →
      (∀ s, (∃ t, f s = .next t) ∨ f s = .refused .seqWrap) →
      (∃ t, andThen r f = .next t) ∨ andThen r f = .refused .seqWrap := by
    rintro r f (⟨t, rfl⟩ | rfl) hf
    exacts [hf t, .inr rfl]
  have hloop : ∀ {f : Fin Config.numVoices → State → Result},
      (∀ v s, (∃ t, f v s = .next t) ∨ f v s = .refused .seqWrap) →
      ∀ vs s, (∃ t, forVoices f vs s = .next t) ∨ forVoices f vs s = .refused .seqWrap := fun {f} hf vs => by
    induction vs with
    | nil => exact hok
    | cons v vs ih => exact fun s => hthen (hf v s) ih
  have hstop : ∀ hard v s, (∃ t, stopNote hard v s = .next t) ∨ stopNote hard v s = .refused .seqWrap :=
    fun hard v s => by
      unfold stopNote
      split
      exacts [hthen (hnext s) fun _ => hok _, hok _]
  have hstart : ∀ v m vel s,
      (∃ t, startNote v m vel s = .next t) ∨ startNote v m vel s = .refused .seqWrap :=
    fun v m vel s => hthen (hnext s) fun _ => hok _
  have hoff : ∀ m hard s, (∃ t, noteOff m hard s = .next t) ∨ noteOff m hard s = .refused .seqWrap :=
    fun m hard => hloop (fun v s => by split; exacts [hstop _ _ _, hok _]) _
  have hdisp : ∀ e s, (∃ t, dispatch e s = .next t) ∨ dispatch e s = .refused .seqWrap := fun e s => by
    cases e with
    | noteOff hard note vel => exact hoff _ _ _
    | allNotesOff hard => exact hloop (fun v s => by split <;> split <;> first | exact hstop _ _ _ | exact hok _) _ _
    | noteOn note vel =>
      refine hthen (hoff _ _ _) fun u => ?_
      unfold allocate
      split
      exacts [hstart _ _ _ _, hthen (hstop _ _ _) (hstart _ _ _)]
  have hall : ∀ es s, (∃ t, dispatchAll es s = .next t) ∨ dispatchAll es s = .refused .seqWrap := fun es => by
    induction es with
    | nil => exact hok
    | cons e es ih => exact fun s => hthen (hdisp e s) ih
  have hfree : ∀ s, (∃ t, freeFinished s = .next t) ∨ freeFinished s = .refused .seqWrap :=
    hloop (fun v s => by
      unfold freeVoice
      split
      exacts [hthen (hnext s) fun _ => hok _, hok _]) _
  rcases exec_cases i s with ⟨-, e⟩ | ⟨-, e⟩ | ⟨p, v, -, e⟩ | ⟨y, e⟩ | ⟨n, -, e⟩ <;> rw [e]
  · exact hok _
  · exact hok _
  · exact hok _
  · exact hok _
  · exact hthen (hall _ _) fun u => hthen (hfree _) fun _ => hok _

/-- The window offset of an address in the window (R60). -/
theorem windowOffset_inside {off : Nat} (h : off < 0x4000) : windowOffset (Config.base + off) = some off := by
  unfold windowOffset
  rw [if_pos ⟨Nat.le_add_right _ _, by rw [Config.windowSize]; omega⟩, Nat.add_sub_cancel_left]

/-- An address outside the window has no offset in it (R60). -/
theorem windowOffset_outside {addr : Nat} (h : addr < Config.base ∨ Config.base + 0x4000 ≤ addr) :
    windowOffset addr = none := if_neg (by rw [Config.windowSize]; omega)

/-- What a host access turn does: nothing outside the window, else a read or a write of it (R60, R65). -/
theorem hostAccess_cases (a : Access) (s : State) :
    hostAccess a s = s ∨ (∃ off size, hostAccess a s = s.hostRead off size) ∨
      ∃ off size v, hostAccess a s = s.hostWrite off size v := by
  cases a with
  | read addr size => unfold hostAccess; dsimp only; split; exacts [.inr (.inl ⟨_, _, rfl⟩), .inl rfl]
  | write addr size v => unfold hostAccess; dsimp only; split; exacts [.inr (.inr ⟨_, _, _, rfl⟩), .inl rfl]

/-- What a step does: an idle turn (or a host access elsewhere), a command, an illegal word, an issue, a host access, or a reset
(R67, R99, R300). -/
theorem step_cases {s t : State} (h : step s = .next t) :
    ∃ r, (s.schedule = r ∧ r = [] ∨ ∃ x, s.schedule = x :: r) ∧
      (t = { s with schedule := r } ∨
        (∃ w u i, fetch { s with schedule := r } = some (w, u) ∧ decode w = .ok i ∧ exec i u = .next t) ∨
        (∃ w u e, fetch { s with schedule := r } = some (w, u) ∧ decode w = .error e ∧
          t = raiseIllegal w u) ∨
        t = issue { s with schedule := r } ∨
        (∃ off size, t = State.hostRead off size { s with schedule := r }) ∨
        (∃ off size v, t = State.hostWrite off size v { s with schedule := r }) ∨
        (s.schedule = .reset :: r ∧ t = resetInput { s with schedule := r })) := by
  have hcmd : ∀ r, commandStep { s with schedule := r } = .next t →
      t = { s with schedule := r } ∨
        (∃ w u i, fetch { s with schedule := r } = some (w, u) ∧ decode w = .ok i ∧ exec i u = .next t) ∨
        (∃ w u e, fetch { s with schedule := r } = some (w, u) ∧ decode w = .error e ∧
          t = raiseIllegal w u) := by
    intro r h
    unfold commandStep at h
    split at h
    · rename_i w u hf
      unfold runWord at h
      split at h
      · rename_i i hd
        exact .inr (.inl ⟨w, u, i, hf, hd, h⟩)
      · rename_i e hd
        cases h
        exact .inr (.inr ⟨w, u, e, hf, hd, rfl⟩)
    · cases h
      exact .inl rfl
  unfold step takeTurn at h
  split at h
  · rename_i hs
    refine ⟨[], .inl ⟨hs, rfl⟩, ?_⟩
    rcases hcmd [] (by rw [← hs]; exact h) with h | h | h
    exacts [.inl h, .inr (.inl h), .inr (.inr (.inl h))]
  · rename_i r hs
    refine ⟨r, .inr ⟨_, hs⟩, ?_⟩
    rcases hcmd r h with h | h | h
    exacts [.inl h, .inr (.inl h), .inr (.inr (.inl h))]
  · rename_i r hs
    cases h
    exact ⟨r, .inr ⟨_, hs⟩, .inr (.inr (.inr (.inl rfl)))⟩
  · rename_i a r hs
    refine ⟨r, .inr ⟨_, hs⟩, ?_⟩
    cases h
    rcases hostAccess_cases a { s with schedule := r } with e | ⟨off, size, e⟩ | ⟨off, size, v, e⟩ <;> rw [e]
    exacts [.inl rfl, .inr (.inr (.inr (.inr (.inl ⟨_, _, rfl⟩)))),
      .inr (.inr (.inr (.inr (.inr (.inl ⟨_, _, _, rfl⟩)))))]
  · rename_i r hs
    cases h
    exact ⟨r, .inr ⟨_, hs⟩, .inr (.inr (.inr (.inr (.inr (.inr ⟨hs, rfl⟩)))))⟩

/-- What a host write changes: STATUS, CTRL, CMDQ and the response (R65). -/
theorem hostWrite_frame (off size : Nat) (v : Word) (s : State) :
    s.hostWrite off size v = { s with
      status := (s.hostWrite off size v).status
      ctrl := (s.hostWrite off size v).ctrl
      cmdq := (s.hostWrite off size v).cmdq
      response := (s.hostWrite off size v).response } := by
  unfold State.hostWrite
  split
  · unfold State.writeReg
    split
    · rfl
    · rfl
    · unfold writeCmd
      split <;> rfl
    · rfl
  · rfl

/-- A property that does not read the host's side of the state, STATUS, CTRL and LAST_ILLEGAL is kept by
every step, when it holds at reset and PREPARE, SET_PARAM, the note events and RENDER keep it. -/
theorem step_keeps {P : State → Prop}
    (blind : ∀ (s : State) (st ct li : Word) (q : List Word) (ex : Option Word) (sc : List Turn)
      (rs : Option Response), P s → P { s with
        status := st, ctrl := ct, lastIllegal := li, cmdq := q, executing := ex, schedule := sc,
        response := rs })
    (reset : P State.reset)
    (prepare : ∀ s, P s → P (commit (engineReset (latchConfig s))))
    (store : ∀ p v s t, P s → setParam p v s = .next t → P t)
    (event : ∀ e s, P s → P (enqueue e s))
    (block : ∀ n s t, P s → execRender n s = .next t → P t)
    {s t : State} (hs : P s) (h : step s = .next t) : P t := by
  obtain ⟨r, -, h⟩ := step_cases h
  have h0 : ∀ sc, P { s with schedule := sc } := fun sc => blind s s.status s.ctrl s.lastIllegal s.cmdq
    s.executing sc s.response hs
  have hfetch : ∀ {w u}, fetch { s with schedule := r } = some (w, u) → P u := fun {w u} hf => by
    rcases fetch_eq_some hf with ⟨-, rfl⟩ | ⟨-, q, -, rfl⟩
    · exact blind s s.status s.ctrl s.lastIllegal s.cmdq none r s.response hs
    · exact blind s s.status s.ctrl s.lastIllegal q s.executing r s.response hs
  rcases h with rfl | ⟨w, u, i, hf, -, he⟩ | ⟨w, u, e, hf, -, rfl⟩ | rfl | ⟨off, size, rfl⟩ |
    ⟨off, size, v, rfl⟩ | ⟨-, rfl⟩
  · exact h0 r
  · have hu := hfetch hf
    rcases exec_cases i u with ⟨-, e⟩ | ⟨-, e⟩ | ⟨p, v, -, e⟩ | ⟨x, e⟩ | ⟨n, -, e⟩ <;> rw [e] at he
    · cases he; exact hu
    · cases he; exact prepare u hu
    · exact store p v u t hu he
    · cases he; exact event x u hu
    · exact block n u t hu he
  · exact blind u _ u.ctrl w u.cmdq u.executing u.schedule u.response (hfetch hf)
  · rcases issue_cases { s with schedule := r } with e | ⟨w, q, -, -, e⟩
    · rw [e]; exact h0 r
    · rw [e]; exact blind s s.status s.ctrl s.lastIllegal q (some w) r s.response hs
  · exact blind s s.status s.ctrl s.lastIllegal s.cmdq s.executing r _ hs
  · rw [hostWrite_frame]
    exact blind s _ _ s.lastIllegal _ s.executing r _ hs
  · exact blind State.reset 0 0 0 [] none r s.response reset

/-- A voice after PREPARE: its reset value, with the envelope lengths and levels of the staged parameters
(R101, R250, R260). -/
def preparedEnv (q : EnvParams) : Env where
  stage := .idle
  level := 0
  start := 0
  target := 0
  k := 0
  n := 1
  na := q.na
  nd := q.nd
  nr := q.nr
  sus := q.sus

theorem prepare_voice (s : State) (v : Fin Config.numVoices) :
    (commit (engineReset (latchConfig s))).voice v =
      { Voice.reset (seed v.val 0) (seed v.val 1) with
        aenv := preparedEnv (ampParams s.stg.snap s.stg.sampleRate)
        fenv := preparedEnv (fltParams s.stg.snap s.stg.sampleRate) } := by
  rw [commit_voice, engineReset_voice]
  rfl

end Sys2Proof.Machine
end

