-- ==== Sys2Proof/Machine/Assembler.lean ====
section
/-! DEFINITION. The assembler's text (R92, R93): one line of characters to an assembly line, and to words. -/

namespace Sys2Proof

/-- A character that separates tokens (log 18). -/
def isBlank (c : Char) : Bool := c == ' ' || c == '\t'

/-- A text without its leading and trailing blanks. -/
def trimBlanks (cs : List Char) : List Char :=
  ((cs.dropWhile isBlank).reverse.dropWhile isBlank).reverse

/-- The line before its comment: `;` starts a comment (R92). -/
def stripComment (cs : List Char) : List Char := cs.takeWhile (· != ';')

/-- The parts of a text between commas. -/
def splitCommas : List Char → List (List Char)
  | [] => [[]]
  | c :: cs =>
    match splitCommas cs with
    | [] => [[c]]
    | part :: parts => if c == ',' then [] :: part :: parts else (c :: part) :: parts

/-- The value of a digit in a base, none for any other character. -/
def digitValue (base : Nat) (c : Char) : Option Nat :=
  let n := c.toNat
  let d := if 48 ≤ n ∧ n ≤ 57 then some (n - 48)
    else if 65 ≤ n ∧ n ≤ 70 then some (n - 55)
    else if 97 ≤ n ∧ n ≤ 102 then some (n - 87)
    else none
  match d with
  | some v => if v < base then some v else none
  | none => none

/-- The number a run of digits writes, from the value read so far. -/
def digits (base : Nat) : Nat → List Char → Option Nat
  | acc, [] => some acc
  | acc, c :: cs =>
    match digitValue base c with
    | some d => digits base (acc * base + d) cs
    | none => none

/-- A number: "decimal, or hexadecimal with a `0x` prefix" (R92). -/
def number : List Char → Option Nat
  | [] => none
  | '0' :: 'x' :: c :: cs => digits 16 0 (c :: cs)
  | c :: cs => digits 10 0 (c :: cs)

/-- Look a name up in a table of names. -/
def lookup (table : List (String × Nat)) (cs : List Char) : Option Nat :=
  (table.find? fun r => r.1 == String.ofList cs).map Prod.snd

/-- The parameter names of R26. -/
def paramNames : List (String × Nat) :=
  [("AMP_ATTACK", 0x00), ("AMP_DECAY", 0x01), ("AMP_SUSTAIN", 0x02), ("AMP_RELEASE", 0x03),
   ("FLT_ATTACK", 0x04), ("FLT_DECAY", 0x05), ("FLT_SUSTAIN", 0x06), ("FLT_RELEASE", 0x07),
   ("FILTER_CUTOFF", 0x08), ("FILTER_RESONANCE", 0x09), ("FILTER_MODE", 0x0A)] ++
  [("LFO_FREQ", 0x0B), ("LFO_AMOUNT", 0x0C), ("FENV_ENABLE", 0x0D), ("FENV_AMOUNT", 0x0E),
   ("OSC0_WAVEFORM", 0x10), ("OSC1_WAVEFORM", 0x11), ("OSC0_ENABLE", 0x18), ("OSC1_ENABLE", 0x19),
   ("CFG_SAMPLE_RATE", 0x20), ("CFG_MAX_BLOCK", 0x21), ("CFG_NUM_CHANNELS", 0x22)]

/-- The symbolic values of OSCi_WAVEFORM (R92). -/
def waveNames : List (String × Nat) :=
  [("SINE", 0), ("SQUARE", 1), ("SAW", 2), ("TRIANGLE", 3), ("NOISE", 4)]

/-- The symbolic values of FILTER_MODE (R92). -/
def modeNames : List (String × Nat) :=
  [("LPF12", 0), ("HPF12", 1), ("BPF12", 2), ("LPF24", 3), ("HPF24", 4), ("BPF24", 5)]

/-- The symbolic values a parameter takes. -/
def enumNames (id : Nat) : List (String × Nat) :=
  if id = 0x10 ∨ id = 0x11 then waveNames else if id = 0x0A then modeNames else []

/-- A number, or one of the names. -/
def valueOf (names : List (String × Nat)) (cs : List Char) : Option Nat :=
  match lookup names cs with
  | some v => some v
  | none => number cs

/-- The numbers of a list of operands, none if one is no number. -/
def numbers : List (List Char) → Option (List Nat)
  | [] => some []
  | cs :: rest =>
    match number cs, numbers rest with
    | some v, some vs => some (v :: vs)
    | _, _ => none

/-- SET_PARAM param, value (R92). -/
def parseSetParam (param value : List Char) : Option Asm :=
  match valueOf paramNames param with
  | some id => (valueOf (enumNames id) value).map (.setParam id)
  | none => none

/-- NOTE_OFF note [, vel] [, HARD] (R92). -/
def parseNoteOff (operands : List (List Char)) : Option Asm :=
  let hard := operands.getLast? == some ['H', 'A', 'R', 'D']
  match numbers (if hard then operands.dropLast else operands) with
  | some [note] => some (.noteOff note 0 hard)
  | some [note, vel] => some (.noteOff note vel hard)
  | _ => none

/-- SET_FILTER cutoff, res, mode (R93). -/
def parseSetFilter (cutoff res mode : List Char) : Option Asm :=
  match number cutoff, number res, valueOf modeNames mode with
  | some c, some r, some m => some (.setFilter c r m)
  | _, _, _ => none

/-- SET_WAVE i, kind (R93). -/
def parseSetWave (osc kind : List Char) : Option Asm :=
  match number osc, valueOf waveNames kind with
  | some i, some k => some (.setWave i k)
  | _, _ => none

/-- The forms whose operands are numbers only (R92, R93). -/
def parsePlain (mnemonic : String) (operands : List (List Char)) : Option Asm :=
  match mnemonic, numbers operands with
  | "NOP", some [] => some .nop
  | "PREPARE", some [] => some .prepare
  | "NOTE_ON", some [note, vel] => some (.noteOn note vel)
  | "RENDER", some [frames] => some (.render frames)
  | "SET_AMP_ADSR", some [a, d, s, r] => some (.setAmpAdsr a d s r)
  | "SET_FLT_ADSR", some [a, d, s, r] => some (.setFltAdsr a d s r)
  | "OSC_ON", some [i] => some (.oscOn i)
  | "OSC_OFF", some [i] => some (.oscOff i)
  | "SET_LFO", some [freq, amount] => some (.setLfo freq amount)
  | "SET_FENV", some [enable, amount] => some (.setFenv enable amount)
  | "CONFIGURE", some [sr, mb, nch] => some (.configure sr mb nch)
  | "PANIC", some [] => some .panic
  | "RELEASE_ALL", some [] => some .releaseAll
  | _, _ => none

/-- A command from its mnemonic and its operands (R92, R93). -/
def parseCommand (mnemonic : String) (operands : List (List Char)) : Option Asm :=
  match mnemonic, operands with
  | "SET_PARAM", [param, value] => parseSetParam param value
  | "NOTE_OFF", ops => parseNoteOff ops
  | "ALL_NOTES_OFF", [] => some (.allNotesOff false)
  | "ALL_NOTES_OFF", [['H', 'A', 'R', 'D']] => some (.allNotesOff true)
  | "SET_FILTER", [cutoff, res, mode] => parseSetFilter cutoff res mode
  | "SET_WAVE", [osc, kind] => parseSetWave osc kind
  | m, ops => parsePlain m ops

/-- A line of text: none where it is no command, and no command where it is blank or a comment (R92). -/
def parseLine (text : List Char) : Option (Option Asm) :=
  match trimBlanks (stripComment text) with
  | [] => some none
  | line =>
    let rest := trimBlanks (line.dropWhile fun c => !isBlank c)
    let operands := if rest.isEmpty then [] else (splitCommas rest).map trimBlanks
    (parseCommand (String.ofList (line.takeWhile fun c => !isBlank c)) operands).map some

/-- The words of a line of text; none where the assembler rejects it (R92, R93). -/
def assembleText (text : List Char) : Option (List Word) :=
  match parseLine text with
  | some none => some []
  | some (some line) => assemble line
  | none => none

end Sys2Proof
end

