-- ==== Sys2Proof/Tests/Slice0.lean ====
section
/-! SUPPORT. Tests: expected results from the spec's examples and from 95_test_vectors.md, the smoke test of
WellFormed, and a witness for the hypotheses of every statement that has some. -/

namespace Sys2Proof.Tests

set_option Elab.async false

open Sys2Proof Sys2Proof.Machine

/-- A step answered a next state, and the state passes a check. -/
def nextIs (r : Result) (p : State → Bool) : Bool :=
  match r with
  | .next s => p s
  | _ => false

/-- The next state of a step that answers one. -/
def nextOf (r : Result) (s : State) : State :=
  match r with
  | .next t => t
  | _ => s

/-- Reset with events already queued. -/
def queued (es : List Event) : State := { State.reset with evq := es }

/-- A voice that plays a note since stamp `stamp`, as at reset otherwise. -/
def sounding (life : Life) (note : BitVec 7) (stamp : BitVec 64) : Voice :=
  { Voice.reset 1 1 with
    state := life
    note := note
    trigSeq := stamp
    aenv := { Env.reset with
      stage := if life = .active then .sustain else .release
      n := 14400, start := 100, target := if life = .active then 11744051 else 0, level := 100 } }

/-- Ten sounding voices: voice 4 and voice 7 releasing, note 60 + v in voice v, stamps 10 - v. -/
def fullPool : State :=
  { State.reset with
    seq := 20
    voices := Vector.ofFn fun v => sounding (if v.val = 4 ∨ v.val = 7 then .releasing else .active)
      (BitVec.ofNat 7 (60 + v.val)) (BitVec.ofNat 64 (10 - v.val)) }

/-- Ten active voices. -/
def allActive : State :=
  { State.reset with
    seq := 20
    voices := Vector.ofFn fun v => sounding .active (BitVec.ofNat 7 (60 + v.val))
      (BitVec.ofNat 64 (10 - v.val)) }

/-- A voice whose amplitude envelope has finished, in slot 3. -/
def finished : State :=
  State.reset.setVoice 3 { sounding .active 60 1 with state := .releasing, aenv := Env.reset }

/-! ### WellFormed: one ill-formed line for each check, refused -/

theorem test_wf_setParam_id : assemble (.setParam 64 0) = none := by decide
theorem test_wf_setParam_val : assemble (.setParam 0 262144) = none := by decide
theorem test_wf_noteOn_note : assemble (.noteOn 128 0) = none := by decide
theorem test_wf_noteOn_vel : assemble (.noteOn 0 128) = none := by decide
theorem test_wf_noteOff_note : assemble (.noteOff 128 0 true) = none := by decide
theorem test_wf_noteOff_vel : assemble (.noteOff 0 128 false) = none := by decide
theorem test_wf_render : assemble (.render 65536) = none := by decide
theorem test_wf_adsr : assemble (.setAmpAdsr 1 1 262144 1) = none ∧
    assemble (.setFltAdsr 1 1 1 262144) = none := by decide
theorem test_wf_osc : assemble (.setWave 2 0) = none ∧ assemble (.setWave 1 262144) = none ∧
    assemble (.oscOn 2) = none ∧ assemble (.oscOff 2) = none := by decide
theorem test_wf_pseudo : assemble (.setFilter 262144 0 0) = none ∧ assemble (.setLfo 0 262144) = none ∧
    assemble (.setFenv 262144 0) = none ∧ assemble (.configure 0 0 262144) = none := by decide
theorem test_wf_accepts : assemble (.noteOn 127 127) = some [0x03007F7F#32] ∧
    assemble (.setParam 63 262143) = some [0x02FFFFFF#32] ∧ assemble .panic = some [0x05010000#32] := by
  decide

/-- 95_test_vectors.md section 2.1: assembly text and its word. -/
theorem test_assemble_text :
    ([("NOP", 0x00000000#32), ("PREPARE", 0x01000000#32), ("SET_PARAM AMP_ATTACK, 10", 0x0200000A#32),
      ("SET_PARAM FILTER_MODE, LPF24", 0x02280003#32), ("SET_PARAM CFG_SAMPLE_RATE, 192000", 0x0282EE00#32),
      ("NOTE_ON 127, 127", 0x03007F7F#32), ("NOTE_OFF 69", 0x04004500#32),
      ("NOTE_OFF 69, 0, HARD", 0x04014500#32), ("ALL_NOTES_OFF", 0x05000000#32),
      ("ALL_NOTES_OFF HARD", 0x05010000#32), ("RENDER 0xFFFF ; all", 0x0600FFFF#32),
      ("PANIC", 0x05010000#32)] : List (String × Word)).all
      (fun r => assembleText r.1.toList == some [r.2]) = true := by decide +kernel
/-- R92, R93: a pseudo-command, a comment, and lines the assembler rejects. -/
theorem test_assemble_text_more :
    assembleText "SET_WAVE 1, NOISE".toList = some [0x02440004#32] ∧
    assembleText "CONFIGURE 48000, 64, 1".toList =
      some [0x0280BB80#32, 0x02840040#32, 0x02880001#32, 0x01000000#32] ∧
    assembleText "; a comment".toList = some [] ∧ assembleText "NOTE_ON 128, 1".toList = none ∧
    assembleText "NOTE_ON 1".toList = none ∧ assembleText "RENDER 0xG".toList = none := by decide +kernel

/-! ### Words written out from the encodings of 30_encoding.md -/

/-- OP in bits 31..24, ID in 23..18, VAL in 17..0 (R81, R84). -/
theorem test_decode_setParam :
    decode (0b00000010#8 ++ 0b001000#6 ++ 0b000000011111010000#18) = .ok (.setParamFilterCutoff 2000#18) := by
  decide
/-- OP, nine zeros, NOTE in 14..8, a zero, VEL in 6..0 (R81, R85). -/
theorem test_decode_noteOn :
    decode (0b00000011#8 ++ 0b000000000#9 ++ 0b1000101#7 ++ 0b0#1 ++ 0b1111111#7) =
      .ok (.noteOn 69#7 127#7) := by decide
/-- OP, seven zeros, H in 16, a zero, NOTE, a zero, VEL (R81, R86). -/
theorem test_decode_noteOff :
    decode (0b00000100#8 ++ 0b0000000#7 ++ 0b1#1 ++ 0b0#1 ++ 0b1000101#7 ++ 0b0#1 ++ 0b0000000#7) =
      .ok (.noteOff true 69#7 0#7) := by decide
/-- OP, seven zeros, H in 16, sixteen zeros (R81, R87). -/
theorem test_decode_allNotesOff :
    decode (0b00000101#8 ++ 0b0000000#7 ++ 0b1#1 ++ 0b0000000000000000#16) = .ok (.allNotesOff true) := by
  decide
/-- OP, eight zeros, NFR in 15..0 (R81, R88). -/
theorem test_decode_render :
    decode (0b00000110#8 ++ 0b00000000#8 ++ 0b0000001000000000#16) = .ok (.render 512#16) := by decide
/-- Format Z (R81 to R83). -/
theorem test_decode_nop_prepare :
    decode (0b00000000#8 ++ 0b000000000000000000000000#24) = .ok .nop ∧
    decode (0b00000001#8 ++ 0b000000000000000000000000#24) = .ok .prepare := by decide

/-- The 22 rows of SET_PARAM, each with the id of R26 and VAL = 5. -/
theorem test_decode_setParam_rows :
    [0x02000005#32, 0x02040005#32, 0x02080005#32, 0x020C0005#32, 0x02100005#32, 0x02140005#32,
     0x02180005#32, 0x021C0005#32, 0x02200005#32, 0x02240005#32, 0x02280005#32].map
      (fun w => (decode w).toOption) =
    [some (.setParamAmpAttack 5), some (.setParamAmpDecay 5), some (.setParamAmpSustain 5),
     some (.setParamAmpRelease 5), some (.setParamFltAttack 5), some (.setParamFltDecay 5),
     some (.setParamFltSustain 5), some (.setParamFltRelease 5), some (.setParamFilterCutoff 5),
     some (.setParamFilterResonance 5), some (.setParamFilterMode 5)] ∧
    [0x022C0005#32, 0x02300005#32, 0x02340005#32, 0x02380005#32, 0x02400005#32, 0x02440005#32,
     0x02600005#32, 0x02640005#32, 0x02800005#32, 0x02840005#32, 0x02880005#32].map
      (fun w => (decode w).toOption) =
    [some (.setParamLfoFreq 5), some (.setParamLfoAmount 5), some (.setParamFenvEnable 5),
     some (.setParamFenvAmount 5), some (.setParamOsc0Waveform 5), some (.setParamOsc1Waveform 5),
     some (.setParamOsc0Enable 5), some (.setParamOsc1Enable 5), some (.setParamCfgSampleRate 5),
     some (.setParamCfgMaxBlock 5), some (.setParamCfgNumChannels 5)] := by decide

/-- The illegal words of 95_test_vectors.md section 2.1. -/
theorem test_illegal_words :
    [0x07000000#32, 0xFF000000#32, 0x00000001#32, 0x01000001#32, 0x0300C57F#32, 0x030045FF#32,
     0x03014500#32, 0x0300FF7F#32, 0x04024500#32, 0x04004580#32, 0x05000001#32, 0x05020000#32,
     0x06010000#32, 0x023C0000#32, 0x02500000#32, 0x02700000#32, 0x02C00000#32, 0x02FC0000#32].all
      (fun w => (decode w).toOption.isNone) = true := by decide

/-! ### Commands -/

/-- 40_commands.md, the example of SET_PARAM: AMP_ATTACK 3 stores 10 and sets ERR_PARAM_CLAMP. -/
theorem test_setParam_clamps : nextIs (runWord 0x02000003#32 State.reset)
    (fun t => t.stg.snap.ampAttack == 10 && t.status == 0x8#32 && t.act.ampAttack == 100) = true := by
  decide +kernel
/-- 95_test_vectors.md section 2.2, the stored values and STATUS. -/
theorem test_setParam_vectors :
    ([(0x02000000#32, ParamId.ampAttack, 10, 8), (0x0200000A#32, .ampAttack, 10, 0),
      (0x02001389#32, .ampAttack, 5000, 8), (0x020803E9#32, .ampSustain, 1000, 8),
      (0x02200013#32, .filterCutoff, 20, 8), (0x0223FFFF#32, .filterCutoff, 20000, 8),
      (0x02280006#32, .filterMode, 5, 8), (0x02340002#32, .fenvEnable, 1, 8),
      (0x02400005#32, .osc0Waveform, 0, 8), (0x02440004#32, .osc1Waveform, 4, 0),
      (0x02801F3F#32, .cfgSampleRate, 8000, 8), (0x0282EE01#32, .cfgSampleRate, 192000, 8),
      (0x02840000#32, .cfgMaxBlock, 1, 8), (0x02880003#32, .cfgNumChannels, 2, 8)] :
        List (Word × ParamId × Nat × Nat)).all
      (fun r => nextIs (runWord r.1 State.reset)
        fun t => (t.stg.get r.2.1).toNat == r.2.2.1 && t.status.toNat == r.2.2.2) = true := by
  decide +kernel
/-- 40_commands.md, the example of PREPARE: MAXBLK reads 64 and SEQ reads 0. -/
theorem test_prepare_latches : nextIs
    (exec .prepare { State.reset with stg := { Staging.reset with maxBlock := 64 }, seq := 7 })
    (fun t => t.readReg 0x284 == 64 && t.readReg 0x024 == 0 && t.readReg 0x01C == 0) = true := by
  decide +kernel
/-- 40_commands.md, the example of NOTE_ON: EVQ_LEVEL = 1. -/
theorem test_noteOn_queues : nextIs (runWord 0x0300457F#32 State.reset)
    (fun t => t.readReg 0x018 == 1 && t.evq == [.noteOn 69 127]) = true := by decide +kernel
/-- 95_test_vectors.md section 2.9: the 129th event is dropped, STATUS = 0x10. -/
theorem test_evq_overflow : nextIs (runWord 0x03003C01#32 (queued (List.replicate 128 (.noteOn 60 1))))
    (fun t => t.readReg 0x018 == 128 && t.status == 0x10#32) = true := by decide +kernel
/-- 40_commands.md, the example of RENDER: LFO_PHASE = 2863296, BLOCK_COUNT = 1, DONE, zero frames. -/
theorem test_render_silence : nextIs (runWord 0x06000020#32 State.reset)
    (fun t => t.readReg 0x020 == 2863296 && t.readReg 0x010 == 1 && t.status == 0x2#32 &&
      (List.range 32).all fun j => t.outWord 0 j == 0) = true := by decide +kernel
/-- R263, the two-voice example. -/
theorem test_render_two_voices : nextIs (exec (.render 8) (queued [.noteOn 60 127, .noteOn 64 127]))
    (fun t => ((List.range 8).map fun j => (t.outWord 0 j).toInt) ==
        [0, -113, -457, -903, -1542, -2335, -3265, -4378] &&
      ((List.range 8).map fun j => (t.outWord 1 j).toInt) ==
        [0, -113, -457, -903, -1542, -2335, -3265, -4378] &&
      t.readReg 0x01C == 3 && t.seq == 2 && t.blockCount == 1) = true := by decide +kernel
/-- R230, its first eight samples, and the register view of 40_commands.md's NOTE_ON example. -/
theorem test_render_one_voice : nextIs (exec (.render 8) (queued [.noteOn 69 127]))
    (fun t => ((List.range 8).map fun j => (t.outWord 1 j).toInt) ==
        [0, -84, -340, -670, -1142, -1725, -2405, -3213] &&
      t.readReg 0x400 == 0x007F4501#32 && t.readReg 0x414 == 39370533 && t.readReg 0x418 == 1) = true := by
  decide +kernel
/-- R243, the example: the eleventh note steals voice 0. -/
theorem test_steal : nextIs
    (exec (.render 0) (queued ((List.range 11).map fun i => .noteOn (BitVec.ofNat 7 (60 + i)) 100)))
    (fun t => (t.voice 0).note == 70 && (t.voice 0).freeSeq == 11 && (t.voice 0).trigSeq == 12 &&
      t.seq == 12 && t.readReg 0x01C == 0x3FF#32 && (t.voice 1).trigSeq == 2) = true := by decide +kernel
/-- R242, the example: NOTE_OFF HARD of 61 and of 60 stamps 4 and 5, and note 70 takes voice 3. -/
theorem test_free_order : nextIs
    (exec (.render 0) (queued [.noteOn 60 1, .noteOn 61 1, .noteOn 62 1, .noteOff true 61 0,
      .noteOff true 60 0, .noteOn 70 1]))
    (fun t => (t.voice 1).freeSeq == 4 && (t.voice 0).freeSeq == 5 && (t.voice 3).note == 70 &&
      (t.voice 3).state == .active && t.readReg 0x01C == 0xC#32) = true := by decide +kernel
/-- 95_test_vectors.md section 2.7: a second NOTE_ON of a note releases the first voice. -/
theorem test_same_note : nextIs (exec (.render 0) (queued [.noteOn 60 100, .noteOn 60 100]))
    (fun t => t.readReg 0x400 == 0x00643C02#32 && t.readReg 0x420 == 0x00643C01#32 &&
      t.readReg 0x404 == 0x44#32 && t.seq == 2) = true := by decide +kernel
/-- 40_commands.md, the example of ALL_NOTES_OFF HARD: ACTIVE_VOICES = 0. -/
theorem test_panic : nextIs (exec (.render 0) (queued [.noteOn 60 127, .noteOn 64 127, .allNotesOff true]))
    (fun t => t.readReg 0x01C == 0 && (t.voice 1).freeSeq == 4) = true := by decide +kernel
/-- 95_test_vectors.md section 2.9: RENDER above MAXBLK clamps, STATUS = 0x22. -/
theorem test_render_clamp : nextIs (exec (.render 65535) { State.reset with maxblk := 1 })
    (fun t => t.status == 0x22#32 && t.lfoPhase == 89478) = true := by decide +kernel
/-- R281: an illegal word sets ERR_ILLEGAL and LAST_ILLEGAL. -/
theorem test_illegal_records : nextIs (runWord 0x07000000#32 State.reset)
    (fun t => t.readReg 0x004 == 0x4#32 && t.readReg 0x014 == 0x07000000#32) = true := by decide +kernel
/-- I4: the last value of SEQ refuses a further stamp. -/
theorem test_seqWrap_refused :
    (match exec (.render 0) { queued [.noteOn 60 1] with seq := BitVec.allOnes 64 } with
      | .refused .seqWrap => true
      | _ => false) = true := by decide +kernel

/-! ### Datapaths: 95_test_vectors.md sections 2.3 to 2.8 -/

theorem test_waves :
    [0x00000000#32, 0x40000000#32, 0x80000000#32, 0xC0000000#32, 0xFFFFFFFF#32, 0x12345678#32].map
      (fun p => [wave .sine p 0, wave .square p 0, wave .saw p 0, wave .triangle p 0]) =
    [[0, -16777216, -16777216, -16777216], [-16777216, -16777216, -8388608, 0],
     [0, 16777216, 0, 16777216], [16777216, 16777216, 8388608, 0],
     [0, 16777216, 16777215, -16777214], [-7249176, -16777216, -14391124, -12005032]] := by decide +kernel
theorem test_noise : [seed 0 0, xs (seed 0 0), iter xs 2 (seed 0 0), iter xs 3 (seed 0 0)].map
    (fun r => (r, wave .noise 0 r)) =
    [(0x6D2B79F5#32, -2468109), (0x40AEC71F#32, -8299122), (0x91E00C19#32, 2342936),
     (0x9C0FE128#32, 3678146)] := by decide +kernel
theorem test_increments : [(8000, 127), (44100, 60), (48000, 69), (192000, 0)].map
    (fun x : Nat × Nat => (noteInc (BitVec.ofNat 7 x.2) (BitVec.ofNat 18 x.1)).toNat) =
    [2439463018, 25480118, 39370533, 182889] := by decide +kernel
theorem test_envelope_lengths :
    ([(8000, 10), (44100, 33), (48000, 100), (192000, 5000)] : List (BitVec 18 × BitVec 18)).map
      (fun x => (mceil x.2 x.1, mround x.2 x.1)) =
    [(80, 80), (1456, 1455), (4800, 4800), (960000, 960000)] := by decide +kernel
/-- The short unit na = 3, nd = 2, sus = ONE/2, nr = 4. -/
theorem test_envelope_ticks :
    Env.levels 6 ({ Env.reset with na := 3, nd := 2, sus := 8388608, nr := 4 } : Env).hardReset.gateOn =
      [5592405, 11184810, 16777216, 12582912, 8388608, 8388608] ∧
    Env.levels 5 (iter Env.tick 6
      ({ Env.reset with na := 3, nd := 2, sus := 8388608, nr := 4 } : Env).hardReset.gateOn).gateOff =
      [6291456, 4194304, 2097152, 0, 0] := by decide +kernel
/-- The sustain glide: na = nd = 2, from ONE/2 to ONE/4. -/
theorem test_envelope_glide :
    Env.levels 3 ((iter Env.tick 5
      ({ Env.reset with na := 2, nd := 2, sus := 8388608, nr := 4 } : Env).hardReset.gateOn).update
        ⟨2, 2, 4194304, 4⟩) = [6291456, 4194304, 4194304] := by decide +kernel
theorem test_lfo : (lfoFill 4 0 89478, lfoAvg (lfoFill 32 0 89478), lfoAvg [-1, -2, 0]) =
    ([0, 2196, 4392, 6588], 34039, -1) := by decide +kernel
/-- Base 5000 Hz, full envelope amount, LFO amount 500: 3125 Hz. -/
theorem test_cutoff : cutoff ⟨{ Snapshot.reset with filterCutoff := 5000, fenvEnable := 1 },
      { Derived.reset with fenvAmt := amountLevel 1000, lfoDepth := amountLevel 500 }, 48000⟩
    8388608 8388608 = 3125 * 65536 := by decide +kernel
theorem test_coeffs : coeffs 48000 1518500249 (1000 * 65536) =
      ⟨70376758, 978808730, 64154514, 4204909⟩ ∧
    (coeffs 48000 (fkOf 1000) (1000 * 65536)).a1 = 1038442569 := by decide +kernel
/-- The step response of the six modes and the states after four samples. -/
theorem test_filter_step :
    (List.range 6).map (fun m =>
      let r := filterRun ⟨{ Snapshot.reset with filterMode := BitVec.ofNat 18 m }, Derived.reset, 48000⟩
        (coeffs 48000 1518500249 (1000 * 65536)) (List.replicate 4 16777216) ⟨⟨0, 0⟩, ⟨0, 0⟩⟩
      (r.1, r.2.f0.ic1.toInt, r.2.f1.ic1.toInt, r.2.f1.ic2.toInt)) =
    [([65701, 316374, 782535, 1420466], 5944860, 0, 0),
     ([15293888, 12469738, 9927523, 7659418], 5944860, 0, 0),
     ([1002414, 2822137, 4290129, 5442836], 5944860, 0, 0),
     ([257, 2219, 9614, 28539], 5944860, 274452, 41774),
     ([13941707, 8792794, 4633292, 1354018], 5944860, 3765046, 1347284),
     ([59892, 277342, 650136, 1106329], 5944860, 1347286, 274448)] := by decide +kernel
/-- 95_test_vectors.md section 2.6, the modulation pipeline, after the drain of its RENDER 64. -/
def modulated : State :=
  nextOf (drainEvq (commit { queued [.noteOn 57 127] with
    stg.snap := { Snapshot.reset with
      fenvEnable := 1, fenvAmount := 1000, filterCutoff := 2000, lfoAmount := 500, lfoFreq := 2000
      fltAttack := 10 } })) State.reset
/-- The same section: avg and fc of the two chunks, and the frames it lists. -/
theorem test_modulated : [0, 31, 32, 63].map (lfoAverage modulated 64) = [680412, 680412, 2080337, 2080337] ∧
    cutoff modulated.ctx (iter Env.tick 33 (modulated.voice 0).fenv).level.toNat 2080337 = 9569878 ∧
    ([0, 1, 2, 3, 63].map fun j => mixSample 64 j modulated) = [0, -1, -1, -1, -9274] := by decide +kernel
theorem test_gain : ([0, 1, 64, 100, 127] : List (BitVec 7)).map (fun v => (gainOf v).toNat) =
    [0, 39631, 2536398, 3963122, 5033165] := by decide +kernel
theorem test_limiter : [0, 15938355, 15938356, 16777216, 1073741824, -16777216].map limit =
    [0, 15938355, 15938355, 16577226, 16777215, -16577226] := by decide +kernel

/-! ### The window and the steps -/

/-- R23, R286: the 17th word is dropped. -/
theorem test_cmdq_overflow :
    let s := State.hostWrite 0x00C 4 0x06000000#32 { State.reset with cmdq := List.replicate 16 0#32 }
    s.cmdq.length = 16 ∧ s.readReg 0x004 = 0x41#32 := by decide +kernel
/-- Program P2's interrupt sequence: STATUS 0x2E, CTRL 2 raises irq, W1C 0x3C leaves 2 and irq falls. -/
theorem test_irq :
    let s := State.hostWrite 0x008 4 2#32 { State.reset with status := 0x2E#32 }
    s.irq = true ∧ (s.hostWrite 0x004 4 0x3C#32).readReg 0x004 = 0x2#32 ∧
      (s.hostWrite 0x004 4 0x3C#32).irq = false := by decide +kernel
/-- A byte write to CMD and a read at 0x002 get a bus error. -/
theorem test_bus_error :
    State.reset.hostWrite 0x00C 1 1#32 = { State.reset with response := some .busError } ∧
    State.reset.hostRead 0x002 4 = { State.reset with response := some .busError } := by decide +kernel
theorem test_id : State.reset.hostRead 0x000 4 =
    { State.reset with response := some (.data 0x4D530007#32) } := by decide +kernel
/-- A word placed at the fetch is the next one executed. -/
theorem test_step_fetch : nextIs (step (State.reset.withFetchWord 32 0x0300457F))
    (fun t => t.evq == [.noteOn 69 127] && t.cmdq == []) = true := by decide +kernel
theorem test_step_reset_turn : nextIs (step { State.reset with schedule := [.reset], status := 4, seq := 9 })
    (fun t => t == State.reset) = true := by decide +kernel

/-! ### Witnesses: for every statement with hypotheses, states and operands that meet them, clause by clause -/

/-- A state that has rendered a block of two voices, with one more RENDER waiting in CMDQ. -/
def live : State :=
  { nextOf (exec (.render 8) (queued [.noteOn 60 127, .noteOn 64 127])) State.reset with
    cmdq := [0x06000008#32] }

/-- Reset with SEQ near its end. -/
def lateSeq (left : Nat) : State := { State.reset with seq := BitVec.ofNat 64 (2 ^ 64 - 1 - left) }

theorem witness_EncodeUndoesDecode : decode 0x06000200#32 = .ok (.render 512) := by decide
theorem witness_DecodeFollowsTable :
    decode 0x0282EE00#32 = .ok (setParamInstr .cfgSampleRate 192000#18) ∧
    decode 0x07000000#32 = .error .reservedOpcode := by decide
theorem witness_OperandsAreTheirFields :
    decode 0x028BFFFF#32 = .ok (setParamInstr .cfgNumChannels 262143#18) ∧
    decode 0x02000000#32 = .ok (setParamInstr .ampAttack 0#18) ∧
    decode 0x03007F7F#32 = .ok (.noteOn 127 127) ∧ decode 0x04017F00#32 = .ok (.noteOff true 127 0) ∧
    decode 0x05000000#32 = .ok (.allNotesOff false) ∧ decode 0x0600FFFF#32 = .ok (.render 65535) := by decide
theorem witness_AssemblerNeverTruncates :
    (262143 : Nat) ≤ 262143 ∧ (127 : Nat) ≤ 127 ∧ (65535 : Nat) ≤ 65535 ∧
    assemble (.setParam 34 262143) = some [0x028BFFFF#32] ∧
    assemble (.configure 262143 0 1) =
      some [0x0283FFFF#32, 0x02840000#32, 0x02880001#32, 0x01000000#32] := by decide
theorem witness_AssemblerNeverTruncates_pseudo :
    assemble (.setAmpAdsr 10 20 262143 30) =
      some [0x0200000A#32, 0x02040014#32, 0x020BFFFF#32, 0x020C001E#32] ∧
    assemble (.setAmpAdsr 10 20 262144 30) = none ∧ assemble (.setFltAdsr 0 0 0 262144) = none ∧
    assemble (.setWave 1 4) = some [0x02440004#32] ∧ assemble (.setWave 2 4) = none ∧
    assemble (.oscOn 1) = some [0x02640001#32] ∧ assemble (.oscOff 0) = some [0x02600000#32] ∧
    assemble (.setFilter 1000 0 3) = some [0x022003E8#32, 0x02240000#32, 0x02280003#32] := by decide
theorem witness_IllegalWordOnlyRecords :
    IllegalWord 0x07000000#32 ∧ IllegalWord 0x00000001#32 ∧ IllegalWord 0x01800000#32 ∧
    IllegalWord 0x02FC0000#32 ∧ IllegalWord 0x03008000#32 ∧ IllegalWord 0x04020000#32 ∧
    IllegalWord 0x05000001#32 ∧ IllegalWord 0x06010000#32 := by
  refine ⟨.inl (by decide), .inr (.inl (by decide)), .inr (.inl (by decide)),
    .inr (.inr (.inl ⟨by decide, fun p => by cases p <;> decide⟩)), .inr (.inr (.inr (.inl (by decide)))),
    .inr (.inr (.inr (.inr (.inl (by decide))))), .inr (.inr (.inr (.inr (.inr (.inl (by decide)))))),
    .inr (.inr (.inr (.inr (.inr (.inr (by decide))))))⟩
theorem witness_IllegalWordOnlyRecords_next : ∃ t, exec .nop State.reset = .next t := ⟨_, rfl⟩
/-- A step that records an illegal word, and a reset turn that clears it. -/
theorem witness_IllegalWordOnlyRecords_step :
    nextIs (step { State.reset with cmdq := [0x07000000#32] }) (fun t => t.lastIllegal == 0x07000000#32) =
      true ∧
    nextIs (step { State.reset with lastIllegal := 0x07000000#32, schedule := [.reset] })
      (fun t => t.lastIllegal == 0) = true := by decide +kernel
theorem witness_NopChangesNothing : field 0x00800000#32 31 24 = 0 ∧ field 0x00800000#32 23 0 ≠ 0 ∧
    State.reset.executing = none ∧
    State.cmdq { State.reset with cmdq := [0#32, 1#32] } = 0x00000000#32 :: [1#32] := by decide
theorem witness_SetParamStoresClamped :
    field 0x023C0000#32 31 24 = 2 ∧ ∀ p : ParamId, p.num ≠ field 0x023C0000#32 23 18 :=
  ⟨by decide, fun p => by cases p <;> decide⟩
theorem witness_NoteCommandsQueueEvents :
    (queued (List.replicate 127 (.noteOn 0 0))).evq.length < 128 ∧
    (queued (List.replicate 128 (.noteOn 0 0))).evq.length = 128 := by decide +kernel
theorem witness_RenderCompletes : State.reset.SeqRoom (stampsNeeded State.reset) ∧
    (lateSeq 10).SeqRoom (stampsNeeded (lateSeq 10)) ∧ (10 < (2048 : Nat)) := by decide
theorem witness_ParametersChangeOnlyAtTheirCommands :
    nextIs (exec (.render 0) { State.reset with stg.snap.lfoAmount := 1 })
      (fun t => t.act != Snapshot.reset) = true ∧
    nextIs (exec .prepare { State.reset with stg.maxBlock := 1 }) (fun t => t.maxblk != 512) = true ∧
    nextIs (exec (.setParamLfoAmount 1000) State.reset) (fun t => t.stg != Staging.reset) = true := by
  decide +kernel
theorem witness_CommandsLeaveFifoAndHostAlone : ∃ t, exec (.noteOn 0 0) State.reset = .next t := ⟨_, rfl⟩
theorem witness_OneConditionPerCommandStep :
    [0x07000000#32, 0x02000000#32, 0x0200000A#32, 0x03000000#32, 0x04000000#32, 0x05000000#32,
      0x06000000#32, 0x06000201#32, 0x00000000#32, 0x01000000#32].all (fun w =>
      nextIs (runWord w { State.reset with maxblk := 0 }) fun _ => true) = true := by decide +kernel
/-- An IDLE voice; all voices ACTIVE; none IDLE and two RELEASING. -/
theorem witness_NoteOnAlwaysTakesVoice : State.reset.SeqRoom 2 ∧ allActive.SeqRoom 2 ∧ fullPool.SeqRoom 2 ∧
    (lateSeq 2).SeqRoom 2 ∧ (∀ v, (allActive.voice v).state = .active) ∧
    (∀ v, (fullPool.voice v).state ≠ .idle) ∧ (fullPool.voice 4).state = .releasing := by decide +kernel
theorem witness_NoteOnFillsPool : nextIs (noteOn 99 1 State.reset) (fun t => soundingCount t == 1) = true ∧
    nextIs (noteOn 99 1 fullPool) (fun t => soundingCount t == 10 && (t.voice 7).note == 99) = true := by
  decide +kernel
theorem witness_NoteOffStopsThePlayingVoice : allActive.OneActivePerNote ∧ allActive.SeqRoom 1 ∧
    (∀ v, ¬((allActive.voice v).state = .active ∧ (allActive.voice v).note = 59)) ∧
    (allActive.voice 9).state = .active ∧ (allActive.voice 9).note = 69 := by decide +kernel
theorem witness_AllNotesOffStopsEveryVoice : fullPool.SeqRoom 10 ∧ (lateSeq 10).SeqRoom 10 := by
  decide +kernel
theorem witness_FinishedVoicesAreFreed : finished.SeqRoom 10 ∧
    (finished.voice 3).state ≠ .idle ∧ (finished.voice 3).aenv.stage = .idle := by decide +kernel
theorem witness_RenderWritesLimitedSum : live.ParamsLegal ∧ State.reset.ParamsLegal ∧
    nextIs (exec (.render 1) live) (fun t => t.outWord 1 0 != live.outWord 1 0) = true ∧
    nextIs (exec (.render 1) State.reset) (fun t => t.readReg 0x01C == 0) = true := by decide +kernel
theorem witness_ZeroLengthBlock : live.outbuf.wf ∧ live.LifeMatches ∧
    nextIs (exec (.render 0) live) (fun t => t.outbuf == live.outbuf) = true := by decide +kernel
/-- One voice stays ACTIVE, one is IDLE, and one ends its release within the block. -/
theorem witness_RenderAdvancesSoundingVoices :
    nextIs (exec (.render 1) (live.setVoice 5 { sounding .releasing 60 1 with
      aenv := { Env.reset with stage := .release, start := 100, n := 14400, k := 14399 } }))
      (fun t => (t.voice 0).state == .active && (t.voice 5).state == .idle && (t.voice 5).freeSeq == 3 &&
        (t.voice 9).state == .idle && (t.voice 9).freeSeq == 0 && decide (t.act.filterMode.toNat < 3)) =
      true := by decide +kernel
theorem witness_LimiterShape : (15938355 : Int).natAbs ≤ 15938355 ∧ (15938355 : Int) < 15938356 ∧
    (-1 : Int) ≤ 1 ∧ limit 15938356 = 15938355 := by decide +kernel
theorem witness_NoiseNeverSticksAtZero : (1#32) ≠ 0 ∧ 9 < Config.numVoices ∧ 1 < Config.numOsc := by decide
theorem witness_GainLeavesHeadroom_frame : (0 : Nat) < 1 ∧
    gainedSamples Snapshot.reset 1 { Voice.reset 1 1 with gain := 5033165, phase := 0xC0000000#32 } =
      [5033165] := by decide +kernel
theorem witness_GainLeavesHeadroom : (5033165#25).toNat ≤ 5033165 ∧
    gainedSamples Snapshot.reset 1 { Voice.reset 1 1 with gain := 5033165, phase := 0xC0000000#32 } ≠ [] ∧
    (Voice.reset 1 1).gain = 0 ∧ (Voice.reset 1 1).f0 = ⟨0, 0⟩ ∧ (Voice.reset 1 1).f1 = ⟨0, 0⟩ ∧
    renderOut State.reset.ctx [0] 1 (Voice.reset 1 1) = [0] := by decide +kernel
theorem witness_SegmentInterpolates : 0 < 80 ∧ 79 < 80 ∧ 80 ≤ 80 ∧
    (segLevel 0 16777216 1 80 - segLevel 0 16777216 0 80).natAbs = 209715 := by decide
theorem witness_GateEvents : ([.attack, .decay, .sustain, .idle, .release] : List Stage).map
    (fun g => (Env.gateOff { Env.reset with stage := g }).stage) =
    [.release, .release, .release, .idle, .release] := by decide
theorem witness_UpdateIsGlitchFree : ([.attack, .decay, .sustain, .release, .idle] : List Stage).map
    (fun g => ((Env.update { Env.reset with stage := g } ⟨80, 81, 5, 82⟩).n)) = [80, 81, 81, 82, 1] := by
  decide
theorem witness_EnvelopeTiming : ∃ e : Env, 0 < e.na.toNat ∧ 0 < e.nd.toNat ∧ 0 < e.nr.toNat ∧
    e.sus.toNat ≤ 16777216 ∧ e.level.toNat ≤ 16777216 ∧ e.stage = .sustain :=
  ⟨{ Env.reset with stage := .sustain, level := 16777216, na := 1 }, by decide⟩
theorem witness_EnvelopeTiming_tick : ∃ e : Env, e.stage ≠ .idle ∧ e.k < e.n ∧ e.start.toNat ≤ 16777216 ∧
    e.target.toNat ≤ 16777216 ∧ e.tick.level = 3495 :=
  ⟨Env.reset.gateOn, by decide⟩
theorem witness_EnvelopeLengths : legalValue .ampAttack 10 ∧ legalValue .ampAttack 5000 ∧
    legalValue .ampDecay 5000 ∧ legalValue .ampSustain 1000 ∧ legalValue .ampRelease 10 ∧
    legalValue .cfgSampleRate 8000 ∧ legalValue .cfgSampleRate 192000 := by decide
theorem witness_LfoFillAndAverage : 0 < 1 ∧ (lfoFill 1 0x40000000#32 0)[0]? = some 16777216 := by
  decide +kernel
theorem witness_CutoffStaysInBounds : ∃ c : BlockCtx, c.derived.lfoDepth ≤ 16777216 ∧
    c.derived.fenvAmt ≤ 16777216 ∧ 20 ≤ c.derived.fcmax ∧ c.act.fenvEnable = 1 :=
  ⟨⟨{ Snapshot.reset with fenvEnable := 1 }, { Derived.reset with lfoDepth := 16777216 }, 48000⟩, by decide⟩
theorem witness_CutoffStaysInBounds_disabled : State.reset.ctx.derived.lfoDepth ≤ 16777216 ∧
    State.reset.ctx.derived.fenvAmt ≤ 16777216 ∧ 20 ≤ State.reset.ctx.derived.fcmax ∧
    State.reset.ctx.act.fenvEnable ≠ 1 := by decide
theorem witness_DerivedValueRanges : legalValue .lfoFreq 10 ∧ legalValue .lfoFreq 2000 ∧
    legalValue .lfoAmount 1000 ∧ legalValue .fenvAmount 1000 ∧ legalValue .filterResonance 1000 ∧
    legalValue .cfgSampleRate 192000 ∧ legalValue .cfgSampleRate 8000 := by decide
/-- Both ends of the cutoff at the greatest angle, 0.45 FS. -/
theorem witness_CoefficientsStayFinite : legalValue .cfgSampleRate 8000 ∧
    (20 * 65536 : Int) ≤ 3600 * 65536 ∧ (3600 * 65536 : Int) ≤ (min 20000 (45 * 8000 / 100) : Nat) * 65536 ∧
    sinq30 (wrap32 (cutoffAngle 8000 (3600 * 65536) + 2 ^ 30)) = 167969471 ∧
    0 < (coeffs 192000 1518500249 (20 * 65536)).g := by decide +kernel
theorem witness_FilterSectionsSaturate : (2#18).toNat < 3 ∧ 3 ≤ (3#18).toNat ∧
    sat32 (2 ^ 31) = 2 ^ 31 - 1 ∧ sat32 (-2 ^ 31 - 1) = -2 ^ 31 := by decide
theorem witness_CmdWriteAppends : (List.replicate 15 0#32).length < 16 ∧
    (List.replicate 16 0#32).length = 16 := by decide
theorem witness_ReadsAndIgnoredWrites : 0x3FFC < 0x4000 ∧ 0x3FFC % 4 = 0 ∧ ReservedOffset 0x030 ∧
    ReservedOffset 0x13C ∧ ReservedOffset 0x23C ∧ ReservedOffset 0x3FC ∧ ReservedOffset 0x540 ∧
    ReservedOffset 0xFFC ∧ ReservedOffset 0x3000 ∧ ReservedOffset 0x3FFC := by
  refine ⟨by decide, by decide, .inl (by decide), .inr (.inl ⟨by decide, by decide, fun p => ?_⟩),
    .inr (.inr (.inl ⟨by decide, by decide, fun p => ?_⟩)), .inr (.inr (.inr (.inl (by decide)))),
    .inr (.inr (.inr (.inr (.inl (by decide))))), .inr (.inr (.inr (.inr (.inl (by decide))))),
    .inr (.inr (.inr (.inr (.inr (by decide))))), .inr (.inr (.inr (.inr (.inr (by decide)))))⟩
  all_goals cases p <;> decide
theorem witness_BusErrorChangesNoState : ((2 : Nat) ≠ 4 ∨ 0 % 4 ≠ 0) ∧ ((4 : Nat) ≠ 4 ∨ 0x3FFD % 4 ≠ 0) := by
  decide
theorem witness_RegisterMapReads : live.status &&& ~~~0x7E#32 = 0 ∧ live.ctrl &&& ~~~0x3#32 = 0 ∧
    ParamId.num .osc1Enable < 0x20 ∧ live.evq.length ≤ 128 ∧ live.cmdq.length ≤ 16 ∧
    (live.readReg 0x01C).getLsbD 10 = false ∧ live.readReg 0x400 = 0x007F3C01#32 ∧
    live.readReg 0x01C = 3 ∧ live.readReg 0x404 = 0x11#32 ∧
    live.readReg 0x4FC = 0 ∧ (live.readReg 0x1004).toInt = -113 := by decide +kernel
theorem witness_AccessTurnReachesWindow : 0x3FFF < 0x4000 ∧ Config.base + 0x4000 ≤ Config.base + 0x4000 ∧
    State.schedule { State.reset with schedule := [.access (.read (Config.base + 0x3FFF) 4)] } =
      .access (.read (Config.base + 0x3FFF) 4) :: [] ∧
    State.schedule { State.reset with schedule := [.access (.write (Config.base + 0x4000) 4 0)] } =
      .access (.write (Config.base + 0x4000) 4 0) :: [] := ⟨by decide, Nat.le_refl _, rfl, rfl⟩
theorem witness_StepRunsDecodedCommand : live.schedule = [] ∧ live.executing = none ∧
    live.cmdq = 0x06000008#32 :: [] ∧ decode 0x06000008#32 = .ok (.render 8) ∧
    State.schedule { live with schedule := [.command] } = .command :: [] ∧
    State.executing { live with executing := some 0#32 } = some 0x00000000#32 ∧
    decode (BitVec.ofNat 32 (0x06000008 % 2 ^ 32)) = .ok (.render 8) := by decide +kernel
theorem witness_StepOtherTurns : decode 0x07000000#32 = .error .reservedOpcode ∧
    State.reset.schedule = [] ∧ State.reset.executing = none ∧ State.reset.busy = false ∧
    State.cmdq { State.reset with cmdq := [0x07000000#32] } = 0x07000000#32 :: [] ∧
    State.schedule { live with schedule := [.issue] } = .issue :: [] := by decide +kernel
theorem witness_BlockNeverStops : live.SeqRoom (stampsNeeded live) ∧
    exec (.render 0) { queued [.noteOn 60 1] with seq := BitVec.allOnes 64 } = .refused .seqWrap := by
  refine ⟨by decide +kernel, ?_⟩
  have h := test_seqWrap_refused
  split at h
  · assumption
  · cases h
/-- A turn of the host at the first address past the window, with SEQ at its end. -/
theorem witness_BlockNeverStops_turn : ∃ (x : Turn) (r : List Turn) (t : State), x ≠ .command ∧
    State.schedule { lateSeq 0 with schedule := [x] } = x :: r ∧
    step { lateSeq 0 with schedule := [x] } = .next t ∧ t = lateSeq 0 := by
  refine ⟨.access (.read (Config.base + 0x4000) 4), [], lateSeq 0, by simp, rfl, ?_, rfl⟩
  have h : windowOffset (Config.base + 0x4000) = none := if_neg (by rw [Config.windowSize]; omega)
  show Host.Outcome.next (hostAccess _ _) = _
  rw [hostAccess, h]
  rfl
theorem witness_ResetIsPrepareAtDefaults :
    State.schedule { live with schedule := [.reset, .command] } = .reset :: [.command] := by decide +kernel
/-- The invariants hold in a state with two sounding voices from which a step answers a next state. -/
theorem witness_StepKeeps : live.outbuf.wf ∧ live.ParamsLegal ∧ live.QueuesBounded ∧ live.ReservedZero ∧
    live.DerivedCurrent ∧ live.OneActivePerNote ∧ live.NoiseNonZero := by decide +kernel
theorem witness_StepKeeps_voices : live.EnvelopesInRange ∧ live.LifeMatches ∧ live.StampsOrdered :=
  ⟨by decide +kernel, by decide +kernel, by decide +kernel⟩
theorem witness_StepKeeps_output : State.reset.OutputBounded ∧ State.reset.ParamsLegal ∧
    nextIs (step State.reset) (fun t => t.outWord 1 1023 == 0) = true :=
  ⟨by decide +kernel, by decide +kernel, by decide +kernel⟩
theorem witness_StepKeeps_next : nextIs (step live) (fun t => t.blockCount == 2 && t.cmdq == []) = true := by
  decide +kernel

end Sys2Proof.Tests
end

section
/-! The decoder's success as R94's table with the operands as slices of the word (R91): the one lemma
`decode_eq_ok_iff`, from which both statements, `decodeFollowsTable` and
`operandsAreTheirFields`, follow. -/

namespace Sys2Proof

open Machine

/-! ### SET_PARAM against the other commands -/

theorem ParamId.ofNum?_eq_some {n : Nat} {p : ParamId} : ParamId.ofNum? n = some p ↔ p.num = n :=
  ⟨ParamId.num_of_ofNum?, fun h => h ▸ p.ofNum?_num⟩

theorem ParamId.ofNum?_isSome {n : Nat} : (ParamId.ofNum? n).isSome = true ↔ ∃ p : ParamId, p.num = n := by
  simp only [Option.isSome_iff_exists, ParamId.ofNum?_eq_some]

/-- No command of another row is a SET_PARAM. -/
@[simp] theorem ne_setParamInstr (p : ParamId) (v : BitVec 18) :
    .nop ≠ setParamInstr p v ∧ .prepare ≠ setParamInstr p v ∧ (∀ n u, .noteOn n u ≠ setParamInstr p v) ∧
      (∀ h n u, .noteOff h n u ≠ setParamInstr p v) ∧ (∀ h, .allNotesOff h ≠ setParamInstr p v) ∧
      ∀ n, .render n ≠ setParamInstr p v := by
  cases p <;> simp [setParamInstr]

/-! ### What each format's decoder accepts, its operands as slices (R81, R91) -/

theorem ite_ok_eq_ok {ε α : Type} {c : Prop} [Decidable c] {a b : α} {e : ε} :
    (if c then Except.ok a else .error e) = .ok b ↔ c ∧ b = a := by
  split <;> simp [*, eq_comm]

theorem decodeNop_eq_ok {w : Word} {i : Instr} : decodeNop w = .ok i ↔ field w 23 0 = 0 ∧ i = .nop :=
  ite_ok_eq_ok

theorem decodePrepare_eq_ok {w : Word} {i : Instr} :
    decodePrepare w = .ok i ↔ field w 23 0 = 0 ∧ i = .prepare :=
  ite_ok_eq_ok

theorem decodeSetParam_eq_ok {w : Word} {i : Instr} :
    decodeSetParam w = .ok i ↔
      ∃ p : ParamId, p.num = field w 23 18 ∧ i = setParamInstr p (w.extractLsb' 0 18) := by
  simp only [← ParamId.ofNum?_eq_some]
  unfold decodeSetParam
  rw [ofNat_field w 17 0]
  split
  · rename_i p h
    simp [h, eq_comm]
  · rename_i h
    simp [h]

theorem decodeNoteOn_eq_ok {w : Word} {i : Instr} :
    decodeNoteOn w = .ok i ↔
      (field w 23 15 = 0 ∧ field w 7 7 = 0) ∧ i = .noteOn (w.extractLsb' 8 7) (w.extractLsb' 0 7) := by
  rw [decodeNoteOn, ite_ok_eq_ok, ofNat_field w 14 8, ofNat_field w 6 0]

theorem decodeNoteOff_eq_ok {w : Word} {i : Instr} :
    decodeNoteOff w = .ok i ↔
      (field w 23 17 = 0 ∧ field w 15 15 = 0 ∧ field w 7 7 = 0) ∧
        i = .noteOff (w.getLsbD 16) (w.extractLsb' 8 7) (w.extractLsb' 0 7) := by
  rw [decodeNoteOff, ite_ok_eq_ok, field_bit, ofNat_field w 14 8, ofNat_field w 6 0]

theorem decodeAllNotesOff_eq_ok {w : Word} {i : Instr} :
    decodeAllNotesOff w = .ok i ↔
      (field w 23 17 = 0 ∧ field w 15 0 = 0) ∧ i = .allNotesOff (w.getLsbD 16) := by
  rw [decodeAllNotesOff, ite_ok_eq_ok, field_bit]

theorem decodeRender_eq_ok {w : Word} {i : Instr} :
    decodeRender w = .ok i ↔ field w 23 16 = 0 ∧ i = .render (w.extractLsb' 0 16) := by
  rw [decodeRender, ite_ok_eq_ok, ofNat_field w 15 0]

/-! ### The decoder as the table -/

/-- The word `w` is the command `i` by a row of R94, with `i`'s operands the slices R91 lists. -/
def TableReads (w : Word) (i : Instr) : Prop :=
  (w &&& 0xFFFFFFFF#32 = 0x00000000#32 ∧ i = .nop) ∨
  (w &&& 0xFFFFFFFF#32 = 0x01000000#32 ∧ i = .prepare) ∨
  (w &&& 0xFF000000#32 = 0x02000000#32 ∧
    ∃ p : ParamId, p.num = field w 23 18 ∧ i = setParamInstr p (w.extractLsb' 0 18)) ∨
  (w &&& 0xFFFF8080#32 = 0x03000000#32 ∧ i = .noteOn (w.extractLsb' 8 7) (w.extractLsb' 0 7)) ∨
  (w &&& 0xFFFE8080#32 = 0x04000000#32 ∧
    i = .noteOff (w.getLsbD 16) (w.extractLsb' 8 7) (w.extractLsb' 0 7)) ∨
  (w &&& 0xFFFEFFFF#32 = 0x05000000#32 ∧ i = .allNotesOff (w.getLsbD 16)) ∨
  (w &&& 0xFFFF0000#32 = 0x06000000#32 ∧ i = .render (w.extractLsb' 0 16))

/-- The opcode selects the format, and the format's must-be-zero fields are the rest of the row's mask; a
reserved opcode is in no row. -/
theorem decode_eq_ok_iff {w : Word} {i : Instr} : decode w = .ok i ↔ TableReads w i := by
  unfold TableReads
  rw [nopRow_iff, prepareRow_iff, setParamRow_iff, noteOnRow_iff, noteOffRow_iff, allNotesOffRow_iff,
    renderRow_iff]
  unfold decode
  split <;> rename_i hop
  · simp [hop, decodeNop_eq_ok]
  · simp [hop, decodePrepare_eq_ok]
  · simp [hop, decodeSetParam_eq_ok]
  · simp [hop, decodeNoteOn_eq_ok]
  · simp [hop, decodeNoteOff_eq_ok]
  · simp [hop, decodeAllNotesOff_eq_ok]
  · simp [hop, decodeRender_eq_ok]
  · simp only [imp_false] at *
    simp [*]

/-! One command's row at a time; SET_PARAM's is `decode_eq_setParam`. -/

theorem decode_eq_nop (w : Word) : decode w = .ok .nop ↔ w &&& 0xFFFFFFFF#32 = 0x00000000#32 := by
  simp [decode_eq_ok_iff, TableReads]

theorem decode_eq_prepare (w : Word) : decode w = .ok .prepare ↔ w &&& 0xFFFFFFFF#32 = 0x01000000#32 := by
  simp [decode_eq_ok_iff, TableReads]

theorem decode_eq_noteOn (w : Word) (n v : BitVec 7) :
    decode w = .ok (.noteOn n v) ↔
      w &&& 0xFFFF8080#32 = 0x03000000#32 ∧ n = w.extractLsb' 8 7 ∧ v = w.extractLsb' 0 7 := by
  simp [decode_eq_ok_iff, TableReads]

theorem decode_eq_noteOff (w : Word) (h : Bool) (n v : BitVec 7) :
    decode w = .ok (.noteOff h n v) ↔
      w &&& 0xFFFE8080#32 = 0x04000000#32 ∧
        h = w.getLsbD 16 ∧ n = w.extractLsb' 8 7 ∧ v = w.extractLsb' 0 7 := by
  simp [decode_eq_ok_iff, TableReads]

theorem decode_eq_allNotesOff (w : Word) (h : Bool) :
    decode w = .ok (.allNotesOff h) ↔ w &&& 0xFFFEFFFF#32 = 0x05000000#32 ∧ h = w.getLsbD 16 := by
  simp [decode_eq_ok_iff, TableReads]

theorem decode_eq_render (w : Word) (n : BitVec 16) :
    decode w = .ok (.render n) ↔ w &&& 0xFFFF0000#32 = 0x06000000#32 ∧ n = w.extractLsb' 0 16 := by
  simp [decode_eq_ok_iff, TableReads]

/-! ### The rows of R94 -/

/-- The opcode bits are all in a row's mask, so an accepted word has the row's opcode. -/
theorem DecodeRow.opcode_of_accepts {r : DecodeRow} (hr : r ∈ decodeRows) {w : Word}
    (h : r.accepts w = true) : field r.pattern 31 24 = field w 31 24 := by
  have hmask : ∀ r ∈ decodeRows, r.mask.extractLsb' 24 8 = BitVec.allOnes 8 := by decide
  have hw : w &&& r.mask = r.pattern := beq_iff_eq.1 (Bool.and_eq_true_iff.1 h).1
  rw [field_eq_extract, field_eq_extract, ← hw, BitVec.extractLsb'_and, hmask r hr, BitVec.and_allOnes]

theorem decodeRows_accepts_length_le_one (w : Word) :
    (decodeRows.filter fun r => r.accepts w).length ≤ 1 := by
  have hnodup : (decodeRows.map fun r => field r.pattern 31 24).Nodup := by decide
  calc (decodeRows.filter fun r => r.accepts w).length
      = decodeRows.countP fun r => r.accepts w := List.countP_eq_length_filter.symm
    _ ≤ decodeRows.countP fun r => field r.pattern 31 24 == field w 31 24 :=
      List.countP_mono_left fun r hr h => by simpa using DecodeRow.opcode_of_accepts hr h
    _ = (decodeRows.map fun r => field r.pattern 31 24).count (field w 31 24) := by
      rw [List.count, List.countP_map]; rfl
    _ ≤ 1 := List.nodup_iff_count_le_one.1 hnodup _

theorem exists_tableReads_iff (w : Word) : (∃ i, TableReads w i) ↔ ∃ r ∈ decodeRows, r.accepts w = true := by
  simp [TableReads, decodeRows, DecodeRow.accepts, exists_or, ParamId.ofNum?_isSome]

theorem decode_eq_error_iff (w : Word) :
    (∃ e, decode w = .error e) ↔ ∀ r ∈ decodeRows, r.accepts w = false := by
  have hok : (∃ e, decode w = .error e) ↔ ¬ ∃ i, decode w = .ok i := by
    cases decode w <;> simp
  rw [hok]
  simp only [decode_eq_ok_iff, exists_tableReads_iff]
  simp

theorem runWord_of_decode_ok {w : Word} {i : Instr} (h : decode w = .ok i) (s : State) :
    runWord w s = exec i s := by
  rw [runWord, h]

theorem runWord_of_decode_error {w : Word} {e : DecodeError} (h : decode w = .error e) (s : State) :
    runWord w s = .next (raiseIllegal w s) := by
  rw [runWord, h]

/-- Settles O3: each command's row is its lemma above, at most one row accepts because the opcodes differ,
and `runWord` follows the decoder. -/
theorem decodeFollowsTable : Obligations.DecodeFollowsTable := by
  intro w
  refine ⟨decode_eq_nop w, decode_eq_prepare w, ?_, ?_, ?_, ?_, ?_, decodeRows_accepts_length_le_one w,
    decode_eq_error_iff w,
    fun s => ⟨fun i h => runWord_of_decode_ok h s, fun e h => runWord_of_decode_error h s⟩⟩
  · simp [decode_eq_setParam, setParamRow_iff, ParamId.ofNum?_eq_some]
  · simp [decode_eq_noteOn]
  · simp [decode_eq_noteOff]
  · simp [decode_eq_allNotesOff]
  · simp [decode_eq_render]

/-- Settles O4: each command's row lemma already gives its operands as the slices R91 lists. -/
theorem operandsAreTheirFields : Obligations.OperandsAreTheirFields := by
  intro w
  refine ⟨fun p v h => ?_, fun n v h => ((decode_eq_noteOn w n v).1 h).2,
    fun b n v h => ((decode_eq_noteOff w b n v).1 h).2, fun b h => ((decode_eq_allNotesOff w b).1 h).2,
    fun n h => ((decode_eq_render w n).1 h).2⟩
  obtain ⟨-, hp, hv⟩ := (decode_eq_setParam w p v).1 h
  exact ⟨(ParamId.num_of_ofNum? hp).trans (field_eq_extract w 23 18), hv.trans (ofNat_field w 17 0)⟩

end Sys2Proof
end

section
/-! The commands NOP, PREPARE and SET_PARAM (R100 to R102): a SET_PARAM row is one lemma about its stored
value, and the illegal words of an opcode come from that opcode's own decoder. -/

namespace Sys2Proof

open Machine

/-! ### Illegal words of the opcodes 0x00 and 0x02 -/

theorem decode_of_opcode_nop {w : Word} (h : field w 31 24 = 0) : decode w = decodeNop w := by
  simp only [decode, h]

theorem decode_of_opcode_setParam {w : Word} (h : field w 31 24 = 2) : decode w = decodeSetParam w := by
  simp only [decode, h]

theorem decode_nop_mustBeZero {w : Word} (hop : field w 31 24 = 0) (hz : field w 23 0 ≠ 0) :
    decode w = .error .mustBeZero := by
  rw [decode_of_opcode_nop hop, decodeNop, if_neg hz]

theorem decode_setParam_reserved {w : Word} (hop : field w 31 24 = 2)
    (hid : ∀ p : ParamId, p.num ≠ field w 23 18) : decode w = .error .reservedParam := by
  have hnone : ParamId.ofNum? (field w 23 18) = none :=
    Option.eq_none_iff_forall_ne_some.2 fun p h => hid p (ParamId.num_of_ofNum? h)
  rw [decode_of_opcode_setParam hop, decodeSetParam, hnone]

/-! ### NOP -/

theorem decode_eq_nop_iff_zero (w : Word) : decode w = .ok .nop ↔ w = 0x00000000#32 := by
  rw [decode_eq_nop, show (0xFFFFFFFF#32 : Word) = BitVec.allOnes 32 from rfl, BitVec.and_allOnes]

theorem busy_of_cmdq_cons {s : State} {w : Word} {q : List Word} (h : s.cmdq = w :: q) :
    s.busy = true := by
  simp [State.busy, State.cmdqLevel, h]

/-- With nothing executing, a command step runs the head of CMDQ (R99). -/
theorem commandStep_of_cmdq_cons {s : State} {w : Word} {q : List Word} (hx : s.executing = none)
    (hq : s.cmdq = w :: q) : commandStep s = runWord w { s with cmdq := q } := by
  rw [commandStep, fetch, hx, hq]

/-- Settles O8: only the word 0 is NOP, and a command step on it takes it from CMDQ and runs `exec .nop`. -/
theorem nopChangesNothing : Obligations.NopChangesNothing := by
  have hexec : ∀ s : State, exec .nop s = .next s := fun _ => rfl
  refine ⟨hexec, decode_eq_nop_iff_zero, fun w => decode_nop_mustBeZero,
    fun s q hx hq => ⟨busy_of_cmdq_cons hq, ?_⟩⟩
  rw [commandStep_of_cmdq_cons hx hq, runWord_of_decode_ok ((decode_eq_nop_iff_zero _).2 rfl), hexec]

/-! ### PREPARE -/

/-- Settles O9: the state is the configuration latched, the engine reset and the commit in turn, and its
voices are those of `prepare_voice`. -/
theorem prepareResetsEngine : Obligations.PrepareResetsEngine := by
  refine ⟨(decode_eq_prepare _).2 (by decide), fun s => ⟨_, rfl, rfl, fun v =>
    ⟨preparedEnv (ampParams s.stg.snap s.stg.sampleRate),
      preparedEnv (fltParams s.stg.snap s.stg.sampleRate), ?_, ?_, rfl, rfl⟩⟩⟩
  · rw [prepare_voice]
    simp [Voice.reset, seed, Nat.mul_comm v.val]
  · simp [preparedEnv]

/-! ### SET_PARAM -/

theorem exec_setParamInstr (p : ParamId) (val : BitVec 18) (s : State) :
    exec (setParamInstr p val) s = setParam p val s := by
  cases p <;> rfl

/-- SET_PARAM's next state: stg[p] written, and ERR_PARAM_CLAMP set when the value was altered (R102). -/
theorem setParam_eq_next (p : ParamId) (val : BitVec 18) (s : State) :
    setParam p val s = .next { s with
      stg := s.stg.set (storedValue p val) p
      status := if storedValue p val = val then s.status else s.status ||| 0x8#32 } := by
  by_cases h : storedValue p val = val
  · simp [setParam, h]
  · simp [setParam, h, raise, State.setFlag, Flag.bit]

/-- A row's statement is about the stored number only. -/
theorem storesParam_of_toNat_storedValue {p : ParamId} {stored : Nat → Nat}
    (h : ∀ val, (storedValue p val).toNat = stored val.toNat) : StoresParam (setParamInstr p) p stored := by
  intro val s
  have hkept : storedValue p val = val ↔ stored val.toNat = val.toNat := by
    rw [← BitVec.toNat_inj, h]
  refine ⟨_, (exec_setParamInstr p val s).trans (setParam_eq_next p val s), ?_, fun q hq => ?_, ?_⟩
  · simp [Staging.get_set, h]
  · simp [Staging.get_set, hq.symm]
  · simp only [hkept]

theorem ParamId.hi_lt_two_pow (p : ParamId) : p.hi < 2 ^ 18 := by
  cases p <;> decide

/-- A parameter other than a waveform is clamped to its range (R26, R102). -/
theorem storesParam_clamp (p : ParamId) (h : p.isWaveform = false) :
    StoresParam (setParamInstr p) p fun v => min p.hi (max p.lo v) :=
  storesParam_of_toNat_storedValue fun val => by
    have hlt : min p.hi (max p.lo val.toNat) < 2 ^ 18 := (min_le_left _ _).trans_lt p.hi_lt_two_pow
    simp only [storedValue, h, Bool.false_eq_true, if_false]
    rw [BitVec.toNat_ofNat, Nat.mod_eq_of_lt hlt]

/-- Where the least legal value is 0, only the upper end clamps. -/
theorem storesParam_clampAbove (p : ParamId) (h : p.isWaveform = false) (h0 : p.lo = 0) :
    StoresParam (setParamInstr p) p fun v => min p.hi v := by
  simpa only [h0, Nat.zero_max] using storesParam_clamp p h

/-- An unknown waveform is stored as 0 (R26, R102). -/
theorem storesParam_waveform (p : ParamId) (h : p.isWaveform = true) :
    StoresParam (setParamInstr p) p fun v => if v ≤ 4 then v else 0 :=
  storesParam_of_toNat_storedValue fun val => by
    simp only [storedValue, h, if_true]
    split <;> rfl

/-- Settles O10: each row is its kind's lemma (clamped on both sides, clamped above, or a waveform) at its
id, and the decoder reads the id and the value from their slices. -/
theorem setParamStoresClamped : Obligations.SetParamStoresClamped := by
  refine ⟨storesParam_clamp .ampAttack rfl, storesParam_clamp .ampDecay rfl,
    storesParam_clampAbove .ampSustain rfl rfl, storesParam_clamp .ampRelease rfl,
    storesParam_clamp .fltAttack rfl, storesParam_clamp .fltDecay rfl,
    storesParam_clampAbove .fltSustain rfl rfl, storesParam_clamp .fltRelease rfl,
    storesParam_clamp .filterCutoff rfl, storesParam_clampAbove .filterResonance rfl rfl,
    storesParam_clampAbove .filterMode rfl rfl, storesParam_clamp .lfoFreq rfl,
    storesParam_clampAbove .lfoAmount rfl rfl, storesParam_clampAbove .fenvEnable rfl rfl,
    storesParam_clampAbove .fenvAmount rfl rfl, storesParam_waveform .osc0Waveform rfl,
    storesParam_waveform .osc1Waveform rfl, storesParam_clampAbove .osc0Enable rfl rfl,
    storesParam_clampAbove .osc1Enable rfl rfl, storesParam_clamp .cfgSampleRate rfl,
    storesParam_clamp .cfgMaxBlock rfl, storesParam_clamp .cfgNumChannels rfl,
    fun w p hop hid => ?_, fun w s hop hid => ?_⟩
  · have hp : ParamId.ofNum? (field w 23 18) = some p :=
      ParamId.ofNum?_eq_some.2 (hid.symm.trans (field_eq_extract w 23 18).symm)
    have hfield : field w 31 24 = 2 := by
      rw [field_eq_extract]
      exact congrArg BitVec.toNat hop
    exact (decode_eq_setParam w p _).2 ⟨hfield, hp, (ofNat_field w 17 0).symm⟩
  · exact runWord_of_decode_error (decode_setParam_reserved hop hid) s

end Sys2Proof
end

section
/-! The waveforms (R133 to R136): each waveform as its formula in literal numbers, then its range. Saw and
triangle share the ramp of a phase, and the sine's range is that of `sinq30`. -/

namespace Sys2Proof

open Machine

/-- `>> 7` of a phase is a division of naturals (R10). -/
theorem shr_seven_toNat (p : Word) : shr p.toNat 7 = (p.toNat / 128 : Nat) := by
  simp [shr, fdiv]

/-- The ramp of saw and triangle covers [-ONE, ONE - 1] (R135, R136). -/
theorem ramp_bounds (p : Word) :
    -16777216 ≤ ((p.toNat / 128 : Nat) : Int) - 16777216 ∧
      ((p.toNat / 128 : Nat) : Int) - 16777216 ≤ 16777215 := by
  have hp := p.isLt
  omega

/-! ### Formulas -/

theorem wave_sine (p r : Word) : wave .sine p r = sinq30 (p + 0x80000000#32) / 64 := rfl

theorem wave_square (p r : Word) :
    wave .square p r = if 2 ^ 31 ≤ p.toNat then 16777216 else -16777216 := rfl

theorem wave_saw (p r : Word) : wave .saw p r = (p.toNat / 128 : Nat) - 16777216 := by
  rw [← shr_seven_toNat]
  rfl

theorem wave_triangle (p r : Word) :
    wave .triangle p r =
      2 * |((p + 0x80000000#32).toNat / 128 : Nat) - (16777216 : Int)| - 16777216 := by
  rw [← shr_seven_toNat, Int.abs_eq_natAbs]
  rfl

/-! ### Ranges -/

theorem wave_sine_bounds (p r : Word) : -16777216 ≤ wave .sine p r ∧ wave .sine p r ≤ 16777216 := by
  have hq := sinq30_bounds (p + 0x80000000#32)
  rw [wave_sine]
  omega

theorem wave_saw_bounds (p r : Word) : -16777216 ≤ wave .saw p r ∧ wave .saw p r ≤ 16777215 := by
  rw [wave_saw]
  exact ramp_bounds p

/-- Folding the ramp's [-ONE, ONE - 1] and doubling it fills [-ONE, ONE] (R136). -/
theorem wave_triangle_bounds (p r : Word) :
    -16777216 ≤ wave .triangle p r ∧ wave .triangle p r ≤ 16777216 := by
  have hramp := ramp_bounds (p + 0x80000000#32)
  have hfold : |((p + 0x80000000#32).toNat / 128 : Nat) - (16777216 : Int)| ≤ 16777216 :=
    abs_le.2 ⟨hramp.1, by omega⟩
  have hnonneg := abs_nonneg (((p + 0x80000000#32).toNat / 128 : Nat) - (16777216 : Int))
  rw [wave_triangle]
  omega

/-! ### Quarter turns -/

/-- At the quarter turns the sine reads a table entry without interpolation (R133, R270). -/
theorem wave_sine_quarterTurns (r : Word) :
    [0x00000000#32, 0x40000000#32, 0x80000000#32, 0xC0000000#32].map (wave .sine · r) =
      [0, -16777216, 0, 16777216] := by
  simp only [wave_sine]
  decide

theorem wave_saw_quarterTurns (r : Word) :
    [0x00000000#32, 0x40000000#32, 0x80000000#32, 0xC0000000#32].map (wave .saw · r) =
      [-16777216, -8388608, 0, 8388608] := by
  simp only [wave_saw]
  decide

theorem wave_triangle_quarterTurns (r : Word) :
    [0x00000000#32, 0x40000000#32, 0x80000000#32, 0xC0000000#32].map (wave .triangle · r) =
      [-16777216, 0, 16777216, 0] := by
  simp only [wave_triangle]
  decide

/-- Settles O25: each waveform's formula, range and quarter-turn values are its own lemmas. -/
theorem waveformRanges : Obligations.WaveformRanges :=
  ⟨fun p r => ⟨wave_sine p r, wave_sine_bounds p r⟩, wave_square,
    fun p r => ⟨wave_saw p r, wave_saw_bounds p r⟩,
    fun p r => ⟨wave_triangle p r, wave_triangle_bounds p r⟩,
    fun r => ⟨wave_sine_quarterTurns r, wave_saw_quarterTurns r, wave_triangle_quarterTurns r⟩⟩

end Sys2Proof
end

section
/-! The envelope unit (R152 to R155, R162): a segment's step, from the remainder of a rounded-down division;
the gate events; and update, as the case of `replan` for the unit's stage with the parameters then stored. -/

namespace Sys2Proof.Machine

/-! ### Segments -/

/-- From a to a + d a quotient rounded down moves by at most ⌈|d| / n⌉ (R10). -/
theorem natAbs_ediv_add_sub_le (a d : Int) {n : Nat} (hn : 0 < n) :
    ((a + d) / n - a / n).natAbs ≤ (d.natAbs + n - 1) / n := by
  have hn' : (0 : Int) < n := by exact_mod_cast hn
  have hlo := Int.ediv_mul_le a hn'.ne'
  have hhi := Int.lt_ediv_add_one_mul_self a hn'
  have hlo' := Int.ediv_mul_le (a + d) hn'.ne'
  have hhi' := Int.lt_ediv_add_one_mul_self (a + d) hn'
  have hmoved : |((a + d) / n - a / n) * n| < |d| + n :=
    abs_lt.2 ⟨by linarith [neg_abs_le d], by linarith [le_abs_self d]⟩
  rw [abs_mul, Nat.abs_cast] at hmoved
  rw [Nat.le_div_iff_mul_le hn]
  apply Nat.le_sub_one_of_lt
  zify
  exact hmoved

/-- A step along a segment is at most ⌈|target - start| / n⌉ (R152). -/
theorem segLevel_step_le (start target k : Nat) {n : Nat} (hn : 0 < n) :
    (segLevel start target (k + 1) n - segLevel start target k n).natAbs ≤
      (((target : Int) - start).natAbs + n - 1) / n := by
  have hnext : ((target : Int) - start) * ((k + 1 : Nat) : Int) =
      ((target : Int) - start) * k + ((target : Int) - start) := by push_cast; ring
  unfold segLevel fdiv
  rw [add_sub_add_left_eq_sub, hnext]
  exact natAbs_ediv_add_sub_le _ _ hn

/-- The largest step is that of a whole scale in the shortest segment: ⌈2^24 / 80⌉ (R152). -/
theorem segLevel_step_le_max {start target n : Nat} (k : Nat) (hs : start ≤ 16777216)
    (ht : target ≤ 16777216) (hn : 80 ≤ n) :
    (segLevel start target (k + 1) n - segLevel start target k n).natAbs ≤ 209716 :=
  (segLevel_step_le start target k (by omega)).trans
    (Nat.le_of_lt_succ (Nat.div_lt_of_lt_mul (by omega)))

/-! ### Gate events -/

/-- A gate off in a stage before RELEASE starts the release from the current level (R154). -/
theorem Env.gateOff_of_held {e : Env} (h : e.stage = .attack ∨ e.stage = .decay ∨ e.stage = .sustain) :
    e.gateOff = { e with stage := .release, start := e.level, target := 0, k := 0, n := e.nr } := by
  unfold Env.gateOff
  rcases h with h | h | h <;> rw [h]

/-- A gate off in IDLE or RELEASE changes nothing (R154). -/
theorem Env.gateOff_of_released {e : Env} (h : e.stage = .idle ∨ e.stage = .release) : e.gateOff = e := by
  unfold Env.gateOff
  rcases h with h | h <;> rw [h]

/-! ### Update -/

theorem Env.replan_attack {e : Env} (h : e.stage = .attack) (q : EnvParams) :
    e.replan q = if q.na = e.na then e else { e with start := e.level, k := 0, n := q.na } := by
  simp only [Env.replan, h]

theorem Env.replan_decay {e : Env} (h : e.stage = .decay) (q : EnvParams) :
    e.replan q = if q.nd = e.nd ∧ q.sus = e.sus then e
      else { e with start := e.level, k := 0, n := q.nd, target := q.sus } := by
  simp only [Env.replan, h]

theorem Env.replan_sustain {e : Env} (h : e.stage = .sustain) (q : EnvParams) :
    e.replan q = if q.sus = e.sus then e
      else { e with start := e.level, k := 0, n := q.nd, target := q.sus } := by
  simp only [Env.replan, h]

theorem Env.replan_release {e : Env} (h : e.stage = .release) (q : EnvParams) :
    e.replan q = if q.nr = e.nr then e else { e with start := e.level, k := 0, n := q.nr } := by
  simp only [Env.replan, h]

theorem Env.replan_idle {e : Env} (h : e.stage = .idle) (q : EnvParams) : e.replan q = e := by
  simp only [Env.replan, h]

/-- The stored parameters ask for no new segment in any stage (R162). -/
theorem Env.replan_stored (e : Env) : e.replan ⟨e.na, e.nd, e.sus, e.nr⟩ = e := by
  cases h : e.stage
  case idle => exact Env.replan_idle h _
  case attack => rw [Env.replan_attack h, if_pos rfl]
  case decay => rw [Env.replan_decay h, if_pos ⟨rfl, rfl⟩]
  case sustain => rw [Env.replan_sustain h, if_pos rfl]
  case release => rw [Env.replan_release h, if_pos rfl]

/-- Storing the parameters passes through the choice whether to re-plan (R162). -/
theorem Env.update_of_replan_ite {e d : Env} {q : EnvParams} {c : Prop} [Decidable c]
    (h : e.replan q = if c then e else d) :
    e.update q = if c then { e with na := q.na, nd := q.nd, sus := q.sus, nr := q.nr }
      else { d with na := q.na, nd := q.nd, sus := q.sus, nr := q.nr } := by
  unfold Env.update
  rw [h]
  split <;> rfl

/-- An update in IDLE only stores the parameters (R162). -/
theorem Env.update_idle {e : Env} (h : e.stage = .idle) (q : EnvParams) :
    e.update q = { e with na := q.na, nd := q.nd, sus := q.sus, nr := q.nr } := by
  unfold Env.update
  rw [Env.replan_idle h]

/-- An update to the stored parameters changes nothing (R162). -/
theorem Env.update_stored (e : Env) : e.update ⟨e.na, e.nd, e.sus, e.nr⟩ = e := by
  unfold Env.update
  rw [Env.replan_stored]

/-- A commit updates both units of a voice, each with the parameters of its kind (R162, R250). -/
theorem commit_voice_envs (s : State) (v : Fin Config.numVoices) :
    ((commit s).voice v).aenv = (s.voice v).aenv.update (ampParams s.stg.snap s.fs) ∧
      ((commit s).voice v).fenv = (s.voice v).fenv.update (fltParams s.stg.snap s.fs) := by
  rw [commit_voice]
  exact ⟨rfl, rfl⟩

end Sys2Proof.Machine

namespace Sys2Proof

open Machine

/-- Settles O28: ends and bounds are the segment's laws, and a step is bounded through the remainders of its
two rounded-down quotients. -/
theorem segmentInterpolates : Obligations.SegmentInterpolates :=
  fun start target _ hn =>
    ⟨fun _ => rfl, segLevel_zero _ _ _, segLevel_end _ _ hn, fun _ hk => segLevel_between _ _ hk hn,
      fun k _ => ⟨segLevel_step_le start target k hn, segLevel_step_le_max k⟩⟩

/-- Settles O29: gate_off by whether the unit is still held; gate_on and hard_reset are one case each. -/
theorem gateEvents : Obligations.GateEvents :=
  fun _ => ⟨rfl, Env.gateOff_of_held, Env.gateOff_of_released, rfl⟩

/-- Settles O30: the commit reaches both units, and each stage's clause is that stage's case of `replan` with
the parameters stored. -/
theorem updateIsGlitchFree : Obligations.UpdateIsGlitchFree :=
  ⟨commit_voice_envs, fun e _ _ _ _ =>
    ⟨(e.update_keeps _).1, (e.update_keeps _).2,
      fun h => Env.update_of_replan_ite (Env.replan_attack h _),
      fun h => Env.update_of_replan_ite (Env.replan_decay h _),
      fun h => Env.update_of_replan_ite (Env.replan_sustain h _),
      fun h => Env.update_of_replan_ite (Env.replan_release h _),
      fun h => Env.update_idle h _, e.update_stored⟩⟩

end Sys2Proof
end

section
/-! One ACTIVE voice per note, kept by every step (R247): the invariant read through `State.plays`, and
which voice plays which note after each voice operation and each command. -/

namespace Sys2Proof.Machine

/-- The invariant in terms of who plays what: a note has at most one player (R247). -/
theorem State.oneActivePerNote_iff {s : State} :
    s.OneActivePerNote ↔ ∀ m v w, s.plays m v → s.plays m w → v = w := by
  simp only [State.plays_iff]
  constructor
  · rintro h m v w ⟨hv, rfl⟩ ⟨hw, e⟩
    exact h v w hv hw e.symm
  · exact fun h v w hv hw e => h _ v w ⟨hv, rfl⟩ ⟨hw, e.symm⟩

/-- With no new player of any note, a note still has at most one. -/
theorem State.OneActivePerNote.of_plays {s t : State} (hs : s.OneActivePerNote)
    (h : ∀ m v, t.plays m v → s.plays m v) : t.OneActivePerNote :=
  State.oneActivePerNote_iff.2 fun m v w hv hw =>
    State.oneActivePerNote_iff.1 hs m v w (h m v hv) (h m w hw)

theorem State.oneActivePerNote_of_idle {s : State} (h : ∀ v, (s.voice v).state = .idle) :
    s.OneActivePerNote := fun v _ hv => by simp [h v] at hv

/-! ### The voice operations -/

/-- A voice that is written without being ACTIVE plays nothing; the others play what they did. -/
theorem plays_of_plays_setVoice {s : State} {v w : Fin Config.numVoices} {x : Voice} {m : BitVec 7}
    (hx : x.state ≠ .active) (h : (s.setVoice v x).plays m w) : s.plays m w := by
  rw [State.plays_iff, State.voice_setVoice] at h
  split at h
  · exact absurd h.1 hx
  · exact State.plays_iff.2 h

/-- After a start the started voice plays its own note and the others play what they did (R220). -/
theorem plays_startedState {s : State} {v w : Fin Config.numVoices} {m m' vel : BitVec 7}
    (h : (startedState v m vel s).plays m' w) : (w = v ∧ m' = m) ∨ s.plays m' w := by
  rw [State.plays_iff, startedState_voice] at h
  split at h
  · next hvw => exact .inl ⟨hvw.symm, h.2.symm⟩
  · exact .inr (State.plays_iff.2 h)

/-- Stops only take players away, and a start adds the first player of its note (R220, R222, R247). -/
theorem keptByVoiceOps_oneActivePerNote : KeptByVoiceOps State.OneActivePerNote where
  tail _ _ hs _ := hs.of_plays fun _ _ => plays_of_plays_setVoice (by simp [Voice.released])
  hard v s hs _ _ := hs.of_plays fun _ _ h =>
    plays_of_plays_setVoice (s := { s with seq := s.seq + 1 }) (by simp [Voice.hardStopped]) h
  start _ _ _ _ hs _ _ hno := State.oneActivePerNote_iff.2 fun m' w w' hw hw' => by
    rcases plays_startedState hw with ⟨rfl, rfl⟩ | hp
    · rcases plays_startedState hw' with ⟨rfl, -⟩ | hp'
      · rfl
      · exact absurd hp' (hno w')
    · rcases plays_startedState hw' with ⟨-, rfl⟩ | hp'
      · exact absurd hp (hno w)
      · exact State.oneActivePerNote_iff.1 hs m' w w' hp hp'

/-! ### RENDER -/

/-- The commit at the start of a RENDER leaves every voice playing what it did (R162, R250). -/
theorem plays_drainStart (nfr : BitVec 16) (s : State) (m : BitVec 7) (v : Fin Config.numVoices) :
    (drainStart nfr s).plays m v = s.plays m v := by
  unfold State.plays
  rw [drainStart_voice]
  rfl

/-- After a RENDER a voice plays only what it played when its events were dispatched (R228, R257). -/
theorem execRender_plays {nfr : BitVec 16} {s t : State} (h : execRender nfr s = .next t) :
    ∃ u, dispatchAll s.evq (drainStart nfr s) = .next u ∧ ∀ m v, t.plays m v → u.plays m v := by
  obtain ⟨u, hu, hv⟩ := execRender_voice h
  refine ⟨u, hu, fun m v hp => ?_⟩
  have hvv := hv v
  rw [State.plays_iff] at hp ⊢
  split at hvv
  · rwa [hvv] at hp
  · rcases hvv with ⟨e, -⟩ | ⟨q, e, -⟩
    · rwa [e, renderNext_eq] at hp
    · rw [e] at hp
      cases hp.1

theorem execRender_oneActivePerNote {nfr : BitVec 16} {s t : State} (hs : s.OneActivePerNote)
    (h : execRender nfr s = .next t) : t.OneActivePerNote := by
  obtain ⟨u, hu, hp⟩ := execRender_plays h
  have h0 : (drainStart nfr s).OneActivePerNote :=
    hs.of_plays fun m v hv => plays_drainStart nfr s m v ▸ hv
  exact (keptByVoiceOps_oneActivePerNote.dispatchAll h0 hu).of_plays hp

end Sys2Proof.Machine

namespace Sys2Proof

open Machine

/-- Settles O55: reset and PREPARE leave every voice IDLE, SET_PARAM and the note events touch no voice, and
RENDER adds a player only through a note start, which follows the same-note release. -/
theorem stepKeepsOneActivePerNote : Obligations.StepKeepsOneActivePerNote := by
  refine fun s t hs h => step_keeps (P := State.OneActivePerNote) (fun _ _ _ _ _ _ _ _ hs => hs)
    (State.oneActivePerNote_of_idle (by decide)) (fun s _ => State.oneActivePerNote_of_idle fun v => ?_)
    (fun p val s t hs h => ?_) (fun e s hs => ?_) (fun _ _ _ => execRender_oneActivePerNote) hs h
  · rw [prepare_voice]
    rfl
  · obtain ⟨t', ht', -, hst, -⟩ := setParam_eq p val s
    cases ht'.symm.trans h
    rw [hst]
    exact hs
  · rcases enqueue_cases e s with ⟨-, e⟩ | ⟨-, e⟩ <;> rw [e] <;> exact hs

end Sys2Proof
end

section
/-! What RENDER writes to OUTBUF (R254 to R256, R261): the block's words to every channel below NCH, over the
OUTBUF the command found; dispatch and commit leave OUTBUF and NCH alone. -/

namespace Sys2Proof.Machine

/-- The drain of a RENDER leaves OUTBUF and the channel count as the command found them (R250, R251). -/
theorem drainEvq_keeps_output {nfr : BitVec 16} {s u : State}
    (h : drainEvq (commit (clampFrames nfr s)) = .next u) : u.outbuf = s.outbuf ∧ u.nch = s.nch := by
  have hf := (dispatchAll_frame h).1
  rw [hf, clampFrames_eq]
  exact ⟨rfl, rfl⟩

/-- RENDER writes one word per frame, the limited mix of the drained state, to every channel (R254 to
R256). -/
theorem execRender_outbuf {nfr : BitVec 16} {s t : State} (h : execRender nfr s = .next t) :
    ∃ u, drainEvq (commit (clampFrames nfr s)) = .next u ∧
      ∃ ws : List Word, ws.length = renderFrames nfr s.maxblk ∧
        (∀ j (hj : j < ws.length),
          ws[j] = BitVec.ofInt 32 (limit (mixSample (renderFrames nfr s.maxblk) j u))) ∧
        t.outbuf = Memory.writeChannels s.nch.toNat ws s.outbuf := by
  obtain ⟨u, hu, h⟩ := andThen_eq_next.1 h
  obtain ⟨w, hw, h⟩ := andThen_eq_next.1 h
  cases h
  obtain ⟨ho, hn⟩ := drainEvq_keeps_output hu
  obtain ⟨ws, hl, hws, ha, -⟩ := renderAudio_spec (renderFrames nfr s.maxblk) u
  refine ⟨u, hu, ws, hl, fun j hj => ?_, ?_⟩
  · rw [← hws j (hl ▸ hj), List.getD_eq_getElem _ _ hj]
  · have hf := (freeFinished_spec hw).1
    change w.outbuf = _
    rw [hf, ha, ← ho, ← hn]

/-- A legal MAXBLK keeps a block inside a channel (R26, R107). -/
theorem renderFrames_le_maxBlockCap {maxblk : BitVec 18} (h : legalValue .cfgMaxBlock maxblk)
    (nfr : BitVec 16) : renderFrames nfr maxblk ≤ Config.maxBlockCap :=
  (Nat.min_le_right _ _).trans h.2

/-- With every voice IDLE the mix is silent (R254, R261). -/
theorem mixSample_of_idle {s : State} (h : ∀ v, (s.voice v).state = .idle) (n j : Nat) :
    mixSample n j s = 0 := by
  simp [mixSample, h]

end Sys2Proof.Machine

namespace Sys2Proof

open Machine

/-- Settles O21: the block's words are the limited mix, a written channel reads them back because a legal
block fits it, a silent mix is limited to 0, and a byte outside the written words is kept. -/
theorem renderWritesLimitedSum : Obligations.RenderWritesLimitedSum := by
  rintro s t nfr ⟨-, -, -, hmax, -⟩ h
  obtain ⟨u, hu, ws, hl, hws, ho⟩ := execRender_outbuf h
  have hfit : ws.length ≤ Config.maxBlockCap := hl ▸ renderFrames_le_maxBlockCap hmax nfr
  have hout : ∀ c < s.nch.toNat, ∀ j < renderFrames nfr s.maxblk, t.outWord c j =
      BitVec.ofInt 32 (limit (mixSample (renderFrames nfr s.maxblk) j u)) := fun c hc j hj => by
    have hj' : j < ws.length := hl ▸ hj
    rw [State.outWord, ho, Memory.readWord_writeChannels ws _ hc hj' hfit, hws j hj']
  refine ⟨u, renderFrames nfr s.maxblk, hu, rfl, hout, fun hi j hj => ?_, fun a ha => ?_⟩
  · have hz := mixSample_of_idle hi (renderFrames nfr s.maxblk) j
    exact ⟨hz, fun c hc => by rw [hout c hc j hj, hz]; rfl⟩
  · rw [ho, Memory.read_writeChannels_outside _ _ _ _ fun c hc => ?_]
    rw [hl]
    exact ha c hc

end Sys2Proof
end

section
/-! Exceptional conditions (R280 to R288): R281's list from each format's own decoder, LAST_ILLEGAL along
commands, host accesses and steps, STATUS after each kind of command, and irq. -/

namespace Sys2Proof

open Machine

/-! ### The illegal words (R281) -/

theorem exists_ite_ok_eq_error {ε α : Type} {c : Prop} [Decidable c] {a : α} {e : ε} :
    (∃ x, (if c then Except.ok a else .error e) = .error x) ↔ ¬ c := by
  split <;> simp [*]

/-- A SET_PARAM word is rejected exactly when its ID names no parameter (R84, R89). -/
theorem exists_decodeSetParam_eq_error {w : Word} :
    (∃ e, decodeSetParam w = .error e) ↔ ∀ p : ParamId, p.num ≠ field w 23 18 := by
  unfold decodeSetParam
  split
  · next p h => simpa using ⟨p, ParamId.num_of_ofNum? h⟩
  · next h => simpa [h] using ParamId.ofNum?_isSome (n := field w 23 18)

/-- R281's list, opcode by opcode, is what that opcode's decoder rejects. -/
theorem illegalWord_iff_decode_error (w : Word) : IllegalWord w ↔ ∃ e, decode w = .error e := by
  unfold IllegalWord decode
  split <;> rename_i hop
  · simp [hop, decodeNop, exists_ite_ok_eq_error]
  · simp [hop, decodePrepare, exists_ite_ok_eq_error]
  · simp [hop, exists_decodeSetParam_eq_error]
  · simp [hop, decodeNoteOn, exists_ite_ok_eq_error, imp_iff_not_or]
  · simp [hop, decodeNoteOff, exists_ite_ok_eq_error, imp_iff_not_or]
  · simp [hop, decodeAllNotesOff, exists_ite_ok_eq_error, imp_iff_not_or]
  · simp [hop, decodeRender, exists_ite_ok_eq_error]
  · simp only [imp_false] at *
    have hreserved : 7 ≤ field w 31 24 := by omega
    simp [hreserved]

/-- The word 0 is NOP, so it is never what LAST_ILLEGAL records. -/
theorem not_illegalWord_zero : ¬ IllegalWord 0 := by
  rw [illegalWord_iff_decode_error, (decode_eq_nop_iff_zero 0).2 rfl]
  simp

end Sys2Proof

namespace Sys2Proof.Machine

/-! ### LAST_ILLEGAL -/

theorem runWord_of_illegalWord {w : Word} (h : IllegalWord w) (s : State) :
    runWord w s = .next (raiseIllegal w s) := by
  obtain ⟨e, he⟩ := (illegalWord_iff_decode_error w).1 h
  exact runWord_of_decode_error he s

theorem writeCmd_of_room {w : Word} {s : State} (h : s.cmdq.length < 16) :
    writeCmd w s = { s with cmdq := s.cmdq ++ [w] } := if_pos h

theorem enqueue_lastIllegal (e : Event) (s : State) : (enqueue e s).lastIllegal = s.lastIllegal := by
  rcases enqueue_cases e s with ⟨-, h⟩ | ⟨-, h⟩ <;> rw [h]
  rfl

theorem issue_lastIllegal (s : State) : (issue s).lastIllegal = s.lastIllegal := by
  rcases issue_cases s with h | ⟨w, q, -, -, h⟩ <;> rw [h]

theorem fetch_lastIllegal {s t : State} {w : Word} (h : fetch s = some (w, t)) :
    t.lastIllegal = s.lastIllegal := by
  rcases fetch_eq_some h with ⟨-, rfl⟩ | ⟨-, q, -, rfl⟩ <;> rfl

theorem hostWrite_lastIllegal (off size : Nat) (v : Word) (s : State) :
    (s.hostWrite off size v).lastIllegal = s.lastIllegal := by
  rw [hostWrite_frame]

theorem execRender_lastIllegal {nfr : BitVec 16} {s t : State} (h : execRender nfr s = .next t) :
    t.lastIllegal = s.lastIllegal := by
  obtain ⟨ws, -, -, ht⟩ := execRender_frame h
  rw [ht]

/-- No legal command touches LAST_ILLEGAL (R281). -/
theorem exec_lastIllegal {i : Instr} {s t : State} (h : exec i s = .next t) :
    t.lastIllegal = s.lastIllegal := by
  rcases exec_cases i s with ⟨-, e⟩ | ⟨-, e⟩ | ⟨p, v, -, e⟩ | ⟨x, e⟩ | ⟨n, -, e⟩ <;> rw [e] at h
  · cases h; rfl
  · cases h; rfl
  · rw [setParam_eq_next] at h; cases h; rfl
  · cases h; exact enqueue_lastIllegal x s
  · exact execRender_lastIllegal h

/-- What a step does to LAST_ILLEGAL: it keeps it, records an illegal word, or is a reset (R281, R300). -/
theorem step_lastIllegal_cases {s t : State} (h : step s = .next t) :
    t.lastIllegal = s.lastIllegal ∨ IllegalWord t.lastIllegal ∨
      (t.lastIllegal = 0 ∧ ∃ r, s.schedule = .reset :: r) := by
  obtain ⟨r, -, h⟩ := step_cases h
  rcases h with rfl | ⟨w, u, i, hf, -, he⟩ | ⟨w, u, e, -, hd, rfl⟩ | rfl | ⟨off, size, rfl⟩ |
    ⟨off, size, v, rfl⟩ | ⟨hs, rfl⟩
  · exact .inl rfl
  · exact .inl ((exec_lastIllegal he).trans (fetch_lastIllegal (s := { s with schedule := r }) hf))
  · exact .inr (.inl ((illegalWord_iff_decode_error w).2 ⟨e, hd⟩))
  · exact .inl (issue_lastIllegal _)
  · exact .inl rfl
  · exact .inl (hostWrite_lastIllegal off size v _)
  · exact .inr (.inr ⟨rfl, r, hs⟩)

/-! ### STATUS after a command (R282 to R284, R288) -/

/-- SET_PARAM raises ERR_PARAM_CLAMP or nothing (R282). -/
theorem setParam_status {p : ParamId} {val : BitVec 18} {s t : State} (h : setParam p val s = .next t) :
    t.status = s.status ∨ t.status = s.status ||| 0x08#32 := by
  rw [setParam_eq_next] at h
  cases h
  exact ite_eq_or_eq _ _ _

/-- A note event raises ERR_EVQ_OVF or nothing (R283). -/
theorem enqueue_status (e : Event) (s : State) :
    (enqueue e s).status = s.status ∨ (enqueue e s).status = s.status ||| 0x10#32 := by
  rcases enqueue_cases e s with ⟨-, h⟩ | ⟨-, h⟩ <;> rw [h]
  · exact .inl rfl
  · exact .inr rfl

/-- RENDER sets DONE, and ERR_RENDER_CLAMP or nothing beside it (R107, R258, R284). -/
theorem execRender_status {nfr : BitVec 16} {s t : State} (h : execRender nfr s = .next t) :
    t.status = s.status ||| 0x02#32 ∨ t.status = s.status ||| 0x22#32 := by
  obtain ⟨ws, -, -, ht⟩ := execRender_frame h
  have hst : t.status = (clampFrames nfr s).status ||| 0x2#32 := by rw [ht]
  rw [hst, clampFrames_status]
  split
  · exact .inr (BitVec.or_assoc _ _ _)
  · exact .inl rfl

/-! ### irq (R285) -/

/-- The error flags are the bits 6:2 of STATUS (R22). -/
theorem State.anyError_eq (s : State) : s.anyError = (s.status &&& 0x7C#32 != 0) := by
  rw [Bool.eq_iff_iff, bne_iff_ne, ne_eq, and_eq_iff]
  simp [State.anyError, State.flag, Flag.bit, List.range_succ, imp_iff_not_or, or_assoc]

end Sys2Proof.Machine

namespace Sys2Proof

open Machine

/-- Settles O7: the list is the decoder's rejections, an illegal word's rule only records it, and a step
changes LAST_ILLEGAL in the two ways of `step_lastIllegal_cases`, of which the recorded word is not 0. -/
theorem illegalWordOnlyRecords : Obligations.IllegalWordOnlyRecords := by
  refine ⟨fun w => ⟨illegalWord_iff_decode_error w, fun h s => runWord_of_illegalWord h s,
      fun s => writeCmd_of_room⟩, rfl, rfl, fun s t h hne => ?_, fun s t h hs ht => ?_,
    fun i s t => exec_lastIllegal, fun s off size v => ⟨hostWrite_lastIllegal off size v s, rfl⟩⟩
  · exact (step_lastIllegal_cases h).resolve_left hne
  · rcases step_lastIllegal_cases h with hkept | hill | ⟨-, hreset⟩
    · exact absurd (hkept.symm.trans ht) hs
    · exact absurd (ht ▸ hill) not_illegalWord_zero
    · exact hreset

/-- Settles O15: a rejected word only records, and a decoded one changes STATUS as its command's lemma says. -/
theorem oneConditionPerCommandStep : Obligations.OneConditionPerCommandStep := by
  intro w s t h
  have hexec : ∀ {i}, decode w = .ok i → exec i s = .next t := fun hd => by
    rwa [runWord_of_decode_ok hd] at h
  refine ⟨fun e hd => ?_, fun p v hd => ?_, fun i hd hi => ?_, fun n hd => ?_, fun hd => ?_⟩
  · rw [runWord_of_decode_error hd] at h
    cases h
    rfl
  · exact setParam_status ((exec_setParamInstr p v s).symm.trans (hexec hd))
  · have hx := hexec hd
    rcases hi with ⟨n, v, rfl⟩ | ⟨b, n, v, rfl⟩ | ⟨b, rfl⟩ <;> cases hx <;> exact enqueue_status _ s
  · exact execRender_status (hexec hd)
  · rcases hd with hd | hd <;> cases hexec hd <;> rfl

/-- Settles O43: irq by definition, with the five error flags read as one masked word. -/
theorem irqFollowsFlags : Obligations.IrqFollowsFlags :=
  ⟨fun s => by rw [State.irq, State.anyError_eq]; rfl, rfl⟩

end Sys2Proof
end

section
/-! Reset (R301): the voices after reset with their seeds, the voice views as fields of a voice, and OUTBUF
with no byte listed. -/

namespace Sys2Proof.Machine

/-- After reset a voice holds its reset value, with the two seeds of its index (R137, R301). -/
theorem reset_voice (v : Fin Config.numVoices) :
    State.reset.voice v = Voice.reset (seed v.val 0) (seed v.val 1) := by
  revert v
  decide

/-- The registers of voice v's view are the words of `Voice.view` (R43, R61). -/
theorem State.readReg_view (s : State) (v : Fin Config.numVoices) {off : Nat} (h : off < 0x20) :
    s.readReg (0x400 + 0x20 * v.val + off) = (s.voice v).view off := by
  have hv : v.val < 10 := v.isLt
  have hquot : (0x400 + 0x20 * v.val + off - 0x400) / 0x20 = v.val := by omega
  have hrem : (0x400 + 0x20 * v.val + off - 0x400) % 0x20 = off := by omega
  have hview : s.readReg (0x400 + 0x20 * v.val + off) =
      s.readView (0x400 + 0x20 * v.val + off - 0x400) := by
    rw [State.readReg, if_neg (by omega), if_neg (by omega), if_neg (by omega), if_neg (by omega),
      if_pos (by omega)]
  simp only [hview, State.readView, hquot, hrem, v.isLt, dite_true]

/-- VSTATE after reset: IDLE, note 0 and velocity 0 (R30, R301). -/
theorem Voice.vstate_reset (seed0 seed1 : Word) : (Voice.reset seed0 seed1).vstate = 0 := by
  simp [Voice.vstate, Voice.reset, Life.code]

/-- Every register of a reset voice's view reads 0: no field it shows is a seed (R43, R301). -/
theorem Voice.view_reset (seed0 seed1 : Word) {k : Nat} (h : k < 8) :
    (Voice.reset seed0 seed1).view (4 * k) = 0 := by
  interval_cases k
  · exact Voice.vstate_reset seed0 seed1
  all_goals rfl

/-- A word of an OUTBUF that lists no byte reads 0 (R37; log 9). -/
@[simp] theorem Memory.readWord_nil (a : Nat) : Memory.readWord [] a = 0 := by
  simp [Memory.readWord, Memory.unlisted]

end Sys2Proof.Machine

namespace Sys2Proof

open Machine

/-- Settles O49: R301's table is the definition of the reset state, a voice is `reset_voice`, its view reads
0 register by register, and OUTBUF lists no byte. -/
theorem resetValues : Obligations.ResetValues := by
  refine ⟨rfl, by decide, rfl, rfl, rfl, rfl, rfl, rfl, by decide, rfl, rfl, rfl, rfl, rfl,
    fun v e he => ?_, fun v k hk => ?_, fun c _ j _ => Memory.readWord_nil _⟩
  · rw [reset_voice, he, seed, seed, Nat.mul_comm v.val]
    rfl
  · rw [State.readReg_view _ _ (by omega), reset_voice]
    exact Voice.view_reset _ _ hk

end Sys2Proof
end

section
/-! Encoding (R80 to R94): the fields of each format's word, that encoding and decoding undo each other, and
the assembler, a pseudo-command as the lines of its expansion. -/

namespace Sys2Proof

open Machine

/-- The commands by their format: one case for the 22 SET_PARAM rows (R81). -/
theorem Instr.forall_of_formats {P : Instr → Prop} (nop : P .nop) (prepare : P .prepare)
    (setParam : ∀ p v, P (setParamInstr p v)) (noteOn : ∀ n v, P (.noteOn n v))
    (noteOff : ∀ h n v, P (.noteOff h n v)) (allNotesOff : ∀ h, P (.allNotesOff h))
    (render : ∀ n, P (.render n)) (i : Instr) : P i := by
  cases i
  case nop => exact nop
  case prepare => exact prepare
  case noteOn n v => exact noteOn n v
  case noteOff h n v => exact noteOff h n v
  case allNotesOff h => exact allNotesOff h
  case render n => exact render n
  case setParamAmpAttack v => exact setParam .ampAttack v
  case setParamAmpDecay v => exact setParam .ampDecay v
  case setParamAmpSustain v => exact setParam .ampSustain v
  case setParamAmpRelease v => exact setParam .ampRelease v
  case setParamFltAttack v => exact setParam .fltAttack v
  case setParamFltDecay v => exact setParam .fltDecay v
  case setParamFltSustain v => exact setParam .fltSustain v
  case setParamFltRelease v => exact setParam .fltRelease v
  case setParamFilterCutoff v => exact setParam .filterCutoff v
  case setParamFilterResonance v => exact setParam .filterResonance v
  case setParamFilterMode v => exact setParam .filterMode v
  case setParamLfoFreq v => exact setParam .lfoFreq v
  case setParamLfoAmount v => exact setParam .lfoAmount v
  case setParamFenvEnable v => exact setParam .fenvEnable v
  case setParamFenvAmount v => exact setParam .fenvAmount v
  case setParamOsc0Waveform v => exact setParam .osc0Waveform v
  case setParamOsc1Waveform v => exact setParam .osc1Waveform v
  case setParamOsc0Enable v => exact setParam .osc0Enable v
  case setParamOsc1Enable v => exact setParam .osc1Enable v
  case setParamCfgSampleRate v => exact setParam .cfgSampleRate v
  case setParamCfgMaxBlock v => exact setParam .cfgMaxBlock v
  case setParamCfgNumChannels v => exact setParam .cfgNumChannels v

/-! ### The fields of the encoded words (R81) -/

theorem encodeSetParam_fields (p : ParamId) (v : BitVec 18) :
    field (encodeSetParam p v) 23 18 = p.num ∧ field (encodeSetParam p v) 17 0 = v.toNat := by
  have hp := p.num_lt
  have hv := v.isLt
  unfold encodeSetParam
  rw [field_ofNat (by omega), field_ofNat (by omega)]
  omega

theorem encodeNoteOn_fields (n v : BitVec 7) :
    field (encodeNoteOn n v) 23 15 = 0 ∧ field (encodeNoteOn n v) 7 7 = 0 ∧
      field (encodeNoteOn n v) 14 8 = n.toNat ∧ field (encodeNoteOn n v) 6 0 = v.toNat := by
  have hn := n.isLt
  have hv := v.isLt
  unfold encodeNoteOn
  simp only [field_ofNat (show 0x03000000 + n.toNat * 2 ^ 8 + v.toNat < 2 ^ 32 by omega)]
  omega

theorem encodeNoteOff_fields (h : Bool) (n v : BitVec 7) :
    field (encodeNoteOff h n v) 23 17 = 0 ∧ field (encodeNoteOff h n v) 15 15 = 0 ∧
      field (encodeNoteOff h n v) 7 7 = 0 ∧ field (encodeNoteOff h n v) 16 16 = h.toNat ∧
      field (encodeNoteOff h n v) 14 8 = n.toNat ∧ field (encodeNoteOff h n v) 6 0 = v.toNat := by
  have hh := h.toNat_le
  have hn := n.isLt
  have hv := v.isLt
  unfold encodeNoteOff
  simp only [field_ofNat
    (show 0x04000000 + h.toNat * 2 ^ 16 + n.toNat * 2 ^ 8 + v.toNat < 2 ^ 32 by omega)]
  omega

theorem encodeRender_fields (n : BitVec 16) :
    field (encodeRender n) 23 16 = 0 ∧ field (encodeRender n) 15 0 = n.toNat := by
  have hn := n.isLt
  unfold encodeRender
  rw [field_ofNat (by omega), field_ofNat (by omega)]
  omega

/-! ### Decoding an encoded command -/

theorem decode_encodeSetParam (p : ParamId) (v : BitVec 18) :
    decode (encodeSetParam p v) = .ok (setParamInstr p v) := by
  obtain ⟨hid, hval⟩ := encodeSetParam_fields p v
  rw [decode_eq_setParam, hid, hval]
  exact ⟨field_encodeSetParam_op p v, p.ofNum?_num, by simp⟩

theorem decode_encodeNoteOn (n v : BitVec 7) : decode (encodeNoteOn n v) = .ok (.noteOn n v) := by
  obtain ⟨hz, hz', hn, hv⟩ := encodeNoteOn_fields n v
  rw [decode_eq_noteOn, noteOnRow_iff, ← ofNat_field _ 14 8, ← ofNat_field _ 6 0, hn, hv]
  exact ⟨⟨Laws.OpcodeField.noteOn n v, hz, hz'⟩, by simp, by simp⟩

theorem decode_encodeNoteOff (h : Bool) (n v : BitVec 7) :
    decode (encodeNoteOff h n v) = .ok (.noteOff h n v) := by
  obtain ⟨hz, hz', hz'', hh, hn, hv⟩ := encodeNoteOff_fields h n v
  rw [decode_eq_noteOff, noteOffRow_iff, ← field_bit, ← ofNat_field _ 14 8, ← ofNat_field _ 6 0, hh, hn, hv]
  exact ⟨⟨Laws.OpcodeField.noteOff h n v, hz, hz', hz''⟩, by cases h <;> rfl, by simp, by simp⟩

theorem decode_encodeAllNotesOff (h : Bool) : decode (encodeAllNotesOff h) = .ok (.allNotesOff h) := by
  cases h <;> decide

theorem decode_encodeRender (n : BitVec 16) : decode (encodeRender n) = .ok (.render n) := by
  obtain ⟨hz, hn⟩ := encodeRender_fields n
  rw [decode_eq_render, renderRow_iff, ← ofNat_field _ 15 0, hn]
  exact ⟨⟨Laws.OpcodeField.render n, hz⟩, by simp⟩

/-- Settles O1: each format's word has the format's opcode, its must-be-zero fields 0 and its operands in
their fields. -/
theorem decodeUndoesEncode : Obligations.DecodeUndoesEncode :=
  Instr.forall_of_formats (by decide) (by decide)
    (fun p v => by rw [encode_setParamInstr]; exact decode_encodeSetParam p v) decode_encodeNoteOn
    decode_encodeNoteOff decode_encodeAllNotesOff decode_encodeRender

/-! ### The word of a decoded command -/

theorem toNat_getLsbD (w : Word) (k : Nat) : (w.getLsbD k).toNat = field w k k := by
  have hlt : field w k k < 2 := by
    unfold field
    rw [Nat.add_sub_cancel_left]
    exact Nat.mod_lt _ (by decide)
  rw [← field_bit]
  rcases Nat.lt_succ_iff_lt_or_eq.1 hlt with h | h
  · obtain h : field w k k = 0 := by omega
    rw [h]
    rfl
  · rw [h]
    rfl

theorem encodeSetParam_of_fields {w : Word} {p : ParamId} (hop : field w 31 24 = 2)
    (hid : p.num = field w 23 18) : encodeSetParam p (w.extractLsb' 0 18) = w := by
  have hw := w.isLt
  apply BitVec.eq_of_toNat_eq
  rw [encodeSetParam, hid, ← field_eq_extract w 17 0, BitVec.toNat_ofNat]
  unfold field at *
  omega

theorem encodeNoteOn_of_fields {w : Word} (hop : field w 31 24 = 3) (hz : field w 23 15 = 0)
    (hz' : field w 7 7 = 0) : encodeNoteOn (w.extractLsb' 8 7) (w.extractLsb' 0 7) = w := by
  have hw := w.isLt
  apply BitVec.eq_of_toNat_eq
  rw [encodeNoteOn, ← field_eq_extract w 14 8, ← field_eq_extract w 6 0, BitVec.toNat_ofNat]
  unfold field at *
  omega

theorem encodeNoteOff_of_fields {w : Word} (hop : field w 31 24 = 4) (hz : field w 23 17 = 0)
    (hz' : field w 15 15 = 0) (hz'' : field w 7 7 = 0) :
    encodeNoteOff (w.getLsbD 16) (w.extractLsb' 8 7) (w.extractLsb' 0 7) = w := by
  have hw := w.isLt
  apply BitVec.eq_of_toNat_eq
  rw [encodeNoteOff, toNat_getLsbD, ← field_eq_extract w 14 8, ← field_eq_extract w 6 0,
    BitVec.toNat_ofNat]
  unfold field at *
  omega

theorem encodeAllNotesOff_of_fields {w : Word} (hop : field w 31 24 = 5) (hz : field w 23 17 = 0)
    (hz' : field w 15 0 = 0) : encodeAllNotesOff (w.getLsbD 16) = w := by
  have hw := w.isLt
  apply BitVec.eq_of_toNat_eq
  rw [encodeAllNotesOff, toNat_getLsbD, BitVec.toNat_ofNat]
  unfold field at *
  omega

theorem encodeRender_of_fields {w : Word} (hop : field w 31 24 = 6) (hz : field w 23 16 = 0) :
    encodeRender (w.extractLsb' 0 16) = w := by
  have hw := w.isLt
  apply BitVec.eq_of_toNat_eq
  rw [encodeRender, ← field_eq_extract w 15 0, BitVec.toNat_ofNat]
  unfold field at *
  omega

/-- Settles O2: in each row of R94 the opcode, the must-be-zero fields and the operands cover the word. -/
theorem encodeUndoesDecode : Obligations.EncodeUndoesDecode := by
  intro w i h
  rcases decode_eq_ok_iff.1 h with ⟨hw, rfl⟩ | ⟨hw, rfl⟩ | ⟨hw, p, hid, rfl⟩ | ⟨hw, rfl⟩ | ⟨hw, rfl⟩ |
    ⟨hw, rfl⟩ | ⟨hw, rfl⟩
  · rw [show (0xFFFFFFFF#32 : Word) = BitVec.allOnes 32 from rfl, BitVec.and_allOnes] at hw
    exact hw.symm
  · rw [show (0xFFFFFFFF#32 : Word) = BitVec.allOnes 32 from rfl, BitVec.and_allOnes] at hw
    exact hw.symm
  · rw [encode_setParamInstr]
    exact encodeSetParam_of_fields ((setParamRow_iff w).1 hw) hid
  · obtain ⟨hop, hz, hz'⟩ := (noteOnRow_iff w).1 hw
    exact encodeNoteOn_of_fields hop hz hz'
  · obtain ⟨hop, hz, hz', hz''⟩ := (noteOffRow_iff w).1 hw
    exact encodeNoteOff_of_fields hop hz hz' hz''
  · obtain ⟨hop, hz, hz'⟩ := (allNotesOffRow_iff w).1 hw
    exact encodeAllNotesOff_of_fields hop hz hz'
  · obtain ⟨hop, hz⟩ := (renderRow_iff w).1 hw
    exact encodeRender_of_fields hop hz

/-- Settles O5: each word is evaluated. -/
theorem specWordsDecode : Obligations.SpecWordsDecode := by
  unfold Obligations.SpecWordsDecode
  decide

/-! ### The assembler (R92, R93) -/

theorem toNat_ofNat_of_fits {width x : Nat} (h : fits width x) : (BitVec.ofNat width x).toNat = x := by
  rw [BitVec.toNat_ofNat, Nat.mod_eq_of_lt (of_decide_eq_true h)]

/-- A line whose operands all fit, by their greatest values, answers its words (R92). -/
theorem assemble_eq_ite {line : Asm} {c : Prop} [Decidable c] {ws : List Word}
    (hc : line.wellFormed = true ↔ c) (hws : line.wellFormed = true → line.words = ws) :
    assemble line = if c then some ws else none := by
  unfold assemble
  by_cases h : line.wellFormed = true
  · rw [if_pos h, if_pos (hc.1 h), hws h]
  · rw [if_neg h, if_neg (fun x => h (hc.2 x))]

theorem assemble_setParam (id val : Nat) : assemble (.setParam id val) =
    if id ≤ 63 ∧ val ≤ 262143 then some [BitVec.ofNat 32 (0x02000000 + id * 2 ^ 18 + val)] else none :=
  assemble_eq_ite (by simp [Asm.wellFormed]; omega) fun _ => rfl

theorem assemble_noteOn (note vel : Nat) : assemble (.noteOn note vel) =
    if note ≤ 127 ∧ vel ≤ 127 then some [BitVec.ofNat 32 (0x03000000 + note * 2 ^ 8 + vel)] else none := by
  refine assemble_eq_ite (by simp [Asm.wellFormed]; omega) fun h => ?_
  obtain ⟨hn, hv⟩ := Bool.and_eq_true_iff.1 h
  rw [Asm.words, encodeNoteOn, toNat_ofNat_of_fits hn, toNat_ofNat_of_fits hv]

theorem assemble_noteOff (note vel : Nat) (hard : Bool) : assemble (.noteOff note vel hard) =
    if note ≤ 127 ∧ vel ≤ 127 then
      some [BitVec.ofNat 32 (0x04000000 + (if hard then 2 ^ 16 else 0) + note * 2 ^ 8 + vel)]
    else none := by
  refine assemble_eq_ite (by simp [Asm.wellFormed]; omega) fun h => ?_
  obtain ⟨hn, hv⟩ := Bool.and_eq_true_iff.1 h
  have hh : hard.toNat * 2 ^ 16 = if hard then 2 ^ 16 else 0 := by cases hard <;> rfl
  rw [Asm.words, encodeNoteOff, toNat_ofNat_of_fits hn, toNat_ofNat_of_fits hv, hh]

theorem assemble_render (n : Nat) : assemble (.render n) =
    if n ≤ 65535 then some [BitVec.ofNat 32 (0x06000000 + n)] else none := by
  refine assemble_eq_ite (by simp [Asm.wellFormed]; omega) fun h => ?_
  rw [Asm.words, encodeRender, toNat_ofNat_of_fits h]

theorem setParamWord_num {p : ParamId} {val : Nat} (h : fits 18 val) :
    setParamWord p.num val = encodeSetParam p (BitVec.ofNat 18 val) := by
  rw [encodeSetParam, toNat_ofNat_of_fits h, setParamWord]

/-- Several lines answer their words in turn exactly when all are well formed (R92). -/
theorem assembleAll_eq (lines : List Asm) :
    assembleAll lines = if lines.all Asm.wellFormed then some (lines.flatMap Asm.words) else none := by
  induction lines with
  | nil => rfl
  | cons line lines ih =>
    cases hw : line.wellFormed <;> cases hws : lines.all Asm.wellFormed <;>
      simp [assembleAll, assemble, ih, hw, hws]

/-- A pseudo-command whose operands fit exactly when its expansion's do, and whose words are the
expansion's, is assembled as its expansion (R93). -/
theorem assemble_eq_assembleAll {line : Asm} {lines : List Asm}
    (hw : line.wellFormed = lines.all Asm.wellFormed) (hws : line.words = lines.flatMap Asm.words) :
    assemble line = assembleAll lines := by
  rw [assemble, assembleAll_eq, hw, hws]

/-- An oscillator's pseudo-command is one SET_PARAM line, when the oscillator exists (R93; log 18). -/
theorem assemble_osc {line : Asm} {i id val : Nat} (hid : i < 2 → id < 64)
    (hw : line.wellFormed = (oscExists i && fits 18 val)) (hws : line.words = [setParamWord id val]) :
    assemble line = if i < 2 then assembleAll [.setParam id val] else none := by
  by_cases hi : i < 2
  · rw [if_pos hi]
    exact assemble_eq_assembleAll (hw.trans (by simp [Asm.wellFormed, fits, hi, hid hi])) hws
  · rw [if_neg hi, assemble, hw]
    simp [hi]

/-- Settles O6: a command's line fits exactly when each operand is at most its field's greatest value, and
is then the command's own word; a pseudo-command is its expansion line by line. -/
theorem assemblerNeverTruncates : Obligations.AssemblerNeverTruncates := by
  have fits18 : ∀ {val}, val ≤ 262143 → fits 18 val := fun h => decide_eq_true (by omega)
  refine ⟨rfl, rfl, by decide, by decide, assemble_setParam, assemble_noteOn, assemble_noteOff,
    assemble_render, fun p val hval => ?_, fun note vel hnote hvel hard => ⟨?_, ?_⟩, fun n hn => ?_,
    fun a d s r => ⟨?_, ?_⟩, fun i kind => ⟨?_, ?_, ?_⟩, fun cutoff res mode => ?_, fun freq amount => ?_,
    fun enable amount => ?_, fun sr mb nch => ?_, by decide, by decide⟩
  · have hp := p.num_lt
    refine ⟨setParamWord p.num val, ?_, ?_⟩
    · rw [assemble_setParam, if_pos ⟨by omega, hval⟩]
      rfl
    · rw [setParamWord_num (fits18 hval)]
      exact decode_encodeSetParam p _
  · exact ⟨_, if_pos (by simp [Asm.wellFormed]; omega), decode_encodeNoteOn _ _⟩
  · exact ⟨_, if_pos (by simp [Asm.wellFormed]; omega), decode_encodeNoteOff _ _ _⟩
  · exact ⟨_, if_pos (by simp [Asm.wellFormed]; omega), decode_encodeRender _⟩
  · exact assemble_eq_assembleAll (by simp [Asm.wellFormed, fits, Bool.and_assoc]) rfl
  · exact assemble_eq_assembleAll (by simp [Asm.wellFormed, fits, Bool.and_assoc]) rfl
  · exact assemble_osc (fun _ => by omega) rfl rfl
  · exact assemble_osc (fun _ => by omega) (by simp [Asm.wellFormed]) rfl
  · exact assemble_osc (fun _ => by omega) (by simp [Asm.wellFormed]) rfl
  · exact assemble_eq_assembleAll (by simp [Asm.wellFormed, fits, Bool.and_assoc]) rfl
  · exact assemble_eq_assembleAll (by simp [Asm.wellFormed, fits]) rfl
  · exact assemble_eq_assembleAll (by simp [Asm.wellFormed, fits]) rfl
  · exact assemble_eq_assembleAll (by simp [Asm.wellFormed, fits, Bool.and_assoc]) rfl

end Sys2Proof
end

section
/-! The limiter (R255), the noise generator (R137), the gain stage (R224, R225) and the LFO (R181 to R184). -/

namespace Sys2Proof.Machine

/-! ### The limiter -/

theorem limit_of_natAbs_le {x : Int} (h : x.natAbs ≤ 15938355) : limit x = x := if_pos h

theorem limit_of_gt {x : Int} (h : 15938355 < x) :
    limit x = 15938355 + 838861 * tanhq24 (20 * (x.toNat - 15938355)) / 2 ^ 24 := by
  have hx : x.natAbs = x.toNat := by omega
  simp only [limit, K95, K05, hx]
  rw [if_neg (by omega), if_pos (by omega)]
  rfl

theorem limit_neg (x : Int) : limit (-x) = -limit x := by
  simp only [limit, Int.natAbs_neg]
  by_cases h : x.natAbs ≤ K95
  · rw [if_pos h, if_pos h]
  · rw [if_neg h, if_neg h]
    have hx : x ≠ 0 := fun hx => h (by simp [hx])
    rcases Int.lt_or_gt_of_ne hx with hneg | hpos
    · rw [if_pos (by omega), if_neg (by omega), neg_neg]
    · rw [if_neg (by omega), if_pos hpos]

/-- Above the knee the limiter's output lies in [K95, ONE - 1] (R255). -/
theorem limit_bounds_of_gt {x : Int} (h : 15938355 < x) : 15938355 ≤ limit x ∧ limit x ≤ 16777215 := by
  have ht := tanhq24_bounds (20 * (x.toNat - 15938355))
  rw [limit_of_gt h]
  omega

theorem limit_bounds_of_nonneg {x : Int} (h : 0 ≤ x) : 0 ≤ limit x ∧ limit x ≤ 16777215 := by
  by_cases hx : 15938355 < x
  · have := limit_bounds_of_gt hx
    omega
  · rw [limit_of_natAbs_le (by omega)]
    omega

theorem limit_mono_of_nonneg {x y : Int} (h : 0 ≤ x) (hxy : x ≤ y) : limit x ≤ limit y := by
  by_cases hy : 15938355 < y
  · by_cases hx : 15938355 < x
    · have ht := tanhq24_mono (show 20 * (x.toNat - 15938355) ≤ 20 * (y.toNat - 15938355) by omega)
      rw [limit_of_gt hx, limit_of_gt hy]
      omega
    · have := limit_bounds_of_gt hy
      rw [limit_of_natAbs_le (x := x) (by omega)]
      omega
  · rwa [limit_of_natAbs_le (by omega), limit_of_natAbs_le (by omega)]

/-- An odd function that is non-decreasing and non-negative from 0 on is non-decreasing. -/
theorem limit_mono {x y : Int} (hxy : x ≤ y) : limit x ≤ limit y := by
  rcases le_total 0 x with hx | hx
  · exact limit_mono_of_nonneg hx hxy
  · have hx' := limit_bounds_of_nonneg (Int.neg_nonneg.2 hx)
    rcases le_total 0 y with hy | hy
    · have hy' := limit_bounds_of_nonneg hy
      rw [limit_neg] at hx'
      omega
    · have := limit_mono_of_nonneg (Int.neg_nonneg.2 hy) (Int.neg_le_neg hxy)
      rw [limit_neg, limit_neg] at this
      omega

/-- The limiter's output stays strictly between -ONE and ONE (R255, R262). -/
theorem limit_bounds (x : Int) : -16777215 ≤ limit x ∧ limit x ≤ 16777215 := by
  rcases le_total 0 x with hx | hx
  · have := limit_bounds_of_nonneg hx
    omega
  · have := limit_bounds_of_nonneg (Int.neg_nonneg.2 hx)
    rw [limit_neg] at this
    omega

/-! ### The noise generator -/

/-- A word that its own left shift equals has no lowest set bit. -/
theorem xor_shiftLeft_ne_zero {r : Word} {k : Nat} (hk : 0 < k) (h : r ≠ 0) : r ^^^ (r <<< k) ≠ 0 := by
  intro hx
  have hr : r = r <<< k := BitVec.xor_eq_zero_iff.1 hx
  have hbits : ∀ i, r.getLsbD i = false := by
    intro i
    induction i using Nat.strong_induction_on with
    | _ i ih =>
      rw [hr, BitVec.getLsbD_shiftLeft]
      by_cases hi : i < k
      · simp [hi]
      · simp [ih (i - k) (by omega)]
  exact h (BitVec.eq_of_getLsbD_eq fun i _ => by simp [hbits i])

/-- A word that its own right shift equals has no highest set bit. -/
theorem xor_ushiftRight_ne_zero {r : Word} {k : Nat} (hk : 0 < k) (h : r ≠ 0) : r ^^^ (r >>> k) ≠ 0 := by
  intro hx
  have hr : r.toNat = r.toNat / 2 ^ k := by
    rw [← Nat.shiftRight_eq_div_pow, ← BitVec.toNat_ushiftRight]
    exact congrArg BitVec.toNat (BitVec.xor_eq_zero_iff.1 hx)
  have hpos : 0 < r.toNat := Nat.pos_of_ne_zero fun h0 => h (BitVec.eq_of_toNat_eq h0)
  have := Nat.div_lt_self hpos (Nat.one_lt_two_pow hk.ne')
  omega

/-- Each of the three shifts keeps a state away from 0 (R137). -/
theorem xs_ne_zero {r : Word} (h : r ≠ 0) : xs r ≠ 0 :=
  xor_shiftLeft_ne_zero (by decide)
    (xor_ushiftRight_ne_zero (by decide) (xor_shiftLeft_ne_zero (by decide) h))

theorem iter_xs_ne_zero (n : Nat) {r : Word} (h : r ≠ 0) : iter xs n r ≠ 0 := by
  induction n generalizing r with
  | zero => exact h
  | succ n ih => exact ih (xs_ne_zero h)

/-- Every seed of R301's table is its formula, and none is 0 (R137). -/
theorem seed_ne_zero : ∀ v < Config.numVoices, ∀ i < Config.numOsc, seed v i ≠ 0 := by decide

theorem wave_noise (p r : Word) : wave .noise p r = (r.toNat / 128 : Nat) - 16777216 := by
  rw [← shr_seven_toNat]
  rfl

theorem wave_noise_bounds (p r : Word) : -16777216 ≤ wave .noise p r ∧ wave .noise p r ≤ 16777215 := by
  rw [wave_noise]
  exact ramp_bounds r

/-! ### The bank and the gain stage -/

/-- Every waveform lies in [-ONE, ONE] (R133 to R137). -/
theorem wave_bounds (kind : Waveform) (p r : Word) :
    -16777216 ≤ wave kind p r ∧ wave kind p r ≤ 16777216 := by
  cases kind
  case sine => exact wave_sine_bounds p r
  case square => rw [wave_square]; split <;> decide
  case saw => exact ⟨(wave_saw_bounds p r).1, (wave_saw_bounds p r).2.trans (by decide)⟩
  case triangle => exact wave_triangle_bounds p r
  case noise => exact ⟨(wave_noise_bounds p r).1, (wave_noise_bounds p r).2.trans (by decide)⟩

theorem oscSample_bounds (enable waveform : BitVec 18) (p r : Word) :
    -16777216 ≤ oscSample enable waveform p r ∧ oscSample enable waveform p r ≤ 16777216 := by
  unfold oscSample
  split
  · exact wave_bounds _ p r
  · decide

/-- Two oscillators make a bank sample in ±2 ONE (R140). -/
theorem bankSample_bounds (a : Snapshot) (x : Voice) :
    -33554432 ≤ bankSample a x ∧ bankSample a x ≤ 33554432 := by
  have h0 := oscSample_bounds a.osc0Enable a.osc0Waveform x.phase x.rng0
  have h1 := oscSample_bounds a.osc1Enable a.osc1Waveform x.phase x.rng1
  unfold bankSample
  omega

theorem gainOf_toNat (vel : BitVec 7) :
    (gainOf vel).toNat = vel.toNat * 5033165 / 127 ∧ (gainOf vel).toNat ≤ 5033165 := by
  have hv := vel.isLt
  rw [gainOf, BitVec.toNat_ofNat, Nat.mod_eq_of_lt (by omega)]
  omega

/-- A note's gain, at most 0.3, takes a bank sample to ±10066330 (R225). -/
theorem applyGain_bounds {gain : BitVec 25} {y : Int} (hg : gain.toNat ≤ 5033165)
    (hy : -33554432 ≤ y ∧ y ≤ 33554432) :
    -10066330 ≤ applyGain gain y ∧ applyGain gain y ≤ 10066330 := by
  obtain ⟨hlo, hhi⟩ := hy
  have hg' : (gain.toNat : Int) ≤ 5033165 := by exact_mod_cast hg
  have hg0 : (0 : Int) ≤ gain.toNat := Int.natCast_nonneg _
  have h1 : -33554432 * 5033165 ≤ y * gain.toNat := by nlinarith
  have h2 : y * gain.toNat ≤ 33554432 * 5033165 := by nlinarith
  unfold applyGain shr fdiv
  omega

theorem gainedSamples_bounds {a : Snapshot} {n : Nat} {x : Voice} (hg : x.gain.toNat ≤ 5033165) :
    ∀ y ∈ gainedSamples a n x, -10066330 ≤ y ∧ y ≤ 10066330 := by
  intro y hy
  rw [gainedSamples, bankSamples_eq, List.map_map] at hy
  obtain ⟨j, -, rfl⟩ := List.mem_map.1 hy
  exact applyGain_bounds hg (bankSample_bounds a _)

theorem gainedSamples_getElem? (a : Snapshot) {n j : Nat} (x : Voice) (hj : j < n) :
    (gainedSamples a n x)[j]? = some (gainedAt a j x) := by
  rw [gainedSamples_eq]
  simp [hj]

theorem gainedSamples_of_gain_zero {a : Snapshot} {n : Nat} {x : Voice} (hg : x.gain = 0) :
    ∀ y ∈ gainedSamples a n x, y = 0 := by
  intro y hy
  obtain ⟨z, -, rfl⟩ := List.mem_map.1 hy
  simp [applyGain, hg, shr, fdiv]

/-! A silent input leaves sections at 0 silent, through the chunks and the amplitude envelope (R221). -/

@[simp] theorem sectionV1_zero (k : Coeffs) : sectionV1 k 0 ⟨0#32, 0#32⟩ = 0 := by simp [sectionV1, shr, fdiv]

@[simp] theorem sectionV2_zero (k : Coeffs) : sectionV2 k 0 ⟨0#32, 0#32⟩ = 0 := by simp [sectionV2, shr, fdiv]

@[simp] theorem sectionNext_zero (k : Coeffs) : sectionNext k 0 ⟨0#32, 0#32⟩ = ⟨0#32, 0#32⟩ := by
  simp [sectionNext, sectionV1_zero, sectionV2_zero, signedReg, sat32]

@[simp] theorem sectionOut_zero (k : Coeffs) (fk : Nat) (t : FilterType) :
    sectionOut k fk t 0 ⟨0#32, 0#32⟩ = 0 := by
  cases t <;> simp [sectionOut, sat32, shr, fdiv]

@[simp] theorem filterOut_zero (c : BlockCtx) (k : Coeffs) :
    filterOut c k 0 ⟨⟨0#32, 0#32⟩, ⟨0#32, 0#32⟩⟩ = 0 := by
  simp [filterOut]

@[simp] theorem filterNext_zero (c : BlockCtx) (k : Coeffs) :
    filterNext c k 0 ⟨⟨0#32, 0#32⟩, ⟨0#32, 0#32⟩⟩ = ⟨⟨0#32, 0#32⟩, ⟨0#32, 0#32⟩⟩ := by
  simp [filterNext]

theorem filterRun_silent (c : BlockCtx) (k : Coeffs) {xs : List Int} (h : ∀ x ∈ xs, x = 0) :
    (∀ y ∈ (filterRun c k xs ⟨⟨0#32, 0#32⟩, ⟨0#32, 0#32⟩⟩).1, y = 0) ∧
      (filterRun c k xs ⟨⟨0#32, 0#32⟩, ⟨0#32, 0#32⟩⟩).2 = ⟨⟨0#32, 0#32⟩, ⟨0#32, 0#32⟩⟩ := by
  induction xs with
  | nil => exact ⟨by simp [filterRun], rfl⟩
  | cons x xs ih =>
    obtain ⟨hx, hxs⟩ := List.forall_mem_cons.1 h
    obtain ⟨ho, hs⟩ := ih hxs
    subst hx
    simp only [filterRun, filterNext_zero, filterOut_zero]
    exact ⟨List.forall_mem_cons.2 ⟨rfl, ho⟩, hs⟩

theorem filterChunks_silent (c : BlockCtx) (k : Nat) {xs : List Int} (buf : List Int) {g : FilterStage}
    (h : ∀ x ∈ xs, x = 0) (hg : g.sections = ⟨⟨0#32, 0#32⟩, ⟨0#32, 0#32⟩⟩) :
    ∀ y ∈ (filterChunks c k xs buf g).1, y = 0 := by
  induction k generalizing xs buf g with
  | zero => simp [filterChunks]
  | succ k ih =>
    have hrun := filterRun_silent c
      (coeffs c.fs c.derived.fk (cutoff c g.fenv.tick.level.toNat (lfoAvg (buf.take Config.chunk))))
      (xs := xs.take Config.chunk) fun x hx => h x (List.mem_of_mem_take hx)
    rw [← hg] at hrun
    intro y hy
    rcases List.mem_append.1 hy with hy | hy
    · exact hrun.1 y hy
    · exact ih _ (fun x hx => h x (List.mem_of_mem_drop hx)) (hrun.2.trans hg) y hy

theorem applyLevels_silent {xs : List Int} (ls : List Int) (h : ∀ x ∈ xs, x = 0) :
    ∀ y ∈ applyLevels xs ls, y = 0 := by
  induction xs generalizing ls with
  | nil => simp [applyLevels]
  | cons x xs ih =>
    obtain ⟨hx, hxs⟩ := List.forall_mem_cons.1 h
    cases ls with
    | nil => simp [applyLevels]
    | cons l ls =>
      simp only [applyLevels, hx]
      exact List.forall_mem_cons.2 ⟨by simp [shr, fdiv], ih ls hxs⟩

/-- A voice with gain 0 and sections at 0 is silent (R221). -/
theorem renderOut_silent (c : BlockCtx) (buf : List Int) (n : Nat) {x : Voice} (hg : x.gain = 0)
    (h0 : x.f0 = ⟨0, 0⟩) (h1 : x.f1 = ⟨0, 0⟩) : ∀ y ∈ renderOut c buf n x, y = 0 :=
  applyLevels_silent _ (filterChunks_silent c _ buf (gainedSamples_of_gain_zero hg) (by simp [h0, h1]))

/-! ### The LFO -/

theorem lfo_eq (p : Word) : lfo p = sinq30 p / 64 := rfl

theorem lfo_bounds (p : Word) : -16777216 ≤ lfo p ∧ lfo p ≤ 16777216 := by
  have := sinq30_bounds p
  rw [lfo_eq]
  omega

/-- A list's average, rounded down, lies between bounds of its entries. -/
theorem lfoAvg_bounds {b : List Int} {lo hi : Int} (hb : b ≠ []) (h : ∀ y ∈ b, lo ≤ y ∧ y ≤ hi) :
    lo ≤ lfoAvg b ∧ lfoAvg b ≤ hi := by
  have hlen : (0 : Int) < b.length := by exact_mod_cast List.length_pos_iff.2 hb
  have hlo := List.card_nsmul_le_sum b lo fun y hy => (h y hy).1
  have hhi := List.sum_le_card_nsmul b hi fun y hy => (h y hy).2
  rw [nsmul_eq_mul] at hlo hhi
  unfold lfoAvg fdiv
  exact ⟨(Int.le_ediv_iff_mul_le hlen).2 (by linarith), Int.ediv_le_of_le_mul hlen (by linarith)⟩

theorem lfoFill_bounds {n : Nat} {p inc : Word} : ∀ y ∈ lfoFill n p inc, -16777216 ≤ y ∧ y ≤ 16777216 := by
  intro y hy
  rw [lfoFill_eq] at hy
  obtain ⟨j, -, rfl⟩ := List.mem_map.1 hy
  exact lfo_bounds _

end Sys2Proof.Machine

namespace Sys2Proof

open Machine

/-- Settles O24: identity, formula and oddness are the limiter's two branches, monotony and the bound follow
from tanh's, and the listed values are evaluated. -/
theorem limiterShape : Obligations.LimiterShape :=
  ⟨fun _ => limit_of_natAbs_le, fun _ => limit_of_gt, limit_neg, fun _ _ => limit_mono, limit_bounds,
    by decide +kernel⟩

/-- Settles O26: the steps are xs by definition, no shift of it makes 0 of another state, and the seeds are a
finite table. -/
theorem noiseNeverSticksAtZero : Obligations.NoiseNeverSticksAtZero := by
  refine ⟨fun r a b ha hb => ?_, fun r => xs_ne_zero, fun v hv i hi => ⟨rfl, seed_ne_zero v hv i hi⟩,
    fun p r => ⟨wave_noise p r, wave_noise_bounds p r⟩⟩
  rw [hb, ha]
  rfl

/-- Settles O27: the bank and the gain stage by definition, their bounds from the waveforms' and the gain's,
and a silent input passes silently through sections at 0. -/
theorem gainLeavesHeadroom : Obligations.GainLeavesHeadroom :=
  ⟨by decide, fun _ _ => rfl,
    fun a n x => ⟨gainedSamples_length a n x, fun _ => gainedSamples_getElem? a x⟩, bankSample_bounds,
    gainOf_toNat, fun _ _ _ => gainedSamples_bounds, fun c buf n _ => renderOut_silent c buf n⟩

/-- Settles O33: the fill is the LFO frame by frame, and an average stays within the bounds of its values. -/
theorem lfoFillAndAverage : Obligations.LfoFillAndAverage := by
  refine ⟨by decide, fun p => ⟨lfo_eq p, lfo_bounds p⟩, fun _ => rfl, fun n p inc =>
    ⟨lfoFill_length n p inc, fun j hj => ?_, lfoPhaseAfter_eq n p inc, fun hn => ?_⟩⟩
  · rw [lfoFill_eq]
    simp [hj]
  · refine lfoAvg_bounds (fun hnil => ?_) lfoFill_bounds
    have := lfoFill_length n p inc
    rw [hnil, List.length_nil] at this
    omega

end Sys2Proof
end

section
/-! Invariants of the engine (R26 to R37): each through what a block does, since no other command but PREPARE
reaches the engine. -/

namespace Sys2Proof.Machine

/-- A property of the engine alone: it does not read the host's side, the command processor, STATUS, CTRL,
the counters, stg[] or EVQ. -/
def EngineProperty (P : State → Prop) : Prop :=
  ∀ (s : State) (st ct bc li : Word) (q : List Word) (ex : Option Word) (sg : Staging) (ev : List Event)
    (sc : List Turn) (rs : Option Response), P s → P { s with
      status := st, ctrl := ct, blockCount := bc, lastIllegal := li, cmdq := q, executing := ex,
      stg := sg, evq := ev, schedule := sc, response := rs }

section EngineProperty

variable {P : State → Prop} (hP : EngineProperty P)
include hP

theorem EngineProperty.host {s : State} (st ct li : Word) (q : List Word) (ex : Option Word)
    (sc : List Turn) (rs : Option Response) (hs : P s) : P { s with
      status := st, ctrl := ct, lastIllegal := li, cmdq := q, executing := ex, schedule := sc,
      response := rs } :=
  hP s st ct s.blockCount li q ex s.stg s.evq sc rs hs

theorem EngineProperty.setParam {p : ParamId} {val : BitVec 18} {s t : State} (hs : P s)
    (h : setParam p val s = .next t) : P t := by
  rw [setParam_eq_next] at h
  cases h
  exact hP s _ s.ctrl s.blockCount s.lastIllegal s.cmdq s.executing _ s.evq s.schedule s.response hs

theorem EngineProperty.enqueue {e : Event} {s : State} (hs : P s) : P (enqueue e s) := by
  rcases enqueue_cases e s with ⟨-, e⟩ | ⟨-, e⟩ <;> rw [e]
  · exact hP s s.status s.ctrl s.blockCount s.lastIllegal s.cmdq s.executing s.stg _ s.schedule
      s.response hs
  · exact hP s _ s.ctrl s.blockCount s.lastIllegal s.cmdq s.executing s.stg s.evq s.schedule s.response hs

/-- Every step keeps a property of the engine that holds at reset and after PREPARE, if RENDER keeps it. -/
theorem EngineProperty.kept_by_step (reset : P State.reset)
    (prepare : ∀ s, P (commit (engineReset (latchConfig s))))
    (block : ∀ n s t, P s → execRender n s = .next t → P t)
    {s t : State} (hs : P s) (h : step s = .next t) : P t :=
  step_keeps (fun _ st ct li q ex sc rs => hP.host st ct li q ex sc rs) reset (fun s _ => prepare s)
    (fun _ _ _ _ => hP.setParam) (fun _ _ => hP.enqueue) block hs h

end EngineProperty

/-- A property of one voice that the note operations, a render and the free at the end of a block keep
(R220, R222, R223, R257). -/
structure VoiceInvariant (P : Voice → Prop) : Prop where
  released : ∀ x, P x → x.state = .active → P x.released
  hardStopped : ∀ q x, P x → P (x.hardStopped q)
  started : ∀ m vel fs q x, P x → P (x.started m vel fs q)
  rendered : ∀ c buf n x, P x → x.state ≠ .idle → (iter Env.tick n x.aenv).stage ≠ .idle →
    P (renderNext c buf n x)
  freed : ∀ c buf n q x, P x → x.state ≠ .idle → (iter Env.tick n x.aenv).stage = .idle →
    P { renderNext c buf n x with state := .idle, freeSeq := q }

theorem VoiceInvariant.keptByVoiceOps {P : Voice → Prop} (hP : VoiceInvariant P) :
    KeptByVoiceOps fun s => ∀ v, P (s.voice v) where
  tail v s hs ha w := by
    rw [State.voice_setVoice]
    split
    · exact hP.released _ (hs v) ha
    · exact hs w
  hard v s hs _ _ w := by
    rw [hardStoppedState_voice]
    split
    · exact hP.hardStopped _ _ (hs v)
    · exact hs w
  start v m vel s hs _ _ _ w := by
    rw [startedState_voice]
    split
    · exact hP.started _ _ _ _ _ (hs v)
    · exact hs w

/-- A RENDER keeps for every voice what the voice operations keep and its commit leaves. -/
theorem VoiceInvariant.execRender {P : Voice → Prop} (hP : VoiceInvariant P) {nfr : BitVec 16} {s t : State}
    (hs : ∀ v, P ((s.voice v).updated (ampParams s.stg.snap s.fs) (fltParams s.stg.snap s.fs)))
    (h : execRender nfr s = .next t) (v : Fin Config.numVoices) : P (t.voice v) := by
  obtain ⟨u, hu, hv⟩ := execRender_voice h
  have hPu : ∀ v, P (u.voice v) :=
    hP.keptByVoiceOps.dispatchAll (fun v => by rw [drainStart_voice]; exact hs v) hu
  have hvv := hv v
  split at hvv
  · rw [hvv]
    exact hPu v
  · next hi =>
    have hst : (u.voice v).state ≠ .idle := fun e => hi (State.isIdle_iff.2 e)
    rcases hvv with ⟨e, hne⟩ | ⟨q, e, he, -⟩ <;> rw [e]
    · exact hP.rendered _ _ _ _ (hPu v) hst hne
    · exact hP.freed _ _ _ _ _ (hPu v) hst he

/-! ### OUTBUF's canonical form -/

theorem execRender_outbuf_wf {nfr : BitVec 16} {s t : State} (hs : s.outbuf.wf)
    (h : execRender nfr s = .next t) : t.outbuf.wf := by
  obtain ⟨u, -, ws, -, -, ho⟩ := execRender_outbuf h
  rw [ho]
  exact Memory.wf_writeChannels _ _ hs

/-! ### The noise generators -/

theorem voiceInvariant_noiseNonZero : VoiceInvariant fun x => x.rng0 ≠ 0 ∧ x.rng1 ≠ 0 where
  released _ hx _ := hx
  hardStopped _ _ hx := hx
  started _ _ _ _ _ hx := hx
  rendered c buf n x hx _ _ := by
    rw [renderNext_eq]
    exact ⟨iter_xs_ne_zero n hx.1, iter_xs_ne_zero n hx.2⟩
  freed c buf n q x hx _ _ := by
    rw [renderNext_eq]
    exact ⟨iter_xs_ne_zero n hx.1, iter_xs_ne_zero n hx.2⟩

theorem seeds_ne_zero (v : Fin Config.numVoices) : seed v.val 0 ≠ 0 ∧ seed v.val 1 ≠ 0 :=
  ⟨seed_ne_zero v.val v.isLt 0 (by decide), seed_ne_zero v.val v.isLt 1 (by decide)⟩

/-! ### Parameters -/

/-- A legal staging makes legal act[] registers at a commit (R27, R250). -/
theorem snap_legal {t : Staging} (h : ∀ p ∈ ParamId.all, legalValue p (t.get p)) :
    ∀ p ∈ ParamId.all, p.num < 0x20 → legalValue p (t.snap.get p) := fun p hp hn => by
  rw [← Staging.get_eq_snap hn]
  exact h p hp

theorem prepare_paramsLegal {s : State} (hs : s.ParamsLegal) :
    (commit (engineReset (latchConfig s))).ParamsLegal := by
  obtain ⟨hstg, -⟩ := hs
  exact ⟨hstg, snap_legal hstg, hstg .cfgSampleRate (by decide), hstg .cfgMaxBlock (by decide),
    hstg .cfgNumChannels (by decide)⟩

theorem setParam_paramsLegal {p : ParamId} {val : BitVec 18} {s t : State} (hs : s.ParamsLegal)
    (h : setParam p val s = .next t) : t.ParamsLegal := by
  obtain ⟨hstg, hrest⟩ := hs
  rw [setParam_eq_next] at h
  cases h
  refine ⟨fun q hq => ?_, hrest⟩
  dsimp only
  rw [Staging.get_set]
  split
  · next hpq => exact hpq ▸ storedValue_legal p val
  · exact hstg q hq

theorem enqueue_paramsLegal {e : Event} {s : State} (hs : s.ParamsLegal) : (enqueue e s).ParamsLegal := by
  rcases enqueue_cases e s with ⟨-, h⟩ | ⟨-, h⟩ <;> rw [h] <;> exact hs

theorem execRender_paramsLegal {nfr : BitVec 16} {s t : State} (hs : s.ParamsLegal)
    (h : execRender nfr s = .next t) : t.ParamsLegal := by
  obtain ⟨hstg, -, hcfg⟩ := hs
  obtain ⟨ws, -, -, ht⟩ := execRender_frame h
  rw [ht]
  exact ⟨hstg, snap_legal hstg, hcfg⟩

theorem reset_paramsLegal : State.reset.ParamsLegal := by decide

/-- Every step keeps a property of the engine together with legal parameters, when it holds at reset and,
from legal parameters, PREPARE sets it up and RENDER keeps it. -/
theorem EngineProperty.kept_with_paramsLegal {P : State → Prop} (hP : EngineProperty P)
    (reset : P State.reset) (prepare : ∀ s, s.ParamsLegal → P (commit (engineReset (latchConfig s))))
    (block : ∀ n s t, s.ParamsLegal → P s → execRender n s = .next t → P t)
    {s t : State} (hs : s.ParamsLegal ∧ P s) (h : step s = .next t) : t.ParamsLegal ∧ P t :=
  step_keeps (P := fun s => s.ParamsLegal ∧ P s)
    (fun _ st ct li q ex sc rs hs => ⟨hs.1, hP.host st ct li q ex sc rs hs.2⟩) ⟨reset_paramsLegal, reset⟩
    (fun s hs => ⟨prepare_paramsLegal hs.1, prepare s hs.1⟩)
    (fun _ _ _ _ hs h => ⟨setParam_paramsLegal hs.1 h, hP.setParam hs.2 h⟩)
    (fun _ _ hs => ⟨enqueue_paramsLegal hs.1, hP.enqueue hs.2⟩)
    (fun n s t hs h => ⟨execRender_paramsLegal hs.1 h, block n s t hs.1 hs.2 h⟩) hs h

/-! ### The derived values -/

/-- The four parameters a unit holds (R32, R151). -/
def Env.params (e : Env) : EnvParams := ⟨e.na, e.nd, e.sus, e.nr⟩

theorem Env.gateOff_params_eq (e : Env) : e.gateOff.params = e.params := by
  obtain ⟨hna, hnd, hnr, hsus⟩ := e.gateOff_params
  rw [Env.params, hna, hnd, hnr, hsus]
  rfl

theorem Env.iter_tick_params_eq (n : Nat) (e : Env) : (iter Env.tick n e).params = e.params := by
  obtain ⟨hna, hnd, hnr, hsus⟩ := Env.iter_tick_params n e
  rw [Env.params, hna, hnd, hnr, hsus]
  rfl

/-- Only a commit writes the parameters of a voice's units (R29, R250). -/
theorem voiceInvariant_params (qa qf : EnvParams) :
    VoiceInvariant fun x => x.aenv.params = qa ∧ x.fenv.params = qf where
  released x hx _ := ⟨x.aenv.gateOff_params_eq.trans hx.1, x.fenv.gateOff_params_eq.trans hx.2⟩
  hardStopped _ x hx := ⟨x.aenv.gateOff_params_eq.trans hx.1, x.fenv.gateOff_params_eq.trans hx.2⟩
  started _ _ _ _ _ hx := hx
  rendered c buf n x hx _ _ := by
    rw [renderNext_eq]
    exact ⟨(Env.iter_tick_params_eq n _).trans hx.1, (Env.iter_tick_params_eq n _).trans hx.2⟩
  freed c buf n q x hx _ _ := by
    rw [renderNext_eq]
    exact ⟨(Env.iter_tick_params_eq n _).trans hx.1, (Env.iter_tick_params_eq n _).trans hx.2⟩

theorem prepare_derivedCurrent (s : State) : (commit (engineReset (latchConfig s))).DerivedCurrent :=
  ⟨rfl, fun v => by rw [prepare_voice]; exact ⟨rfl, rfl⟩⟩

theorem execRender_derivedCurrent {nfr : BitVec 16} {s t : State} (h : execRender nfr s = .next t) :
    t.DerivedCurrent := by
  have hv := (voiceInvariant_params (ampParams s.stg.snap s.fs) (fltParams s.stg.snap s.fs)).execRender
    (fun _ => ⟨rfl, rfl⟩) h
  obtain ⟨ws, -, -, ht⟩ := execRender_frame h
  have hact : t.act = s.stg.snap := by rw [ht]
  have hfs : t.fs = s.fs := by rw [ht]
  have hd : t.derived = derive s.stg.snap s.fs := by rw [ht]
  unfold State.DerivedCurrent
  rw [hact, hfs]
  exact ⟨hd, hv⟩

/-! ### The envelope units -/

theorem voiceInvariant_inRange : VoiceInvariant fun x => x.aenv.InRange ∧ x.fenv.InRange where
  released _ hx _ := ⟨Env.gateOff_inRange hx.1, Env.gateOff_inRange hx.2⟩
  hardStopped _ _ hx :=
    ⟨Env.hardReset_inRange (Env.gateOff_inRange hx.1).1, Env.hardReset_inRange (Env.gateOff_inRange hx.2).1⟩
  started _ _ _ _ _ hx :=
    ⟨Env.gateOn_inRange (Env.hardReset_inRange hx.1.1), Env.gateOn_inRange (Env.hardReset_inRange hx.2.1)⟩
  rendered c buf n x hx _ _ := by
    rw [renderNext_eq]
    exact ⟨Env.iter_tick_inRange n hx.1, Env.iter_tick_inRange n hx.2⟩
  freed c buf n q x hx _ _ := by
    rw [renderNext_eq]
    exact ⟨Env.iter_tick_inRange n hx.1, Env.iter_tick_inRange n hx.2⟩

/-- The parameters of both kinds of unit, from a legal snapshot and rate (R151). -/
theorem params_inRange {t : Staging} {fs : BitVec 18} (ht : ∀ p ∈ ParamId.all, legalValue p (t.get p))
    (hfs : legalValue .cfgSampleRate fs) :
    (ampParams t.snap fs).InRange ∧ (fltParams t.snap fs).InRange :=
  ⟨envParams_inRange (ht .ampAttack (by decide)) (ht .ampDecay (by decide)) (ht .ampSustain (by decide)).2
      (ht .ampRelease (by decide)) hfs,
    envParams_inRange (ht .fltAttack (by decide)) (ht .fltDecay (by decide)) (ht .fltSustain (by decide)).2
      (ht .fltRelease (by decide)) hfs⟩

theorem preparedEnv_inRange {q : EnvParams} (h : q.InRange) : (preparedEnv q).InRange :=
  Env.hardReset_inRange (e := preparedEnv q) h

theorem prepare_envelopesInRange {s : State} (hs : s.ParamsLegal) :
    (commit (engineReset (latchConfig s))).EnvelopesInRange := fun v => by
  obtain ⟨hstg, -⟩ := hs
  obtain ⟨ha, hf⟩ := params_inRange hstg (hstg .cfgSampleRate (by decide))
  rw [prepare_voice]
  exact ⟨preparedEnv_inRange ha, preparedEnv_inRange hf⟩

theorem execRender_envelopesInRange {nfr : BitVec 16} {s t : State} (hp : s.ParamsLegal)
    (hs : s.EnvelopesInRange) (h : execRender nfr s = .next t) : t.EnvelopesInRange := by
  obtain ⟨hstg, -, hfs, -⟩ := hp
  obtain ⟨ha, hf⟩ := params_inRange hstg hfs
  exact voiceInvariant_inRange.execRender
    (fun v => ⟨Env.update_inRange (hs v).1 ha, Env.update_inRange (hs v).2 hf⟩) h

/-! ### Lifecycle and amplitude envelope -/

/-- The stage after a completed segment (R156). -/
def Stage.next : Stage → Stage
  | .attack => .decay
  | .decay => .sustain
  | .sustain => .sustain
  | .release => .idle
  | .idle => .idle

theorem Env.advance_stage (e : Env) : e.advance.stage = e.stage := by
  unfold Env.advance
  split <;> rfl

theorem Env.complete_stage (e : Env) : e.complete.stage = if e.k = e.n then e.stage.next else e.stage := by
  unfold Env.complete
  split
  · cases h : e.stage <;> simp [Stage.next, h]
  · rfl

/-- A tick keeps the stage or moves to the next one (R156). -/
theorem Env.tick_stage_cases (e : Env) : e.tick.stage = e.stage ∨ e.tick.stage = e.stage.next := by
  by_cases h : e.stage = .idle
  · rw [Env.tick_idle h]
    exact .inl rfl
  · rw [Env.tick_running h, Env.complete_stage, Env.advance_stage]
    exact (ite_eq_or_eq _ _ _).symm

theorem Env.iter_tick_idle (n : Nat) {e : Env} (h : e.stage = .idle) : iter Env.tick n e = e := by
  induction n with
  | zero => rfl
  | succ n ih => rw [iter, Env.tick_idle h, ih]

/-- Ticks neither enter RELEASE nor leave it, but to IDLE (R156). -/
theorem Env.iter_tick_release_iff (n : Nat) {e : Env} (h : (iter Env.tick n e).stage ≠ .idle) :
    (iter Env.tick n e).stage = .release ↔ e.stage = .release := by
  induction n generalizing e with
  | zero => rfl
  | succ n ih =>
    have hne : e.tick.stage ≠ .idle := fun hi => h (by rw [iter, Env.iter_tick_idle n hi, hi])
    refine (ih h).trans ?_
    rcases e.tick_stage_cases with ht | ht
    · rw [ht]
    · rw [ht] at hne ⊢
      cases he : e.stage <;> simp_all [Stage.next]

theorem Voice.lifeMatches_of_idle {x : Voice} (hx : x.state = .idle) (he : x.aenv.stage = .idle) :
    x.LifeMatches := by simp [Voice.LifeMatches, hx, he]

theorem Voice.lifeMatches_of_active {x : Voice} (hx : x.state = .active) (he : x.aenv.stage = .attack) :
    x.LifeMatches := by simp [Voice.LifeMatches, hx, he]

theorem Voice.lifeMatches_of_releasing {x : Voice} (hx : x.state = .releasing)
    (he : x.aenv.stage = .release) : x.LifeMatches := by simp [Voice.LifeMatches, hx, he]

theorem voiceInvariant_lifeMatches : VoiceInvariant Voice.LifeMatches where
  released x hx ha := by
    have hne : x.aenv.stage ≠ .idle := fun hi => by simp [hx.1.2 hi] at ha
    exact Voice.lifeMatches_of_releasing rfl ((Env.gateOff_stage _).trans (if_neg hne))
  hardStopped _ _ _ := Voice.lifeMatches_of_idle rfl rfl
  started _ _ _ _ _ _ := Voice.lifeMatches_of_active rfl rfl
  rendered c buf n x hx hst hne := by
    rw [renderNext_eq]
    exact ⟨iff_of_false hst hne, hx.2.trans (Env.iter_tick_release_iff n hne).symm⟩
  freed c buf n q x _ _ he := by
    rw [renderNext_eq]
    exact Voice.lifeMatches_of_idle rfl he

/-- A commit keeps the stage of a voice's units (R162). -/
theorem Voice.lifeMatches_updated {qa qf : EnvParams} {x : Voice} (hx : x.LifeMatches) :
    (x.updated qa qf).LifeMatches := by
  simp only [Voice.LifeMatches, Voice.updated, (x.aenv.update_keeps qa).1]
  exact hx

theorem prepare_lifeMatches (s : State) : (commit (engineReset (latchConfig s))).LifeMatches := fun v => by
  rw [prepare_voice]
  exact Voice.lifeMatches_of_idle rfl rfl

theorem execRender_lifeMatches {nfr : BitVec 16} {s t : State} (hs : s.LifeMatches)
    (h : execRender nfr s = .next t) : t.LifeMatches :=
  voiceInvariant_lifeMatches.execRender (fun v => Voice.lifeMatches_updated (hs v)) h

/-! ### Stamps -/

theorem lt_seq_succ {q x : BitVec 64} (hr : q.toNat < 2 ^ 64 - 1) (hx : x ≤ q) : x < q + 1 := by
  rw [BitVec.lt_def, seq_succ_toNat hr]
  exact Nat.lt_succ_of_le hx

/-- The stamps stay ordered when no trig_seq changes, no voice starts to sound, and every free_seq is at
most the new SEQ. -/
theorem State.StampsOrdered.of_voices {s t : State} (hs : s.StampsOrdered) (hseq : s.seq ≤ t.seq)
    (h : ∀ v, (t.voice v).trigSeq = (s.voice v).trigSeq ∧ (t.voice v).freeSeq ≤ t.seq ∧
      ((t.voice v).state ≠ .idle → (s.voice v).state ≠ .idle)) : t.StampsOrdered := by
  obtain ⟨hle, hinj⟩ := hs
  refine ⟨fun v => ?_, fun v w hv hw e => ?_⟩
  · obtain ⟨htrig, hfree, -⟩ := h v
    exact ⟨htrig ▸ BitVec.le_trans (hle v).1 hseq, hfree⟩
  · obtain ⟨hv1, -, hv2⟩ := h v
    obtain ⟨hw1, -, hw2⟩ := h w
    exact hinj v w (hv2 hv) (hw2 hw) (hv1.symm.trans (e.trans hw1))

/-- Stops keep a voice's trig_seq and sound no voice, and a start takes a trig_seq above every other. -/
theorem keptByVoiceOps_stampsOrdered : KeptByVoiceOps State.StampsOrdered where
  tail v s hs ha := hs.of_voices (BitVec.le_refl _) fun w => by
    rw [State.voice_setVoice]
    split
    · next hvw =>
      subst hvw
      exact ⟨rfl, (hs.1 v).2, fun _ => by simp [ha]⟩
    · exact ⟨rfl, (hs.1 w).2, id⟩
  hard v s hs hr hst := by
    refine hs.of_voices (BitVec.le_of_lt (lt_seq_succ hr (BitVec.le_refl _))) fun w => ?_
    rw [hardStoppedState_voice]
    split
    · next hvw =>
      subst hvw
      exact ⟨rfl, BitVec.le_refl _, fun _ => hst⟩
    · exact ⟨rfl, BitVec.le_of_lt (lt_seq_succ hr (hs.1 w).2), id⟩
  start v m vel s hs hr _ _ := by
    obtain ⟨hle, hinj⟩ := hs
    have hself : (startedState v m vel s).voice v = (s.voice v).started m vel s.fs (s.seq + 1) := by
      rw [startedState_voice, if_pos rfl]
    have hother : ∀ {w}, v ≠ w → (startedState v m vel s).voice w = s.voice w := fun hw => by
      rw [startedState_voice, if_neg hw]
    have hnew : ∀ {w}, (s.voice w).trigSeq ≠ s.seq + 1 := fun {w} e =>
      BitVec.lt_irrefl _ (e ▸ lt_seq_succ hr (hle w).1)
    refine ⟨fun w => ?_, fun w w' hw hw' e => ?_⟩
    · by_cases hvw : v = w
      · subst hvw
        rw [hself]
        exact ⟨BitVec.le_refl _, BitVec.le_of_lt (lt_seq_succ hr (hle v).2)⟩
      · rw [hother hvw]
        exact ⟨BitVec.le_of_lt (lt_seq_succ hr (hle w).1), BitVec.le_of_lt (lt_seq_succ hr (hle w).2)⟩
    · by_cases hvw : v = w <;> by_cases hvw' : v = w'
      · exact hvw.symm.trans hvw'
      · subst hvw
        rw [hself, hother hvw'] at e
        exact absurd e.symm hnew
      · subst hvw'
        rw [hself, hother hvw] at e
        exact absurd e hnew
      · rw [hother hvw] at hw e
        rw [hother hvw'] at hw' e
        exact hinj w w' hw hw' e

/-- The frees at the end of a block only raise SEQ (R257). -/
theorem seq_le_of_execRender {nfr : BitVec 16} {s t u : State} (h : execRender nfr s = .next t)
    (hu : dispatchAll s.evq (drainStart nfr s) = .next u) : u.seq ≤ t.seq := by
  obtain ⟨u', w, hu', hw, rfl⟩ := execRender_eq_next.1 h
  cases hu.symm.trans hu'
  obtain ⟨ws, -, -, ha, -⟩ := renderAudio_spec (renderFrames nfr s.maxblk) u
  have hseq : (renderAudio (renderFrames nfr s.maxblk) u).seq = u.seq := by rw [ha]
  have hfree := (freeFinished_spec hw).2.1
  rw [hseq] at hfree
  change u.seq.toNat ≤ w.seq.toNat
  omega

theorem execRender_stampsOrdered {nfr : BitVec 16} {s t : State} (hs : s.StampsOrdered)
    (h : execRender nfr s = .next t) : t.StampsOrdered := by
  obtain ⟨u, hu, hv⟩ := execRender_voice h
  have hseq0 : (drainStart nfr s).seq = s.seq := by rw [drainStart_eq]
  have h0 : (drainStart nfr s).StampsOrdered :=
    hs.of_voices (hseq0 ▸ BitVec.le_refl _) fun v => by
      rw [drainStart_voice, hseq0]
      exact ⟨rfl, (hs.1 v).2, id⟩
  have h1 := keptByVoiceOps_stampsOrdered.dispatchAll h0 hu
  have hseq := seq_le_of_execRender h hu
  refine h1.of_voices hseq fun v => ?_
  have hvv := hv v
  have hfree := BitVec.le_trans (h1.1 v).2 hseq
  split at hvv
  · rw [hvv]
    exact ⟨rfl, hfree, id⟩
  · next hi =>
    have hst : (u.voice v).state ≠ .idle := fun e => hi (State.isIdle_iff.2 e)
    rcases hvv with ⟨e, -⟩ | ⟨q, e, -, -, hq⟩ <;> rw [e, renderNext_eq]
    · exact ⟨rfl, hfree, id⟩
    · exact ⟨rfl, hq, fun _ => hst⟩

theorem prepare_stampsOrdered (s : State) : (commit (engineReset (latchConfig s))).StampsOrdered :=
  ⟨fun v => by rw [prepare_voice]; exact ⟨BitVec.le_refl _, BitVec.le_refl _⟩,
    fun v w hv => absurd (by rw [prepare_voice]; rfl) hv⟩

/-! ### OUTBUF's words -/

/-- A word of a channel that a block does not write, or past its frames, reads as before. -/
theorem Memory.readWord_writeChannels_outside {n c j : Nat} (ws : List Word) (m : Memory)
    (hfit : ws.length ≤ Config.maxBlockCap) (hj : j < Config.maxBlockCap) (h : n ≤ c ∨ ws.length ≤ j) :
    (Memory.writeChannels n ws m).readWord (outbufOffset c j) = m.readWord (outbufOffset c j) := by
  refine Memory.readWord_congr fun x hlo hhi => Memory.read_writeChannels_outside _ _ _ _ fun d hd => ?_
  unfold outbufOffset Config.maxBlockCap at *
  omega

theorem toInt_ofInt_limit (x : Int) : (BitVec.ofInt 32 (limit x)).toInt = limit x := by
  have := limit_bounds x
  rw [BitVec.toInt_ofInt]
  exact Int.bmod_eq_of_le (by omega) (by omega)

theorem execRender_outputBounded {nfr : BitVec 16} {s t : State} (hp : s.ParamsLegal)
    (hs : s.OutputBounded) (h : execRender nfr s = .next t) : t.OutputBounded := by
  obtain ⟨-, -, -, hmax, -⟩ := hp
  obtain ⟨u, -, ws, hl, hws, ho⟩ := execRender_outbuf h
  have hfit : ws.length ≤ Config.maxBlockCap := hl ▸ renderFrames_le_maxBlockCap hmax nfr
  intro c hc j hj
  rw [State.outWord, ho]
  by_cases hin : c < s.nch.toNat ∧ j < ws.length
  · rw [Memory.readWord_writeChannels ws _ hin.1 hin.2 hfit, hws j hin.2, toInt_ofInt_limit]
    exact limit_bounds _
  · rw [Memory.readWord_writeChannels_outside ws _ hfit hj (by omega)]
    exact hs c hc j hj

/-- An OUTBUF that lists no byte is silent. -/
theorem outputBounded_of_outbuf_nil {s : State} (h : s.outbuf = []) : s.OutputBounded := fun c _ j _ => by
  rw [State.outWord, h, Memory.readWord_nil]
  decide

end Sys2Proof.Machine

namespace Sys2Proof

open Machine

/-- Settles O51: PREPARE empties OUTBUF, and a RENDER's range writes keep the canonical form. -/
theorem stepKeepsCanonicalOutbuf : Obligations.StepKeepsCanonicalOutbuf := fun _ _ =>
  EngineProperty.kept_by_step (P := fun s => s.outbuf.wf) (fun _ _ _ _ _ _ _ _ _ _ _ hs => hs)
    Memory.wf_nil (fun _ => Memory.wf_nil) (fun _ _ _ => execRender_outbuf_wf)

/-- Settles O52: only SET_PARAM makes a new parameter value, and it stores a legal one. -/
theorem stepKeepsParamsLegal : Obligations.StepKeepsParamsLegal := fun _ _ hs h =>
  (EngineProperty.kept_with_paramsLegal (P := fun _ => True) (fun _ _ _ _ _ _ _ _ _ _ _ hs => hs) trivial
    (fun _ _ => trivial) (fun _ _ _ _ _ _ => trivial) ⟨hs, trivial⟩ h).1

/-- Settles O54: a commit writes all the derived values, and no voice operation writes a unit's
parameters. -/
theorem stepKeepsDerivedCurrent : Obligations.StepKeepsDerivedCurrent := fun _ _ =>
  EngineProperty.kept_by_step (P := State.DerivedCurrent) (fun _ _ _ _ _ _ _ _ _ _ _ hs => hs) (by decide)
    prepare_derivedCurrent (fun _ _ _ _ => execRender_derivedCurrent)

/-- Settles O56: PREPARE seeds the generators, and a RENDER only steps them. -/
theorem stepKeepsNoiseNonZero : Obligations.StepKeepsNoiseNonZero := fun _ _ =>
  EngineProperty.kept_by_step (P := State.NoiseNonZero) (fun _ _ _ _ _ _ _ _ _ _ _ hs => hs)
    (fun v => by rw [reset_voice]; exact seeds_ne_zero v)
    (fun s v => by rw [prepare_voice]; exact seeds_ne_zero v)
    (fun _ _ _ hs => voiceInvariant_noiseNonZero.execRender hs)

/-- Settles O57: gate events, hard resets, updates and ticks each keep a unit in its ranges, with legal
parameters at a commit. -/
theorem stepKeepsEnvelopesInRange : Obligations.StepKeepsEnvelopesInRange := fun _ _ =>
  EngineProperty.kept_with_paramsLegal (P := State.EnvelopesInRange)
    (fun _ _ _ _ _ _ _ _ _ _ _ hs => hs) (by decide) (fun _ => prepare_envelopesInRange)
    (fun _ _ _ => execRender_envelopesInRange)

/-- Settles O58: a start, a stop and a free each set the state with the stage, and ticks cross from one
state's stages to another's only into IDLE, where the voice is freed. -/
theorem stepKeepsLifeMatches : Obligations.StepKeepsLifeMatches := fun _ _ =>
  EngineProperty.kept_by_step (P := State.LifeMatches) (fun _ _ _ _ _ _ _ _ _ _ _ hs => hs) (by decide)
    prepare_lifeMatches (fun _ _ _ => execRender_lifeMatches)

/-- Settles O59: a stamp is the new SEQ, so it is above all others when a start takes it. -/
theorem stepKeepsStampsOrdered : Obligations.StepKeepsStampsOrdered := fun _ _ =>
  EngineProperty.kept_by_step (P := State.StampsOrdered) (fun _ _ _ _ _ _ _ _ _ _ _ hs => hs) (by decide)
    prepare_stampsOrdered (fun _ _ _ => execRender_stampsOrdered)

/-- Settles O60: a RENDER writes limited words, and PREPARE clears OUTBUF. -/
theorem stepKeepsOutputBounded : Obligations.StepKeepsOutputBounded := fun _ _ =>
  EngineProperty.kept_with_paramsLegal (P := State.OutputBounded)
    (fun _ _ _ _ _ _ _ _ _ _ _ hs => hs) (outputBounded_of_outbuf_nil rfl)
    (fun _ _ => outputBounded_of_outbuf_nil rfl) (fun _ _ _ => execRender_outputBounded)

end Sys2Proof
end

section
/-! What the commands change (R27, R41, R106, R107): each command kind's frame, by `exec_cases`. -/

namespace Sys2Proof.Machine

/-- A note event changes STATUS and EVQ alone (R106). -/
theorem enqueue_frame (e : Event) (s : State) :
    enqueue e s = { s with status := (enqueue e s).status, evq := (enqueue e s).evq } := by
  rcases enqueue_cases e s with ⟨-, h⟩ | ⟨-, h⟩ <;> rw [h]
  rfl

/-- A command whose rule is to queue its event appends it, or drops it at 128 entries (R106, R283). -/
theorem queuesEvent_of_exec {i : Instr} {e : Event} (h : ∀ s, exec i s = .next (enqueue e s)) :
    QueuesEvent i e := fun s => by
  rw [h]
  refine ⟨fun hlt => ?_, fun hfull => ?_⟩
  · rw [enqueue, if_pos hlt]
  · rw [enqueue, if_neg (by rw [hfull]; decide)]
    rfl

/-- EVQ_LEVEL is 8 bits wide, and EVQ's depth fits it (R36, R61). -/
theorem readReg_evqLevel {s : State} (h : s.evq.length ≤ 128) :
    (s.readReg 0x018).toNat = s.evq.length := by
  change (BitVec.ofNat 32 (s.evq.length % 2 ^ 8)).toNat = _
  rw [BitVec.toNat_ofNat]
  omega

/-- DONE, with ERR_RENDER_CLAMP exactly when NFR > MAXBLK (R107, R258, R284). -/
theorem clampFrames_status_done (nfr : BitVec 16) (s : State) :
    (clampFrames nfr s).status ||| 0x2#32 =
      s.status ||| if s.maxblk.toNat < nfr.toNat then 0x22#32 else 0x02#32 := by
  rw [clampFrames_status]
  split
  · exact BitVec.or_assoc _ _ _
  · rfl

/-- A RENDER never lowers SEQ (R34). -/
theorem execRender_seq_le {nfr : BitVec 16} {s t : State} (h : execRender nfr s = .next t) :
    s.seq ≤ t.seq := by
  obtain ⟨u, w, hu, -, -⟩ := execRender_eq_next.1 h
  have hstart : (drainStart nfr s).seq = s.seq := by rw [drainStart_eq]
  have hle := (dispatchAll_frame hu).2
  rw [hstart] at hle
  exact BitVec.le_trans hle (seq_le_of_execRender h hu)

/-- No command touches CMDQ, the executing slot, CTRL or the host's side (R41). -/
theorem exec_host_frame {i : Instr} {s t : State} (h : exec i s = .next t) :
    t.cmdq = s.cmdq ∧ t.executing = s.executing ∧ t.ctrl = s.ctrl ∧ t.schedule = s.schedule ∧
      t.response = s.response := by
  rcases exec_cases i s with ⟨-, e⟩ | ⟨-, e⟩ | ⟨p, v, -, e⟩ | ⟨x, e⟩ | ⟨n, -, e⟩ <;> rw [e] at h
  · cases h
    exact ⟨rfl, rfl, rfl, rfl, rfl⟩
  · cases h
    exact ⟨rfl, rfl, rfl, rfl, rfl⟩
  · rw [setParam_eq_next] at h
    cases h
    exact ⟨rfl, rfl, rfl, rfl, rfl⟩
  · cases h
    rw [enqueue_frame]
    exact ⟨rfl, rfl, rfl, rfl, rfl⟩
  · obtain ⟨ws, -, -, ht⟩ := execRender_frame h
    rw [ht]
    exact ⟨rfl, rfl, rfl, rfl, rfl⟩

end Sys2Proof.Machine

namespace Sys2Proof

open Machine

/-- Settles O11: each of the three commands is `enqueue` of its event. -/
theorem noteCommandsQueueEvents : Obligations.NoteCommandsQueueEvents :=
  ⟨fun _ _ => queuesEvent_of_exec fun _ => rfl, fun _ _ _ => queuesEvent_of_exec fun _ => rfl,
    fun _ => queuesEvent_of_exec fun _ => rfl, fun _ => readReg_evqLevel⟩

/-- Settles O12: a RENDER with room completes, and its frame is that of `execRender_frame` with STATUS in one
mask. -/
theorem renderCompletes : Obligations.RenderCompletes := by
  intro s nfr hroom
  obtain ⟨t, h, -⟩ := execRender_room (nfr := nfr) (n := 0) (by simpa using hroom)
  obtain ⟨ws, -, -, ht⟩ := execRender_frame h
  have hout : t.outbuf = Memory.writeChannels s.nch.toNat ws s.outbuf := by rw [ht]
  refine ⟨t, h, execRender_seq_le h, ?_⟩
  rw [← clampFrames_status_done, hout]
  exact ht

/-- Settles O13: the parameter fields command kind by command kind. -/
theorem parametersChangeOnlyAtTheirCommands : Obligations.ParametersChangeOnlyAtTheirCommands := by
  intro i s t h
  rcases exec_cases i s with ⟨-, e⟩ | ⟨hi, e⟩ | ⟨p, v, hi, e⟩ | ⟨x, e⟩ | ⟨n, hi, e⟩ <;> rw [e] at h
  · cases h
    simp
  · cases h
    exact ⟨fun _ => ⟨rfl, .inl hi⟩, fun _ => hi, fun hne => absurd rfl hne⟩
  · rw [setParam_eq_next] at h
    cases h
    exact ⟨fun hne => absurd rfl hne, by simp, fun _ => ⟨p, v, hi⟩⟩
  · cases h
    rw [enqueue_frame]
    simp
  · obtain ⟨ws, -, -, ht⟩ := execRender_frame h
    rw [ht]
    exact ⟨fun _ => ⟨rfl, .inr ⟨n, hi⟩⟩, by simp, fun hne => absurd rfl hne⟩

/-- Settles O14: no command's frame has these fields in it. -/
theorem commandsLeaveFifoAndHostAlone : Obligations.CommandsLeaveFifoAndHostAlone :=
  fun _ _ _ => exec_host_frame

end Sys2Proof
end

section
/-! The register window (R61 to R65): host accesses, and what each part of the map reads. -/

namespace Sys2Proof.Machine

/-! ### Host accesses -/

theorem legalAccess_of_aligned {off : Nat} (h : off % 4 = 0) : legalAccess off 4 = true := by
  simp [legalAccess, h]

theorem not_legalAccess {off size : Nat} (h : size ≠ 4 ∨ off % 4 ≠ 0) : legalAccess off size = false := by
  rcases h with h | h <;> simp [legalAccess, h]

theorem hostRead_of_aligned (s : State) {off : Nat} (h : off % 4 = 0) :
    s.hostRead off 4 = { s with response := some (.data (s.readReg off)) } := by
  rw [State.hostRead, legalAccess_of_aligned h, if_pos rfl]

theorem hostWrite_of_aligned (s : State) {off : Nat} (h : off % 4 = 0) (v : Word) :
    s.hostWrite off 4 v = { s.writeReg off v with response := some .written } := by
  rw [State.hostWrite, legalAccess_of_aligned h, if_pos rfl]

theorem hostWrite_cmd (s : State) (w : Word) :
    s.hostWrite 0x00C 4 w = { writeCmd w s with response := some .written } :=
  hostWrite_of_aligned s (by decide) w

theorem hostRead_busError (s : State) {off size : Nat} (h : size ≠ 4 ∨ off % 4 ≠ 0) :
    s.hostRead off size = { s with response := some .busError } := by
  rw [State.hostRead, not_legalAccess h, if_neg Bool.false_ne_true]

theorem hostWrite_busError (s : State) {off size : Nat} (h : size ≠ 4 ∨ off % 4 ≠ 0) (v : Word) :
    s.hostWrite off size v = { s with response := some .busError } := by
  rw [State.hostWrite, not_legalAccess h, if_neg Bool.false_ne_true]

/-- Only STATUS, CTRL and CMD take a write (R62). -/
theorem writeReg_ignored (s : State) {off : Nat} (h4 : off ≠ 0x04) (h8 : off ≠ 0x08) (hC : off ≠ 0x0C)
    (v : Word) : s.writeReg off v = s := by
  unfold State.writeReg
  split
  · exact absurd rfl h4
  · exact absurd rfl h8
  · exact absurd rfl hC
  · rfl

/-! ### The parts of the map (R61) -/

theorem readReg_control (s : State) {off : Nat} (h : off < 0x100) : s.readReg off = s.readControl off := by
  rw [State.readReg, if_pos h]

theorem readReg_stg (s : State) {off : Nat} (h : 0x100 ≤ off) (h' : off < 0x200) :
    s.readReg off = s.readStg ((off - 0x100) / 4) := by
  rw [State.readReg, if_neg (by omega), if_pos h']

theorem readReg_act (s : State) {off : Nat} (h : 0x200 ≤ off) (h' : off < 0x300) :
    s.readReg off = s.readAct ((off - 0x200) / 4) := by
  rw [State.readReg, if_neg (by omega), if_neg (by omega), if_pos h']

theorem readReg_views (s : State) {off : Nat} (h : 0x400 ≤ off) (h' : off < 0x800) :
    s.readReg off = s.readView (off - 0x400) := by
  rw [State.readReg, if_neg (by omega), if_neg (by omega), if_neg (by omega), if_neg (by omega), if_pos h']

theorem readReg_outbuf (s : State) {off : Nat} (h : 0x1000 ≤ off) (h' : off < 0x3000) :
    s.readReg off = s.outbuf.readWord off := by
  rw [State.readReg, if_neg (by omega), if_neg (by omega), if_neg (by omega), if_neg (by omega),
    if_neg (by omega), if_neg (by omega), if_pos h']

/-- The gaps between the parts of the map (R61, R62). -/
theorem readReg_gap (s : State) {off : Nat}
    (h : 0x300 ≤ off ∧ off < 0x400 ∨ 0x800 ≤ off ∧ off < 0x1000 ∨ 0x3000 ≤ off) : s.readReg off = 0 := by
  rw [State.readReg, if_neg (by omega), if_neg (by omega), if_neg (by omega)]
  split
  · rfl
  · rw [if_neg (by omega)]
    split
    · rfl
    · rw [if_neg (by omega)]

theorem readControl_reserved (s : State) {off : Nat} (h : 0x30 ≤ off) : s.readControl off = 0 := by
  unfold State.readControl
  split
  case h_13 => rfl
  all_goals omega

theorem ParamId.ofNum?_eq_none {n : Nat} (h : ∀ p : ParamId, p.num ≠ n) : ParamId.ofNum? n = none :=
  Option.eq_none_iff_forall_ne_some.2 fun p hp => h p (ParamId.num_of_ofNum? hp)

theorem readStg_reserved (s : State) {id : Nat} (h : ∀ p : ParamId, p.num ≠ id) : s.readStg id = 0 := by
  rw [State.readStg, ParamId.ofNum?_eq_none h]

theorem readAct_reserved (s : State) {id : Nat} (h : ∀ p : ParamId, p.num ≠ id) : s.readAct id = 0 := by
  rw [State.readAct, ParamId.ofNum?_eq_none h]

theorem readView_reserved (s : State) {off : Nat} (h : 0x20 * Config.numVoices ≤ off) :
    s.readView off = 0 := by
  rw [State.readView, dif_neg (by unfold Config.numVoices at *; omega)]

/-- Reserved offsets read 0, range by range (R62). -/
theorem readReg_reserved (s : State) {off : Nat} (ha : off % 4 = 0) (h : ReservedOffset off) :
    s.readReg off = 0 := by
  rcases h with ⟨h, h'⟩ | ⟨h, h', hid⟩ | ⟨h, h', hid⟩ | h | ⟨h, h'⟩ | ⟨h, -⟩
  · rw [readReg_control s h', readControl_reserved s h]
  · rw [readReg_stg s h h', readStg_reserved s fun p hp => hid p (by omega)]
  · rw [readReg_act s h h', readAct_reserved s fun p hp => hid p (by omega)]
  · exact readReg_gap s (.inl h)
  · unfold Config.numVoices at h
    by_cases hv : off < 0x800
    · rw [readReg_views s (by omega) hv, readView_reserved s (by unfold Config.numVoices; omega)]
    · exact readReg_gap s (.inr (.inl ⟨by omega, h'⟩))
  · exact readReg_gap s (.inr (.inr h))

/-! ### STATUS, CTRL and the levels -/

theorem stickyMask_getLsbD : ∀ b < 32, stickyMask.getLsbD b = decide (1 ≤ b ∧ b ≤ 6) := by decide

theorem and_eq_self_of_and_not {x m : Word} (h : x &&& ~~~m = 0) : x &&& m = x := by
  apply BitVec.eq_of_getLsbD_eq
  intro i hi
  have hbit := congrArg (BitVec.getLsbD · i) h
  simp only [BitVec.getLsbD_and, BitVec.getLsbD_not, hi] at hbit ⊢
  cases hx : x.getLsbD i <;> simp_all

theorem cmdqLevel_of_bounded {s : State} (h : s.cmdq.length ≤ 16) :
    (s.readReg 0x02C).toNat = s.cmdqLevel := by
  have hlt : s.cmdqLevel ≤ 17 := by
    unfold State.cmdqLevel
    split <;> omega
  change (BitVec.ofNat 32 (s.cmdqLevel % 2 ^ 5)).toNat = _
  rw [BitVec.toNat_ofNat]
  omega

/-- BUSY is bit 0 of STATUS as read (R22, R23). -/
theorem readReg_status_busy (s : State) : (s.readReg 0x004).getLsbD 0 = s.busy := by
  change s.statusWord.getLsbD 0 = _
  rw [State.statusWord, BitVec.getLsbD_or, BitVec.getLsbD_and, stickyMask_getLsbD 0 (by decide)]
  cases s.busy <;> simp

theorem busy_eq_false_iff {s : State} : s.busy = false ↔ s.cmdq = [] ∧ s.executing = none := by
  unfold State.busy State.cmdqLevel
  cases s.executing <;> simp

/-! ### The voices -/

/-- ACTIVE_VOICES as the number whose bits are the voices that are not IDLE (R25). -/
theorem activeVoices_eq_ofBits (s : State) :
    s.activeVoices = BitVec.ofNat 32 (Nat.ofBits fun v : Fin Config.numVoices => !s.isIdle v) := by
  have hterm : ∀ v : Fin Config.numVoices,
      (if s.isIdle v then 0 else 2 ^ v.val) = (!s.isIdle v).toNat * 2 ^ v.val := fun v => by
    cases s.isIdle v <;> simp
  unfold State.activeVoices
  simp only [hterm]
  congr 1
  simp [voiceIds, Nat.ofBits, Fin.foldr_succ, Config.numVoices]
  omega

theorem readReg_activeVoices_voice (s : State) (v : Fin Config.numVoices) :
    (s.readReg 0x01C).getLsbD v.val = ((s.voice v).state != .idle) := by
  have hv : v.val < 32 := v.isLt.trans (by decide)
  change s.activeVoices.getLsbD v.val = _
  rw [activeVoices_eq_ofBits, BitVec.getLsbD_ofNat, Nat.testBit_ofBits_lt _ _ v.isLt, decide_eq_true hv]
  rfl

theorem readReg_activeVoices_above (s : State) {b : Nat} (h : 10 ≤ b) :
    (s.readReg 0x01C).getLsbD b = false := by
  change s.activeVoices.getLsbD b = _
  rw [activeVoices_eq_ofBits, BitVec.getLsbD_ofNat, Nat.testBit_ofBits_ge _ _ h, Bool.and_false]

theorem Life.code_eq_idxOf (x : Life) :
    x.code = ([.idle, .active, .releasing] : List Life).idxOf x ∧ x.code < 3 := by
  cases x <;> decide

theorem Stage.code_eq_idxOf (x : Stage) :
    x.code = ([.idle, .attack, .decay, .sustain, .release] : List Stage).idxOf x ∧ x.code < 5 := by
  cases x <;> decide

theorem Voice.vstate_toNat (x : Voice) :
    x.vstate.toNat = ([.idle, .active, .releasing] : List Life).idxOf x.state +
      x.note.toNat * 2 ^ 8 + x.vel.toNat * 2 ^ 16 := by
  obtain ⟨hcode, hlt⟩ := x.state.code_eq_idxOf
  have hn := x.note.isLt
  have hv := x.vel.isLt
  rw [Voice.vstate, BitVec.toNat_ofNat, hcode, Nat.mod_eq_of_lt (by omega)]

theorem Voice.venv_toNat (x : Voice) :
    x.venv.toNat = ([.idle, .attack, .decay, .sustain, .release] : List Stage).idxOf x.aenv.stage +
      ([.idle, .attack, .decay, .sustain, .release] : List Stage).idxOf x.fenv.stage * 2 ^ 4 := by
  obtain ⟨ha, ha'⟩ := x.aenv.stage.code_eq_idxOf
  obtain ⟨hf, hf'⟩ := x.fenv.stage.code_eq_idxOf
  rw [Voice.venv, BitVec.toNat_ofNat, ha, hf, Nat.mod_eq_of_lt (by omega)]

/-- A register narrower than a word reads as its value. -/
theorem toNat_zeroExtend_word {n : Nat} (x : BitVec n) (h : n ≤ 32) :
    (x.zeroExtend 32).toNat = x.toNat :=
  BitVec.toNat_setWidth_of_le h

/-! ### The parameter registers -/

theorem readReg_stg_num (s : State) (p : ParamId) :
    (s.readReg (0x100 + 4 * p.num)).toNat = (s.stg.get p).toNat := by
  have hp := p.num_lt
  rw [readReg_stg s (by omega) (by omega), show (0x100 + 4 * p.num - 0x100) / 4 = p.num by omega,
    State.readStg, p.ofNum?_num]
  exact toNat_zeroExtend_word _ (by decide)

theorem readReg_act_num (s : State) {p : ParamId} (h : p.num < 0x20) :
    (s.readReg (0x200 + 4 * p.num)).toNat = (s.act.get p).toNat := by
  have hread : s.readAct p.num = (s.act.get p).zeroExtend 32 := by
    rw [State.readAct, p.ofNum?_num]
    cases p
    case cfgSampleRate | cfgMaxBlock | cfgNumChannels => exact absurd h (by decide)
    all_goals rfl
  rw [readReg_act s (by omega) (by omega), show (0x200 + 4 * p.num - 0x200) / 4 = p.num by omega, hread]
  exact toNat_zeroExtend_word _ (by decide)

theorem readReg_outWord (s : State) {c j : Nat} (hc : c < 2) (hj : j < 1024) :
    s.readReg (0x1000 + 0x1000 * c + 4 * j) = s.outWord c j :=
  readReg_outbuf s (by omega) (by omega)

end Sys2Proof.Machine

namespace Sys2Proof

open Machine

/-- Settles O38: an aligned write to CMD is `writeCmd`, and the two registers read CMDQ's level. -/
theorem cmdWriteAppends : Obligations.CmdWriteAppends := by
  intro s w
  refine ⟨fun h => ?_, fun h => ?_, rfl, fun h => ⟨cmdqLevel_of_bounded h, ?_⟩⟩
  · rw [hostWrite_cmd, writeCmd_of_room h]
  · rw [hostWrite_cmd, writeCmd, if_neg (by rw [h]; decide)]
    rfl
  · rw [readReg_status_busy, ne_eq, ← BitVec.toNat_inj, cmdqLevel_of_bounded h]
    simp [State.busy]

/-- Settles O39: the STATUS write clears under the mask 6:1, bit by bit; the CTRL write is its definition. -/
theorem statusAndCtrlWrites : Obligations.StatusAndCtrlWrites := by
  intro s v
  refine ⟨⟨s.status &&& ~~~(v &&& stickyMask), hostWrite_of_aligned s (by decide) v, fun b hb => ?_⟩,
    hostWrite_of_aligned s (by decide) v⟩
  rw [BitVec.getLsbD_and, BitVec.getLsbD_not, BitVec.getLsbD_and, stickyMask_getLsbD b hb,
    Bool.and_comm (v.getLsbD b)]
  simp [hb]

/-- Settles O40: an aligned read, the reserved ranges of the map, and the three offsets that take a write. -/
theorem readsAndIgnoredWrites : Obligations.ReadsAndIgnoredWrites := fun s off _ ha =>
  ⟨hostRead_of_aligned s ha, readReg_reserved s ha, fun h4 h8 hC v => by
    rw [hostWrite_of_aligned s ha, writeReg_ignored s h4 h8 hC]⟩

/-- Settles O41: the access is not legal, so both answer a bus error. -/
theorem busErrorChangesNoState : Obligations.BusErrorChangesNoState := fun s _ _ v h =>
  ⟨hostRead_busError s h, hostWrite_busError s h v⟩

/-- Settles O42: each part of the map by its lemma, and each voice view as the fields of its voice. -/
theorem registerMapReads : Obligations.RegisterMapReads := by
  intro s
  refine ⟨rfl, fun h => ?_, and_eq_self_of_and_not, rfl, rfl, rfl, readReg_evqLevel,
    readReg_activeVoices_voice s, fun b => readReg_activeVoices_above s, fun h => ?_, rfl, rfl, rfl,
    readReg_stg_num s, fun p => readReg_act_num s, toNat_zeroExtend_word s.fs (by decide),
    toNat_zeroExtend_word s.maxblk (by decide), toNat_zeroExtend_word s.nch (by decide), ?_,
    fun c hc j => readReg_outWord s hc⟩
  · change s.statusWord = _
    rw [State.statusWord, stickyMask, and_eq_self_of_and_not h]
    simp only [← busy_eq_false_iff]
    cases s.busy <;> rfl
  · rw [cmdqLevel_of_bounded h, State.cmdqLevel]
    cases s.executing <;> rfl
  · rintro v b x rfl rfl
    have hview := fun {off} => s.readReg_view v (off := off)
    refine ⟨?_, ?_, ?_, ?_, hview (by decide), hview (by decide), hview (by decide), hview (by decide)⟩
    · exact (congrArg BitVec.toNat (hview (off := 0) (by decide))).trans (Voice.vstate_toNat _)
    · exact (congrArg BitVec.toNat (hview (by decide))).trans (Voice.venv_toNat _)
    · exact (congrArg BitVec.toNat (hview (by decide))).trans (toNat_zeroExtend_word _ (by decide))
    · exact (congrArg BitVec.toNat (hview (by decide))).trans (toNat_zeroExtend_word _ (by decide))

end Sys2Proof
end

section
/-! Steps and reset (R67, R99, R295, R296, R300), and the invariants that the processor's side takes part in
(R22 to R24, R36). -/

namespace Sys2Proof.Machine

/-! ### What each turn does -/

theorem step_of_command_turn {s : State} {r : List Turn}
    (h : s.schedule = .command :: r ∨ s.schedule = [] ∧ r = []) :
    step s = commandStep { s with schedule := r } := by
  unfold step takeTurn
  rcases h with h | ⟨h, rfl⟩ <;> rw [h]
  simp only [← h]

theorem step_of_issue_turn {s : State} {r : List Turn} (h : s.schedule = .issue :: r) :
    step s = .next (issue { s with schedule := r }) := by
  rw [step, takeTurn, h]

theorem step_of_access_turn {s : State} {a : Access} {r : List Turn} (h : s.schedule = .access a :: r) :
    step s = .next (hostAccess a { s with schedule := r }) := by
  rw [step, takeTurn, h]

theorem step_of_reset_turn {s : State} {r : List Turn} (h : s.schedule = .reset :: r) :
    step s = .next { State.reset with schedule := r, response := s.response } := by
  rw [step, takeTurn, h]
  rfl

/-- The executing word is run first (R23, R99). -/
theorem commandStep_of_executing {s : State} {w : Word} (h : s.executing = some w) :
    commandStep s = runWord w { s with executing := none } := by
  rw [commandStep, fetch, h]

/-- An idle processor keeps all state (R295). -/
theorem commandStep_of_not_busy {s : State} (h : s.busy = false) : commandStep s = .next s := by
  obtain ⟨hq, hx⟩ := busy_eq_false_iff.1 h
  rw [commandStep, fetch, hx, hq]

theorem issue_of_cmdq_cons {s : State} {w : Word} {q : List Word} (hx : s.executing = none)
    (hq : s.cmdq = w :: q) : issue s = { s with cmdq := q, executing := some w } := by
  rw [issue, hx, hq]

theorem step_giveTurn (s : State) : step (giveTurn s) = commandStep s := by
  unfold giveTurn
  split
  · next h => exact step_of_command_turn (.inr ⟨h, h⟩)
  · exact step_of_command_turn (.inl rfl)

/-- A placed word is the next one executed (log 15). -/
theorem commandStep_placeWord (w : Word) (s : State) :
    commandStep (placeWord w s) = runWord w { s with executing := none, cmdq := s.cmdq.tail } :=
  commandStep_of_cmdq_cons rfl rfl

/-! ### Completion (R296) -/

/-- What a command turn runs: nothing, or a word from a state with the same EVQ and SEQ. -/
theorem commandStep_cases (s : State) :
    commandStep s = .next s ∨ ∃ w u, commandStep s = runWord w u ∧ u.evq = s.evq ∧ u.seq = s.seq := by
  unfold commandStep
  split
  · next w u hf =>
    refine .inr ⟨w, u, rfl, ?_⟩
    rcases fetch_eq_some hf with ⟨-, rfl⟩ | ⟨-, q, -, rfl⟩ <;> exact ⟨rfl, rfl⟩
  · exact .inl rfl

/-- A step answers next, or it runs a command from a state with the same EVQ and SEQ. -/
theorem step_cases_exec (s : State) :
    (∃ t, step s = .next t) ∨ ∃ i u, step s = exec i u ∧ u.evq = s.evq ∧ u.seq = s.seq := by
  have hcmd : ∀ r, step s = commandStep { s with schedule := r } →
      (∃ t, step s = .next t) ∨ ∃ i u, step s = exec i u ∧ u.evq = s.evq ∧ u.seq = s.seq := by
    intro r hr
    rcases commandStep_cases { s with schedule := r } with h | ⟨w, u, h, he, hs⟩
    · exact .inl ⟨_, hr.trans h⟩
    · unfold runWord at h
      split at h
      · next i _ => exact .inr ⟨i, u, hr.trans h, he, hs⟩
      · exact .inl ⟨_, hr.trans h⟩
  match hs : s.schedule with
  | [] => exact hcmd [] (step_of_command_turn (.inr ⟨hs, rfl⟩))
  | .command :: r => exact hcmd r (step_of_command_turn (.inl hs))
  | .issue :: r => exact .inl ⟨_, step_of_issue_turn hs⟩
  | .access a :: r => exact .inl ⟨_, step_of_access_turn hs⟩
  | .reset :: r => exact .inl ⟨_, step_of_reset_turn hs⟩

theorem seqRoom_stampsNeeded_congr {s u : State} (he : u.evq = s.evq) (hs : u.seq = s.seq) :
    u.SeqRoom (stampsNeeded u) ↔ s.SeqRoom (stampsNeeded s) := by
  unfold State.SeqRoom stampsNeeded
  rw [he, hs]

/-- With room for its stamps a command completes, so a refusal means there was none (R296; log 1). -/
theorem exec_completes_or_no_room (i : Instr) (s : State) :
    (∃ t, exec i s = .next t) ∨ exec i s = .refused .seqWrap ∧ ¬ s.SeqRoom (stampsNeeded s) :=
  (exec_next_or_seqWrap i s).imp_right fun h => ⟨h, fun hroom => by
    obtain ⟨t, ht⟩ := exec_room i hroom
    cases h.symm.trans ht⟩

theorem step_completes_or_no_room (s : State) :
    (∃ t, step s = .next t) ∨ step s = .refused .seqWrap ∧ ¬ s.SeqRoom (stampsNeeded s) := by
  rcases step_cases_exec s with h | ⟨i, u, h, he, hs⟩
  · exact .inl h
  · rw [h, ← seqRoom_stampsNeeded_congr he hs]
    exact exec_completes_or_no_room i u

/-! ### Queues and reserved bits -/

theorem or_and_eq_zero {x y m : Word} (hx : x &&& m = 0) (hy : y &&& m = 0) : (x ||| y) &&& m = 0 := by
  rw [BitVec.and_or_distrib_right, hx, hy]
  rfl

/-- A command sets no reserved bit of STATUS (R22, R288). -/
theorem exec_status_reserved {i : Instr} {s t : State} (hs : s.status &&& ~~~stickyMask = 0)
    (h : exec i s = .next t) : t.status &&& ~~~stickyMask = 0 := by
  have hset : ∀ {m : Word}, m &&& ~~~stickyMask = 0 → t.status = s.status ∨ t.status = s.status ||| m →
      t.status &&& ~~~stickyMask = 0 := by
    rintro m hm (e | e) <;> rw [e]
    · exact hs
    · exact or_and_eq_zero hs hm
  rcases exec_cases i s with ⟨-, e⟩ | ⟨-, e⟩ | ⟨p, v, -, e⟩ | ⟨x, e⟩ | ⟨n, -, e⟩ <;> rw [e] at h
  · cases h
    exact hs
  · cases h
    exact hs
  · exact hset (by decide) (setParam_status h)
  · cases h
    exact hset (by decide) (enqueue_status x s)
  · rcases execRender_status h with e | e
    · exact hset (by decide) (.inr e)
    · exact hset (by decide) (.inr e)

/-- A command leaves EVQ within its depth (R36, R106). -/
theorem exec_evq_bounded {i : Instr} {s t : State} (hs : s.evq.length ≤ Config.evqDepth)
    (h : exec i s = .next t) : t.evq.length ≤ Config.evqDepth := by
  rcases exec_cases i s with ⟨-, e⟩ | ⟨-, e⟩ | ⟨p, v, -, e⟩ | ⟨x, e⟩ | ⟨n, -, e⟩ <;> rw [e] at h
  · cases h
    exact hs
  · cases h
    exact Nat.zero_le _
  · rw [setParam_eq_next] at h
    cases h
    exact hs
  · cases h
    rcases enqueue_cases x s with ⟨hlt, e⟩ | ⟨-, e⟩ <;> rw [e]
    · simpa using hlt
    · exact hs
  · obtain ⟨ws, -, -, ht⟩ := execRender_frame h
    rw [ht]
    exact Nat.zero_le _

/-- The invariant of CMDQ, EVQ, STATUS and CTRL. -/
abbrev State.HostSideSafe (s : State) : Prop := s.QueuesBounded ∧ s.ReservedZero

theorem exec_hostSideSafe {i : Instr} {s t : State} (hs : s.HostSideSafe) (h : exec i s = .next t) :
    t.HostSideSafe := by
  obtain ⟨⟨hcmdq, hevq⟩, hstatus, hctrl⟩ := hs
  obtain ⟨hq, -, hc, -⟩ := exec_host_frame h
  exact ⟨⟨hq ▸ hcmdq, exec_evq_bounded hevq h⟩, exec_status_reserved hstatus h, hc ▸ hctrl⟩

theorem fetch_hostSideSafe {s t : State} {w : Word} (hs : s.HostSideSafe) (h : fetch s = some (w, t)) :
    t.HostSideSafe := by
  obtain ⟨⟨hcmdq, hevq⟩, hrest⟩ := hs
  rcases fetch_eq_some h with ⟨-, rfl⟩ | ⟨-, q, hq, rfl⟩
  · exact ⟨⟨hcmdq, hevq⟩, hrest⟩
  · rw [hq] at hcmdq
    exact ⟨⟨(Nat.le_succ _).trans hcmdq, hevq⟩, hrest⟩

theorem issue_hostSideSafe {s : State} (hs : s.HostSideSafe) : (issue s).HostSideSafe := by
  obtain ⟨⟨hcmdq, hevq⟩, hrest⟩ := hs
  rcases issue_cases s with h | ⟨w, q, -, hq, h⟩ <;> rw [h]
  · exact ⟨⟨hcmdq, hevq⟩, hrest⟩
  · rw [hq] at hcmdq
    exact ⟨⟨(Nat.le_succ _).trans hcmdq, hevq⟩, hrest⟩

/-- A write to STATUS only clears bits, one to CTRL stores two bits, one to CMD stops at 16 words. -/
theorem writeReg_hostSideSafe (off : Nat) (v : Word) {s : State} (hs : s.HostSideSafe) :
    (s.writeReg off v).HostSideSafe := by
  obtain ⟨⟨hcmdq, hevq⟩, hstatus, hctrl⟩ := hs
  unfold State.writeReg
  split
  · refine ⟨⟨hcmdq, hevq⟩, ?_, hctrl⟩
    rw [State.writeStatus_status, BitVec.and_assoc, BitVec.and_comm (~~~_), ← BitVec.and_assoc, hstatus]
    exact BitVec.zero_and
  · refine ⟨⟨hcmdq, hevq⟩, hstatus, ?_⟩
    rw [State.writeCtrl_ctrl, BitVec.and_assoc, show (0x3#32 : Word) &&& ~~~0x3#32 = 0#32 by decide,
      BitVec.and_zero]
    rfl
  · rcases writeCmd_cases v s with ⟨hlt, e⟩ | ⟨-, e⟩ <;> rw [e]
    · exact ⟨⟨by simpa using hlt, hevq⟩, hstatus, hctrl⟩
    · exact ⟨⟨hcmdq, hevq⟩, or_and_eq_zero hstatus (by decide), hctrl⟩
  · exact ⟨⟨hcmdq, hevq⟩, hstatus, hctrl⟩

theorem hostWrite_hostSideSafe (off size : Nat) (v : Word) {s : State} (hs : s.HostSideSafe) :
    (s.hostWrite off size v).HostSideSafe := by
  unfold State.hostWrite
  split
  · exact writeReg_hostSideSafe off v hs
  · exact hs

theorem step_hostSideSafe {s t : State} (hs : s.HostSideSafe) (h : step s = .next t) : t.HostSideSafe := by
  obtain ⟨r, -, h⟩ := step_cases h
  have hr : State.HostSideSafe { s with schedule := r } := hs
  rcases h with rfl | ⟨w, u, i, hf, -, he⟩ | ⟨w, u, e, hf, -, rfl⟩ | rfl | ⟨off, size, rfl⟩ |
    ⟨off, size, v, rfl⟩ | ⟨-, rfl⟩
  · exact hs
  · exact exec_hostSideSafe (fetch_hostSideSafe hr hf) he
  · obtain ⟨hqueues, hstatus, hctrl⟩ := fetch_hostSideSafe hr hf
    exact ⟨hqueues, or_and_eq_zero hstatus (by decide), hctrl⟩
  · exact issue_hostSideSafe hr
  · exact hs
  · exact hostWrite_hostSideSafe off size v hr
  · exact (by decide : State.reset.HostSideSafe)

end Sys2Proof.Machine

namespace Sys2Proof

open Machine

/-- Settles O53: commands, fetch, issue and host writes each keep the depths and the masks. -/
theorem stepKeepsQueuesAndReservedBits : Obligations.StepKeepsQueuesAndReservedBits :=
  fun _ _ => step_hostSideSafe

/-- Settles O44: the turn reaches `hostRead` or `hostWrite` through `windowOffset`, which is the offset inside
the window and none outside. -/
theorem accessTurnReachesWindow : Obligations.AccessTurnReachesWindow := by
  intro s r size v
  refine ⟨fun off hoff => ⟨fun h => ?_, fun h => ?_⟩, fun addr haddr => ⟨fun h => ?_, fun h => ?_⟩⟩ <;>
    rw [step_of_access_turn h, hostAccess]
  · rw [windowOffset_inside hoff]
  · rw [windowOffset_inside hoff]
  · rw [windowOffset_outside haddr]
  · rw [windowOffset_outside haddr]

/-- Settles O45: a command turn is a command step, which runs the executing word or the head of CMDQ. -/
theorem stepRunsDecodedCommand : Obligations.StepRunsDecodedCommand := by
  refine ⟨fun s r w i hturn hd => ⟨fun q hx hq => ?_, fun hx => ?_⟩, fun s nbits n i hd => ?_⟩
  · rw [step_of_command_turn hturn, commandStep_of_cmdq_cons (s := { s with schedule := r }) hx hq,
      runWord_of_decode_ok hd]
  · rw [step_of_command_turn hturn, commandStep_of_executing (s := { s with schedule := r }) hx,
      runWord_of_decode_ok hd]
  · rw [State.withFetchWord, step_giveTurn, commandStep_placeWord, runWord_of_decode_ok hd]

/-- Settles O46: the other turns by their lemmas. -/
theorem stepOtherTurns : Obligations.StepOtherTurns := by
  refine fun s r => ⟨fun w q e hturn hd hx hq => ?_, fun hturn hb => ?_, fun w q hturn hx hq => ⟨?_, ?_⟩⟩
  · rw [step_of_command_turn hturn, commandStep_of_cmdq_cons (s := { s with schedule := r }) hx hq,
      runWord_of_decode_error hd]
    rfl
  · rw [step_of_command_turn hturn, commandStep_of_not_busy (s := { s with schedule := r }) hb]
  · rw [step_of_issue_turn hturn, issue_of_cmdq_cons (s := { s with schedule := r }) hx hq]
  · simp [State.cmdqLevel, hx, hq]

/-- Settles O47: a command with room completes and is refused only without, a step runs at most a command,
and every other turn is a function of the state. -/
theorem blockNeverStops : Obligations.BlockNeverStops := by
  refine ⟨fun i s => exec_room i, exec_completes_or_no_room, fun s hroom => ?_, step_completes_or_no_room,
    fun s x r hturn hx => ?_⟩
  · exact (step_completes_or_no_room s).resolve_right fun h => h.2 hroom
  · cases x with
    | command => exact absurd rfl hx
    | issue => exact ⟨_, step_of_issue_turn hturn⟩
    | access a => exact ⟨_, step_of_access_turn hturn⟩
    | reset => exact ⟨_, step_of_reset_turn hturn⟩

/-- Settles O48: PREPARE on the reset state is evaluated, and a reset turn is its definition. -/
theorem resetIsPrepareAtDefaults : Obligations.ResetIsPrepareAtDefaults :=
  ⟨by rfl, fun _ _ => step_of_reset_turn⟩

/-- Settles O50: OUTBUF lists no byte, no voice is ACTIVE, and the other invariants are evaluated. -/
theorem resetMeetsEveryInvariant : Obligations.ResetMeetsEveryInvariant :=
  ⟨Memory.wf_nil, reset_paramsLegal, by decide, by decide, by decide,
    State.oneActivePerNote_of_idle (by decide), fun v => by rw [reset_voice]; exact seeds_ne_zero v,
    by decide, by decide, by decide, outputBounded_of_outbuf_nil rfl⟩

end Sys2Proof
end

section
/-! Note dispatch (R220, R222, R241 to R248) and the end of a block (R224 to R228, R257, R259). -/

namespace Sys2Proof.Machine

/-! ### Loops over the voices with at most one turn that acts -/

theorem forVoices_of_fixed {f : Fin Config.numVoices → State → Result} {vs : List (Fin Config.numVoices)}
    {s : State} (h : ∀ v ∈ vs, f v s = .next s) : forVoices f vs s = .next s := by
  induction vs with
  | nil => rfl
  | cons v vs ih =>
    obtain ⟨hv, hvs⟩ := List.forall_mem_cons.1 h
    rw [forVoices, hv, andThen_next, ih hvs]

/-- A loop in which the turn of `v` alone acts, before and after it. -/
theorem forVoices_of_single {f : Fin Config.numVoices → State → Result} {vs : List (Fin Config.numVoices)}
    {v : Fin Config.numVoices} {s t : State} (hv : v ∈ vs) (hn : vs.Nodup) (hs : ∀ w, w ≠ v → f w s = .next s)
    (hact : f v s = .next t) (ht : ∀ w, w ≠ v → f w t = .next t) : forVoices f vs s = .next t := by
  induction vs with
  | nil => simp at hv
  | cons x xs ih =>
    obtain ⟨hx, hxs⟩ := List.nodup_cons.1 hn
    by_cases hxv : x = v
    · subst hxv
      rw [forVoices, hact, andThen_next]
      exact forVoices_of_fixed fun w hw => ht w fun e => hx (e ▸ hw)
    · rw [forVoices, hs x hxv, andThen_next]
      exact ih ((List.mem_cons.1 hv).resolve_left (Ne.symm hxv)) hxs

/-! ### Note off -/

theorem noteOff_of_no_player {s : State} {m : BitVec 7} (h : ∀ v, ¬ s.plays m v) (hard : Bool) :
    noteOff m hard s = .next s :=
  forVoices_of_fixed fun v _ => if_neg (h v)

/-- With one player, a note off is the stop of that voice (R244). -/
theorem noteOff_of_player {s : State} {m : BitVec 7} {v : Fin Config.numVoices} {x : Voice} {q : BitVec 64}
    {hard : Bool} (hone : s.OneActivePerNote) (hv : s.plays m v)
    (hstop : stopNote hard v s = .next (State.setVoice { s with seq := q } v x)) :
    noteOff m hard s = .next (State.setVoice { s with seq := q } v x) := by
  have hother : ∀ w, w ≠ v → ¬ s.plays m w := fun w hw hp =>
    hw (State.oneActivePerNote_iff.1 hone m w v hp hv)
  refine forVoices_of_single (mem_voiceIds v) (by decide) (fun w hw => if_neg (hother w hw))
    ((if_pos hv).trans hstop) fun w hw => if_neg ?_
  rw [State.plays_iff, State.voice_setVoice_ne _ _ (Ne.symm hw)]
  exact fun hp => hother w hw (State.plays_iff.2 hp)

/-- A hard-stopped voice: the gate off is not seen through the hard reset (R222). -/
theorem Voice.hardStopped_eq (q : BitVec 64) (x : Voice) :
    x.hardStopped q = { x with
      aenv := x.aenv.hardReset, fenv := x.fenv.hardReset, state := .idle, freeSeq := q } := by
  rw [Voice.hardStopped, Env.gateOff_hardReset, Env.gateOff_hardReset]

theorem stopNote_hard_of_room {s : State} (h : s.SeqRoom 1) (v : Fin Config.numVoices) :
    stopNote true v s =
      .next (State.setVoice { s with seq := s.seq + 1 } v ((s.voice v).hardStopped (s.seq + 1))) :=
  stopNote_hard_eq_next.2 ⟨by unfold State.SeqRoom at h; omega, rfl⟩

theorem startNote_of_room {s : State} (h : s.SeqRoom 1) (v : Fin Config.numVoices) (m vel : BitVec 7) :
    startNote v m vel s = .next (startedState v m vel s) :=
  startNote_eq_next.2 ⟨by unfold State.SeqRoom at h; omega, rfl⟩

/-! ### The number of sounding voices -/

/-- The voices that are not IDLE, as a set. -/
def soundingSet (s : State) : Finset (Fin Config.numVoices) := Finset.univ.filter fun v => !s.isIdle v

theorem mem_soundingSet {s : State} {v : Fin Config.numVoices} :
    v ∈ soundingSet s ↔ (s.voice v).state ≠ .idle := by
  simp [soundingSet, State.isIdle]

theorem soundingCount_eq_card (s : State) : soundingCount s = (soundingSet s).card := by
  have hnodup : voiceIds.Nodup := by decide
  have hset : (voiceIds.filter fun v => !s.isIdle v).toFinset = soundingSet s := by
    ext v
    simp [soundingSet]
  rw [soundingCount, ← hset, List.toFinset_card_of_nodup (hnodup.filter _)]

theorem card_soundingSet_le (s : State) : (soundingSet s).card ≤ 10 := Finset.card_le_univ _

theorem noteOff_tail_soundingSet {m : BitVec 7} {s t : State} (h : noteOff m false s = .next t) :
    soundingSet t = soundingSet s := by
  obtain ⟨u, hu, -, hw⟩ := noteOff_tail m s
  cases hu.symm.trans h
  ext w
  rw [mem_soundingSet, mem_soundingSet, hw w]
  split
  · next hp => simp [(State.plays_iff.1 hp).1, Voice.released]
  · rfl

theorem soundingSet_startedState (v : Fin Config.numVoices) (m vel : BitVec 7) (s : State) :
    soundingSet (startedState v m vel s) = insert v (soundingSet s) := by
  ext w
  rw [Finset.mem_insert, mem_soundingSet, mem_soundingSet, startedState_voice]
  by_cases h : v = w
  · simp [h, Voice.started]
  · simp [h, Ne.symm h]

theorem soundingSet_hardStoppedState (v : Fin Config.numVoices) (s : State) :
    soundingSet (hardStoppedState v s) = (soundingSet s).erase v := by
  ext w
  rw [Finset.mem_erase, mem_soundingSet, mem_soundingSet, hardStoppedState_voice]
  by_cases h : v = w
  · simp [h, Voice.hardStopped]
  · simp [h, Ne.symm h]

/-- Allocation sounds an IDLE voice, or the one it stopped (R248). -/
theorem allocate_soundingSet_card {m vel : BitVec 7} {s t : State} (h : allocate m vel s = .next t) :
    (soundingSet t).card = min 10 ((soundingSet s).card + 1) := by
  rcases allocate_cases h with ⟨v, hv, -, rfl⟩ | ⟨hn, -, -, rfl⟩
  · have hidle : v ∉ soundingSet s := fun hm =>
      mem_soundingSet.1 hm (State.isIdle_iff.1 (selectFree_spec hv).1)
    have hle := card_soundingSet_le (startedState v m vel s)
    rw [soundingSet_startedState, Finset.card_insert_of_notMem hidle] at hle ⊢
    omega
  · have hall : soundingSet s = Finset.univ := by
      simp [soundingSet, selectFree_eq_none.1 hn]
    rw [soundingSet_startedState, soundingSet_hardStoppedState, hall,
      Finset.insert_erase (Finset.mem_univ _)]
    rfl

/-! ### Note on -/

/-- A started voice does not show a hard stop just before it, but for its free_seq (R220, R222). -/
theorem Voice.started_hardStopped (m vel : BitVec 7) (fs : BitVec 18) (q q' : BitVec 64) (x : Voice) :
    (x.hardStopped q').started m vel fs q = { x.started m vel fs q with freeSeq := q' } := by
  rw [Voice.hardStopped_eq]
  rfl

/-- After the same-note release each voice is released or as before (R241). -/
theorem noteOff_tail_voice {m : BitVec 7} {s r : State} (h : noteOff m false s = .next r)
    (w : Fin Config.numVoices) : r.voice w =
      if (s.voice w).state = .active ∧ (s.voice w).note = m then (s.voice w).released else s.voice w := by
  obtain ⟨r', hr', -, hw⟩ := noteOff_tail m s
  cases hr'.symm.trans h
  rw [hw w]
  exact if_congr State.plays_iff rfl rfl

theorem noteOff_tail_frame {m : BitVec 7} {s r : State} (h : noteOff m false s = .next r) :
    r = { s with voices := r.voices } := by
  obtain ⟨r', hr', hf, -⟩ := noteOff_tail m s
  cases hr'.symm.trans h
  exact hf

theorem noteOff_tail_sameButVoices {m : BitVec 7} {s r : State} (h : noteOff m false s = .next r) :
    SameButVoices s r := by
  have hframe := noteOff_tail_frame h
  have hseq : r.seq = s.seq := by rw [hframe]
  rw [SameButVoices, hseq]
  exact hframe

theorem noteOff_tail_rng {m : BitVec 7} {s r : State} (h : noteOff m false s = .next r)
    (w : Fin Config.numVoices) :
    (r.voice w).rng0 = (s.voice w).rng0 ∧ (r.voice w).rng1 = (s.voice w).rng1 := by
  rw [noteOff_tail_voice h w]
  split <;> exact ⟨rfl, rfl⟩

theorem startedState_voice_same (v : Fin Config.numVoices) (m vel : BitVec 7) (s : State) :
    (startedState v m vel s).voice v = (s.voice v).started m vel s.fs (s.seq + 1) := by
  rw [startedState_voice, if_pos rfl]

theorem startedState_voice_ne {v w : Fin Config.numVoices} (h : w ≠ v) (m vel : BitVec 7) (s : State) :
    (startedState v m vel s).voice w = s.voice w := by
  rw [startedState_voice, if_neg (Ne.symm h)]

theorem hardStoppedState_voice_same (v : Fin Config.numVoices) (s : State) :
    (hardStoppedState v s).voice v = (s.voice v).hardStopped (s.seq + 1) := by
  rw [hardStoppedState_voice, if_pos rfl]

theorem hardStoppedState_voice_ne {v w : Fin Config.numVoices} (h : w ≠ v) (s : State) :
    (hardStoppedState v s).voice w = s.voice w := by
  rw [hardStoppedState_voice, if_neg (Ne.symm h)]

theorem allocate_of_free {s : State} {v : Fin Config.numVoices} (hf : selectFree s = some v)
    (h : s.SeqRoom 1) (m vel : BitVec 7) : allocate m vel s = .next (startedState v m vel s) := by
  rw [allocate, hf]
  exact startNote_of_room h v m vel

theorem allocate_of_steal {s : State} (hf : selectFree s = none) (h : s.SeqRoom 2) (m vel : BitVec 7) :
    allocate m vel s =
      .next (startedState (selectSteal s) m vel (hardStoppedState (selectSteal s) s)) := by
  have hroom : (hardStoppedState (selectSteal s) s).SeqRoom 1 := (nextSeq_room h).2
  simp only [allocate, hf, stopNote_hard_of_room (SeqRoom.mono h (by decide)), andThen_next]
  exact startNote_of_room hroom _ m vel

/-- What allocation does with room for two stamps: the free voice of R242 is started, or the one of R243
after its hard stop; the other voices stay. -/
theorem allocate_of_room {s : State} (m vel : BitVec 7) (h : s.SeqRoom 2) :
    ∃ (t : State) (v : Fin Config.numVoices) (q : BitVec 64), allocate m vel s = .next t ∧
      SameButVoices s t ∧ (∀ w, w ≠ v → t.voice w = s.voice w) ∧
      t.voice v = { (s.voice v).started m vel s.fs t.seq with freeSeq := q } ∧
      if (s.voice v).state = .idle then
        t.seq = s.seq + 1 ∧ q = (s.voice v).freeSeq ∧
        ∀ w, (s.voice w).state = .idle → (s.voice v).freeSeq ≤ (s.voice w).freeSeq ∧
          ((s.voice w).freeSeq = (s.voice v).freeSeq → v ≤ w)
      else
        t.seq = s.seq + 2 ∧ q = s.seq + 1 ∧ (∀ w, (s.voice w).state ≠ .idle) ∧
        ((s.voice v).state = .releasing ∨ ∀ w, (s.voice w).state ≠ .releasing) ∧
        ∀ w, ((s.voice w).state = .releasing ∨ ∀ x, (s.voice x).state ≠ .releasing) →
          (s.voice v).trigSeq ≤ (s.voice w).trigSeq := by
  cases hf : selectFree s with
  | some v =>
    obtain ⟨hidle, hfirst⟩ := selectFree_spec hf
    refine ⟨_, v, (s.voice v).freeSeq, allocate_of_free hf (SeqRoom.mono h (by decide)) m vel, rfl,
      fun w hw => startedState_voice_ne hw m vel s, startedState_voice_same v m vel s, ?_⟩
    rw [if_pos (State.isIdle_iff.1 hidle)]
    exact ⟨rfl, rfl, fun w hw => hfirst w (State.isIdle_iff.2 hw)⟩
  | none =>
    have hbusy : ∀ w, (s.voice w).state ≠ .idle := fun w hw => by
      simpa [State.isIdle_iff.2 hw] using selectFree_eq_none.1 hf w
    obtain ⟨hpool, hfirst⟩ := selectSteal_spec s
    simp only [mem_stealPool] at hpool hfirst
    refine ⟨_, selectSteal s, s.seq + 1, allocate_of_steal hf h m vel, rfl, fun w hw => ?_, ?_, ?_⟩
    · rw [startedState_voice_ne hw, hardStoppedState_voice_ne hw]
    · rw [startedState_voice_same, hardStoppedState_voice_same, Voice.started_hardStopped]
      rfl
    · rw [if_neg (hbusy _)]
      exact ⟨BitVec.add_assoc s.seq 1 1, rfl, hbusy, hpool, hfirst⟩

/-! ### The end of a block -/

theorem Env.not_isActive (e : Env) : (!e.isActive) = (e.stage == .idle) := Bool.not_not _

/-- The frees skip exactly the voices whose amplitude envelope runs (R257). -/
theorem freeFinished_of_lifeMatches {s : State} (h : s.LifeMatches) : freeFinished s = .next s :=
  forVoices_of_fixed fun v _ => freeVoice_eq_next.2 <| by
    rw [if_neg fun hc => hc.1 ((h v).1.2 hc.2)]

theorem drainEvq_clampFrames (nfr : BitVec 16) (s : State) :
    drainEvq (commit (clampFrames nfr s)) = dispatchAll s.evq (drainStart nfr s) := by
  unfold drainEvq drainStart
  rw [clampFrames_eq]
  rfl

theorem clampFrames_zero (s : State) : clampFrames 0 s = s := if_neg (Nat.not_lt_zero _)

theorem renderFrames_zero (maxblk : BitVec 18) : renderFrames 0 maxblk = 0 := Nat.zero_min _

/-- A block of no frames moves no voice, LFO phase or OUTBUF byte (R259). -/
theorem renderAudio_zero {s : State} (h : s.outbuf.wf) : renderAudio 0 s = s := by
  obtain ⟨ws, hl, -, hf, hv⟩ := renderAudio_spec 0 s
  rw [List.length_eq_zero_iff.1 hl, Memory.writeChannels_nil _ h, BitVec.zero_mul, BitVec.add_zero] at hf
  exact State.eq_of_voices hf fun w => by
    rw [hv w, renderNext_zero, ite_self]

theorem dispatchAll_lifeMatches {nfr : BitVec 16} {s u : State} (hs : s.LifeMatches)
    (h : dispatchAll s.evq (drainStart nfr s) = .next u) : u.LifeMatches :=
  voiceInvariant_lifeMatches.keptByVoiceOps.dispatchAll (fun v => by
    rw [drainStart_voice]
    exact Voice.lifeMatches_updated (hs v)) h

/-- A voice after its render, its sections by the reference (R223 to R227). -/
theorem renderNext_eq_reference (s : State) (n : Nat) (x : Voice) :
    renderNext s.ctx (lfoFill n s.lfoPhase s.derived.lfoInc) n x =
      { x with
        phase := x.phase + BitVec.ofNat 32 n * x.inc
        rng0 := iter xs n x.rng0
        rng1 := iter xs n x.rng1
        aenv := iter Env.tick n x.aenv
        fenv := iter Env.tick n x.fenv
        f0 := (sectionsAt s n x n).f0
        f1 := (sectionsAt s n x n).f1 } := by
  rw [← renderNext_sections]
  exact renderNext_eq _ _ _ _

end Sys2Proof.Machine

namespace Sys2Proof

open Machine

/-- Settles O16: the same-note release, then the two branches of allocation; what the started voice keeps of
its old value is its noise, its envelope lengths and its free_seq. -/
theorem noteOnAlwaysTakesVoice : Obligations.NoteOnAlwaysTakesVoice := by
  intro s m vel hroom
  obtain ⟨r, hr, -⟩ := noteOff_tail m s
  have hframe := noteOff_tail_frame hr
  have hseq : r.seq = s.seq := by rw [hframe]
  have hfs : r.fs = s.fs := by rw [hframe]
  obtain ⟨t, v, q, ht, hsame, hother, hvoice, hcase⟩ :=
    allocate_of_room (s := r) m vel (by rw [State.SeqRoom, hseq]; exact hroom)
  rw [hseq] at hcase
  have hon : noteOn m vel s = .next t := by rw [noteOn, hr, andThen_next, ht]
  have hfree : (t.voice v).freeSeq = q := by rw [hvoice]
  refine ⟨r, t, v, hr, noteOff_tail_voice hr, hon, SameButVoices.trans (noteOff_tail_sameButVoices hr) hsame,
    hother, by rw [hvoice]; rfl, by rw [hfree]; exact hcase, ?_⟩
  rintro x rfl
  obtain ⟨hrng0, hrng1⟩ := noteOff_tail_rng hr v
  rw [hvoice, hfs]
  exact ⟨rfl, rfl, rfl, (gainOf_toNat vel).1, rfl, rfl, rfl, rfl, hrng0, hrng1, rfl, rfl⟩

/-- Settles O17: the release keeps the sounding voices, and allocation adds one, or replaces one of all
ten. -/
theorem noteOnFillsPool : Obligations.NoteOnFillsPool := by
  intro s t m vel h
  obtain ⟨u, hu, h⟩ := andThen_eq_next.1 h
  rw [soundingCount_eq_card, soundingCount_eq_card, allocate_soundingSet_card h, noteOff_tail_soundingSet hu]

/-- Settles O18: no player, no turn of the loop acts; one player, the loop is the stop of that voice. -/
theorem noteOffStopsThePlayingVoice : Obligations.NoteOffStopsThePlayingVoice := by
  refine fun s m hone hroom => ⟨fun hno => ?_, fun v hact hnote => ?_⟩
  · have hno' : ∀ v, ¬ s.plays m v := fun v hp => hno v (State.plays_iff.1 hp)
    exact ⟨noteOff_of_no_player hno' false, noteOff_of_no_player hno' true⟩
  · have hv : s.plays m v := State.plays_iff.2 ⟨hact, hnote⟩
    refine ⟨noteOff_of_player (q := s.seq) hone hv (stopNote_tail v s), ?_⟩
    rw [← Voice.hardStopped_eq]
    exact noteOff_of_player hone hv (stopNote_hard_of_room hroom v)

/-- Settles O19: both loops by their laws, a hard-stopped voice without the unseen gate off. -/
theorem allNotesOffStopsEveryVoice : Obligations.AllNotesOffStopsEveryVoice := by
  refine fun s => ⟨fun hroom => ?_, allOff_tail s⟩
  obtain ⟨t, ht, -⟩ := dispatch_room (e := .allNotesOff true) (n := 0) (by simpa using hroom)
  obtain ⟨hsame, hseq, hv⟩ := allOff_hard ht
  refine ⟨t, ht, hsame, hseq, fun v => ?_⟩
  rw [hv v, ← Voice.hardStopped_eq]
  by_cases hi : (s.voice v).state = .idle
  · rw [if_pos hi, if_pos (State.isIdle_iff.2 hi)]
    exact ⟨hi, rfl⟩
  · rw [if_neg hi, if_neg fun h => hi (State.isIdle_iff.1 h)]
    exact ⟨rfl, rfl⟩

/-- Settles O20: the law of free_finished, with room for its stamps. -/
theorem finishedVoicesAreFreed : Obligations.FinishedVoicesAreFreed := by
  intro s hroom
  obtain ⟨t, ht, -⟩ := freeFinished_room (s := s) (n := 0) (by simpa using hroom)
  obtain ⟨hsame, -, hv⟩ := freeFinished_spec ht
  simp only [Env.not_isActive] at hv
  exact ⟨t, ht, hsame, hv⟩

/-- Settles O22: with no frames the audio steps change nothing, and with the lifecycle in agreement no voice
is freed. -/
theorem zeroLengthBlock : Obligations.ZeroLengthBlock := by
  intro s t hwf hlife h
  obtain ⟨u, w, hu, hw, rfl⟩ := execRender_eq_next.1 h
  have hframe := (dispatchAll_frame hu).1
  rw [drainStart_eq, clampFrames_zero] at hframe
  have hout : u.outbuf = s.outbuf := by rw [hframe]
  have hphase : u.lfoPhase = s.lfoPhase := by rw [hframe]
  have hcount : u.blockCount = s.blockCount := by rw [hframe]
  have hstatus : u.status = s.status := by rw [hframe]
  rw [renderFrames_zero, renderAudio_zero (hout ▸ hwf),
    freeFinished_of_lifeMatches (dispatchAll_lifeMatches hlife hu)] at hw
  cases hw
  refine ⟨u, ?_, hout, hphase, ?_⟩
  · rw [← drainEvq_clampFrames, clampFrames_zero] at hu
    exact hu
  · rw [← hcount, ← hstatus]
    rfl

/-- Settles O23: an IDLE voice stays; a rendered one is `renderNext`, and it is freed exactly when its
amplitude envelope has finished. -/
theorem renderAdvancesSoundingVoices : Obligations.RenderAdvancesSoundingVoices := by
  intro s t nfr h
  obtain ⟨u, hu, hv⟩ := execRender_voice h
  refine ⟨u, renderFrames nfr s.maxblk, (drainEvq_clampFrames nfr s).trans hu, rfl, fun v => ?_⟩
  have hvv := hv v
  simp only [State.isIdle_iff] at hvv
  split
  · next hi => rwa [if_pos hi] at hvv
  · next hi =>
    rw [if_neg hi] at hvv
    simp only [renderNext_eq_reference] at hvv
    rcases hvv with ⟨e, hne⟩ | ⟨q, e, he, hlo, hhi⟩ <;> rw [e]
    · simp only [if_neg hne]
      exact ⟨trivial, trivial, fun hmode => sectionsAt_f1 hmode _ _ _⟩
    · simp only [if_pos he]
      exact ⟨trivial, ⟨hlo, hhi⟩, fun hmode => sectionsAt_f1 hmode _ _ _⟩

end Sys2Proof
end

section
/-! The envelope's timing and lengths (R151, R156, R163), and the filter's derived values, cutoff,
coefficients and sections (R181, R190 to R200). -/

namespace Sys2Proof.Machine

/-! ### A running segment, sample by sample -/

/-- The unit at sample k of its segment (R152, R156). -/
def Env.atSample (e : Env) (k : Nat) : Env :=
  { e with
    k := BitVec.ofNat 20 k
    level := BitVec.ofInt 25 (segLevel e.start.toNat e.target.toNat k e.n.toNat) }

/-- A unit whose segment has just been built is at sample 0. -/
theorem Env.atSample_zero {e : Env} (hk : e.k = 0) (hl : e.level = e.start) : e.atSample 0 = e := by
  have hlevel : BitVec.ofInt 25 (segLevel e.start.toNat e.target.toNat 0 e.n.toNat) = e.level := by
    rw [segLevel_zero, BitVec.ofInt_natCast, BitVec.ofNat_toNat, BitVec.setWidth_eq, hl]
  unfold Env.atSample
  rw [hlevel, show BitVec.ofNat 20 0 = e.k from hk.symm]

/-- A completed segment is exactly at its target. -/
theorem Env.atSample_end {e : Env} (hn : 0 < e.n.toNat) :
    e.atSample e.n.toNat = { e with k := e.n, level := e.target } := by
  rw [Env.atSample, segLevel_end _ _ hn, BitVec.ofInt_natCast, BitVec.ofNat_toNat, BitVec.ofNat_toNat,
    BitVec.setWidth_eq, BitVec.setWidth_eq]

theorem Env.advance_atSample {e : Env} {k : Nat} (hk : k < e.n.toNat) :
    (e.atSample k).advance = e.atSample (k + 1) := by
  have hn := e.n.isLt
  have hkk : (BitVec.ofNat 20 k).toNat = k := by
    rw [BitVec.toNat_ofNat]
    omega
  have hlt : (e.atSample k).k < (e.atSample k).n := by
    rw [BitVec.lt_def]
    exact hkk.symm ▸ hk
  unfold Env.advance
  rw [if_pos hlt]
  simp only [Env.atSample, hkk, BitVec.ofNat_add]
  rfl

theorem Env.complete_of_running {e : Env} (h : e.k ≠ e.n) : e.complete = e := if_neg h

/-- A tick inside a segment moves one sample along it (R156). -/
theorem Env.tick_atSample {e : Env} {k : Nat} (hs : e.stage ≠ .idle) (hk : k + 1 < e.n.toNat) :
    (e.atSample k).tick = e.atSample (k + 1) := by
  have hne : (e.atSample (k + 1)).k ≠ (e.atSample (k + 1)).n := fun h => by
    have hn := e.n.isLt
    have := congrArg BitVec.toNat h
    simp only [Env.atSample, BitVec.toNat_ofNat] at this
    omega
  rw [Env.tick_running (e := e.atSample k) hs, Env.advance_atSample (by omega), Env.complete_of_running hne]

section Segment

variable {e : Env} (hs : e.stage ≠ .idle) (hk : e.k = 0) (hl : e.level = e.start)
include hs hk hl

theorem Env.iter_tick_inside {j : Nat} (hj : j < e.n.toNat) : iter Env.tick j e = e.atSample j := by
  induction j with
  | zero => exact (Env.atSample_zero hk hl).symm
  | succ j ih => rw [iter_succ', ih (by omega), Env.tick_atSample hs hj]

/-- The tick that reaches a segment's end has the target's level and completes the segment (R156). -/
theorem Env.iter_tick_end (hn : 0 < e.n.toNat) :
    iter Env.tick e.n.toNat e = Env.complete { e with k := e.n, level := e.target } := by
  obtain ⟨j, hj⟩ : ∃ j, e.n.toNat = j + 1 := ⟨e.n.toNat - 1, by omega⟩
  have hlast : iter Env.tick j e = e.atSample j := Env.iter_tick_inside hs hk hl (by omega)
  rw [← Env.atSample_end hn, hj, iter_succ', hlast, Env.tick_running (e := e.atSample j) hs,
    Env.advance_atSample (by omega)]

theorem Env.iter_tick_stage {j : Nat} (hj : j < e.n.toNat) : (iter Env.tick j e).stage = e.stage := by
  rw [Env.iter_tick_inside hs hk hl hj]
  rfl

end Segment

theorem Env.complete_level (e : Env) : e.complete.level = e.level := by
  unfold Env.complete
  split
  · cases h : e.stage <;> rfl
  · rfl

/-- A tick short of the segment's end gives the segment's next level (R156). -/
theorem Env.tick_level {e : Env} (hs : e.stage ≠ .idle) (hk : e.k < e.n) (hstart : e.start.toNat ≤ 16777216)
    (htarget : e.target.toNat ≤ 16777216) :
    (e.tick.level.toNat : Int) = segLevel e.start.toNat e.target.toNat (e.k.toNat + 1) e.n.toNat := by
  have hk' : e.k.toNat < e.n.toNat := hk
  obtain ⟨hlo, hhi⟩ := segLevel_between e.start.toNat e.target.toNat (k := e.k.toNat + 1)
    (n := e.n.toNat) (by omega) (by omega)
  rw [Env.tick_running hs, Env.complete_level, Env.advance, if_pos hk]
  exact toNat_ofInt_level (by omega) (by omega)

/-! ### From a gate on to SUSTAIN -/

/-- The unit at the start of its decay, which an attack from 0 reaches at tick na (R150, R163). -/
def Env.decayStart (e : Env) : Env :=
  { e with stage := .decay, level := levelOne, start := levelOne, target := e.sus, k := 0, n := e.nd }

/-- The unit in SUSTAIN, which the decay reaches at tick nd (R150, R163). -/
def Env.sustained (e : Env) : Env :=
  { e with stage := .sustain, level := e.sus, start := levelOne, target := e.sus, k := e.nd, n := e.nd }

theorem Env.iter_tick_attack {e : Env} (hna : 0 < e.na.toNat) :
    iter Env.tick e.na.toNat e.hardReset.gateOn = e.decayStart := by
  have h := Env.iter_tick_end (e := e.hardReset.gateOn) (by simp [Env.gateOn]) rfl rfl hna
  exact h.trans (if_pos rfl)

theorem Env.iter_tick_decay {e : Env} (hnd : 0 < e.nd.toNat) :
    iter Env.tick e.nd.toNat e.decayStart = e.sustained := by
  have h := Env.iter_tick_end (e := e.decayStart) (by simp [Env.decayStart]) rfl rfl hnd
  exact h.trans (if_pos rfl)

/-- A unit in SUSTAIN at its segment's end holds (R156). -/
theorem Env.tick_sustained (e : Env) : e.sustained.tick = e.sustained := by
  have hadv : e.sustained.advance = e.sustained := if_neg (BitVec.lt_irrefl _)
  rw [Env.tick_running (by simp [Env.sustained]), hadv]
  exact if_pos rfl

theorem iter_fixed {α : Type} {f : α → α} {x : α} (h : f x = x) (n : Nat) : iter f n x = x := by
  induction n with
  | zero => rfl
  | succ n ih => rw [iter, h, ih]

/-! ### From a gate off to IDLE -/

/-- A segment to 0 that reads 0 early is less than one step of its target away (R152). -/
theorem lt_of_segLevel_eq_zero {l j n : Nat} (hj : j < n) (h : segLevel l 0 j n = 0) : l * (n - j) < n := by
  have hn : (0 : Int) < n := by omega
  unfold segLevel fdiv at h
  have hq : -(l : Int) * j / n = -l := by
    have : ((0 : Nat) : Int) - l = -l := by omega
    rw [this] at h
    omega
  have hlt := Int.lt_ediv_add_one_mul_self (-(l : Int) * j) hn
  rw [hq] at hlt
  zify [hj.le]
  linarith

/-- The release a gate off starts (R154). -/
theorem Env.iter_tick_release {e : Env} {j : Nat} (hnr : 0 < e.nr.toNat)
    (h : e.stage = .attack ∨ e.stage = .decay ∨ e.stage = .sustain) :
    (j < e.nr.toNat → iter Env.tick j e.gateOff = e.gateOff.atSample j) ∧
      (e.nr.toNat ≤ j →
        iter Env.tick j e.gateOff = { e.gateOff with stage := .idle, level := 0, k := e.nr }) := by
  rw [Env.gateOff_of_held h]
  refine ⟨fun hj => Env.iter_tick_inside (by simp) rfl rfl hj, fun hj => ?_⟩
  have hend := Env.iter_tick_end
    (e := { e with stage := .release, start := e.level, target := 0, k := 0, n := e.nr }) (by simp) rfl
    rfl hnr
  obtain ⟨i, rfl⟩ := Nat.exists_eq_add_of_le hj
  rw [iter_add]
  refine (congrArg _ (hend.trans (if_pos rfl))).trans ?_
  exact iter_fixed (Env.tick_idle rfl) i

/-! ### Lengths -/

theorem legal_product_bounds {x fs : BitVec 18} (hx : 10 ≤ x.toNat ∧ x.toNat ≤ 5000)
    (hfs : legalValue .cfgSampleRate fs) :
    80000 ≤ x.toNat * fs.toNat ∧ x.toNat * fs.toNat ≤ 960000000 := by
  obtain ⟨hlo, hhi⟩ := hfs
  exact ⟨Nat.mul_le_mul hx.1 hlo, Nat.mul_le_mul hx.2 hhi⟩

/-- A time in milliseconds fits the 20 bits of a length (R151). -/
theorem toNat_ofNat_length {p c : Nat} (hp : p ≤ 960000000) (hc : c < 1000) :
    (BitVec.ofNat 20 ((p + c) / 1000)).toNat = (p + c) / 1000 := by
  rw [BitVec.toNat_ofNat, Nat.mod_eq_of_lt (by omega)]

theorem toNat_sustainLevel {s : BitVec 18} (hs : s.toNat ≤ 1000) :
    (BitVec.ofNat 25 (sustainLevel s)).toNat = s.toNat * 2 ^ 24 / 1000 := by
  rw [BitVec.toNat_ofNat, sustainLevel, Nat.mod_eq_of_lt (by omega)]

/-! ### Derived values -/

/-- The LFO's increment over the legal frequencies and rates (R181). -/
theorem lfoInc_bounds {f fs : Nat} (hf : 10 ≤ f ∧ f ≤ 2000) (hfs : 8000 ≤ fs ∧ fs ≤ 192000) :
    2236 ≤ f * 2 ^ 32 / (100 * fs) ∧ f * 2 ^ 32 / (100 * fs) ≤ 10737418 :=
  ⟨(Nat.le_div_iff_mul_le (by omega)).2 (by omega),
    Nat.le_of_lt_succ ((Nat.div_lt_iff_lt_mul (by omega)).2 (by omega))⟩

theorem amountLevel_le {x : BitVec 18} (h : x.toNat ≤ 1000) : amountLevel x ≤ 16777216 := by
  unfold amountLevel
  omega

/-- The damping over the legal resonances (R195). -/
theorem fk_bounds {x : BitVec 18} (h : x.toNat ≤ 1000) : 486492866 ≤ fkOf x ∧ fkOf x ≤ 1518500249 := by
  unfold fkOf fqOf
  exact ⟨(Nat.le_div_iff_mul_le (by omega)).2 (by omega),
    Nat.le_of_lt_succ ((Nat.div_lt_iff_lt_mul (by omega)).2 (by omega))⟩

/-! ### The cutoff -/

/-- A Q24 product with a factor in [-ONE, ONE] stays within the other factor (R194). -/
theorem scaled_bounds {d : Nat} {x : Int} (hx : -16777216 ≤ x ∧ x ≤ 16777216) :
    -(d : Int) ≤ (d : Int) * x / 16777216 ∧ (d : Int) * x / 16777216 ≤ d := by
  have hd : (0 : Int) ≤ d := Int.natCast_nonneg d
  exact ⟨(Int.le_ediv_iff_mul_le (by decide)).2 (by nlinarith),
    Int.ediv_le_of_le_mul (by decide) (by nlinarith)⟩

theorem scaled_nonneg {d : Nat} {x : Int} (hx : 0 ≤ x) : 0 ≤ (d : Int) * x / 16777216 :=
  Int.ediv_nonneg (mul_nonneg (Int.natCast_nonneg d) hx) (by decide)

theorem menv_of_enabled {c : BlockCtx} (h : c.act.fenvEnable = 1) (fe : Int) :
    menv c fe = 16777216 - c.derived.fenvAmt + c.derived.fenvAmt * fe / 16777216 := if_pos h

theorem menv_of_disabled {c : BlockCtx} (h : c.act.fenvEnable ≠ 1) (fe : Int) : menv c fe = 16777216 :=
  if_neg h

theorem mlfo_eq (c : BlockCtx) (avg : Int) :
    mlfo c avg = 16777216 + c.derived.lfoDepth * avg / 16777216 := rfl

theorem menv_bounds (c : BlockCtx) {fe : Int} (h : 0 ≤ fe ∧ fe ≤ 16777216) :
    16777216 - (c.derived.fenvAmt : Int) ≤ menv c fe ∧ menv c fe ≤ 16777216 := by
  by_cases he : c.act.fenvEnable = 1
  · have hlo := scaled_nonneg (d := c.derived.fenvAmt) h.1
    have hhi := (scaled_bounds (d := c.derived.fenvAmt) (x := fe) (by omega)).2
    rw [menv_of_enabled he]
    omega
  · rw [menv_of_disabled he]
    omega

theorem cutoff_eq (c : BlockCtx) (fe avg : Int) :
    cutoff c fe avg = min ((c.derived.fcmax : Int) * 65536) (max (20 * 65536)
      ((c.act.filterCutoff.toNat : Int) * 65536 * menv c fe / 16777216 * mlfo c avg / 16777216)) := rfl

/-! ### The sine and cosine of a cutoff's angle -/

theorem sinq30_eq {p : Word} {i f : Nat} (hp : p.toNat = i * 2 ^ 22 + f) (hf : f < 2 ^ 22) :
    sinq30 p = sinRom i + fdiv ((sinRom ((i + 1) % 1024) - sinRom i) * f) (2 ^ 22) := by
  have hi : p.toNat / 2 ^ 22 = i := by omega
  have hr : p.toNat % 2 ^ 22 = f := by omega
  simp only [sinq30, hi, hr]

/-- A bound below both table entries around a phase bounds its interpolated sine (R270). -/
theorem le_sinq30_of_entries {p : Word} {c : Int} (ha : c ≤ sinRom (p.toNat / 2 ^ 22))
    (hb : c ≤ sinRom ((p.toNat / 2 ^ 22 + 1) % 1024)) : c ≤ sinq30 p := by
  have hbetween := interp_between (sinRom (p.toNat / 2 ^ 22)) (sinRom ((p.toNat / 2 ^ 22 + 1) % 1024))
    (p.toNat % 2 ^ 22 : Nat) 22 (by omega) (by omega)
  exact (le_min ha hb).trans hbetween.1

theorem sinRom_zero : sinRom 0 = 0 := by decide +kernel

theorem sinRom_one : sinRom 1 = 6588356 := by decide +kernel

/-- The first quarter turn of the table, after its first entry, is positive (R270). -/
theorem sinRom_first_quarter : ∀ i < 257, 1 ≤ i → 1 ≤ sinRom i := by decide +kernel

/-- From a quarter turn on to the entry before the greatest cutoff's cosine, 0.45 of a turn (R270). -/
theorem sinRom_second_quarter : ∀ i < 487, 256 ≤ i → 167969471 ≤ sinRom i := by decide +kernel

/-- The entries around the greatest cutoff's cosine. -/
theorem sinRom_greatest_cutoff : sinRom 486 = 170572633 ∧ sinRom 487 = 164064728 := by decide +kernel

/-- The sine of an angle above 0 and below a quarter turn is positive. -/
theorem sinq30_pos {p : Word} (hlo : 1 ≤ p.toNat) (hhi : p.toNat < 2 ^ 30) : 1 ≤ sinq30 p := by
  by_cases hi : p.toNat < 2 ^ 22
  · rw [sinq30_eq (i := 0) (f := p.toNat) (by omega) hi, sinRom_zero, sinRom_one]
    unfold fdiv
    omega
  · have hi1 : 1 ≤ p.toNat / 2 ^ 22 := by omega
    have hi2 : p.toNat / 2 ^ 22 < 256 := by omega
    exact le_sinq30_of_entries (sinRom_first_quarter _ (by omega) hi1)
      (by rw [Nat.mod_eq_of_lt (by omega)]; exact sinRom_first_quarter _ (by omega) (by omega))

/-- The cosine of an angle up to 0.45 of a half turn, read a quarter turn on, is at least that of the greatest
(R196). -/
theorem le_sinq30_of_second_quarter {p : Word} (hlo : 2 ^ 30 ≤ p.toNat) (hhi : p.toNat ≤ 2040109465) :
    167969471 ≤ sinq30 p := by
  by_cases hi : p.toNat < 486 * 2 ^ 22
  · exact le_sinq30_of_entries (sinRom_second_quarter _ (by omega) (by omega))
      (by rw [Nat.mod_eq_of_lt (by omega)]; exact sinRom_second_quarter _ (by omega) (by omega))
  · obtain ⟨h486, h487⟩ := sinRom_greatest_cutoff
    rw [sinq30_eq (i := 486) (f := p.toNat - 486 * 2 ^ 22) (by omega) (by omega), h486, h487]
    unfold fdiv
    omega

theorem toNat_wrap32 {x : Int} (h0 : 0 ≤ x) (h1 : x < 2 ^ 32) : ((wrap32 x).toNat : Int) = x := by
  rw [wrap32, BitVec.toNat_ofInt]
  omega

/-- The angle of a legal cutoff, below 0.45 of a half turn (R196). -/
theorem cutoffAngle_bounds {fs : BitVec 18} {fc : Int} (hfs : legalValue .cfgSampleRate fs)
    (hlo : 20 * 65536 ≤ fc) (hhi : fc ≤ (min 20000 (45 * fs.toNat / 100) : Nat) * 65536) :
    0 < cutoffAngle fs fc ∧ cutoffAngle fs fc ≤ 966367641 := by
  obtain ⟨hfs1, hfs2⟩ := hfs
  change 8000 ≤ fs.toNat at hfs1
  change fs.toNat ≤ 192000 at hfs2
  have hpos : (0 : Int) < fs.toNat := by omega
  unfold cutoffAngle fdiv shl
  have hge : 1 ≤ fc * 2 ^ 15 / fs.toNat := (Int.le_ediv_iff_mul_le hpos).2 (by omega)
  have hlt : fc * 2 ^ 15 / fs.toNat < 966367642 := (Int.ediv_lt_iff_lt_mul hpos).2 (by omega)
  omega

/-- The denominator of a1, for a gain from a sine of at most ONE and the least cosine (R196). -/
theorem denominator_bounds {s co g : Int} {fk : Nat} (hs : 1 ≤ s ∧ s ≤ 2 ^ 30)
    (hco : 167969471 ≤ co ∧ co ≤ 2 ^ 30) (hg : g = s * 2 ^ 30 / co) (hfk : fk ≤ 1518500249) :
    0 < g ∧ 2 ^ 60 < 2 ^ 60 + g * (g + fk) ∧ 2 ^ 60 + g * (g + fk) < 2 ^ 67 := by
  have hco0 : 0 < co := by omega
  have hg1 : 1 ≤ g := by
    rw [hg]
    exact (Int.le_ediv_iff_mul_le hco0).2 (by omega)
  have hg2 : g < 6864000000 := by
    rw [hg]
    exact (Int.ediv_lt_iff_lt_mul hco0).2 (by omega)
  have hlo : 0 < g * (g + fk) := by positivity
  have hhi : g * (g + fk) ≤ 6864000000 * (6864000000 + 1518500249) := by
    gcongr
    exact_mod_cast hfk
  omega

/-! ### The sections -/

/-- A signed register holds its saturated value (R9, R33). -/
theorem toInt_signedReg (v : Int) : (signedReg v).toInt = min (2 ^ 31 - 1) (max (-2 ^ 31) v) := by
  unfold signedReg sat32
  rw [BitVec.toInt_ofInt]
  exact Int.bmod_eq_of_le (by omega) (by omega)

theorem filterType_idxOf (mode : BitVec 18) :
    mode.toNat % 3 = ([.lowPass, .highPass, .bandPass] : List FilterType).idxOf (filterType mode) := by
  unfold filterType
  split
  · next h => rw [h]; rfl
  · next h => rw [h]; rfl
  · next h0 h1 =>
    have h2 : mode.toNat % 3 = 2 := by
      have h0' : mode.toNat % 3 ≠ 0 := h0
      have h1' : mode.toNat % 3 ≠ 1 := h1
      omega
    rw [h2]
    rfl

end Sys2Proof.Machine

namespace Sys2Proof

open Machine

/-- Settles O31: a segment sample by sample, from the gate on through the ends of attack and decay, and from
the gate off to the end of the release. -/
theorem envelopeTiming : Obligations.EnvelopeTiming := by
  refine ⟨fun e => Env.tick_level, fun e hna hnd _ => ⟨?_, fun j hj => ?_, fun j hj hj' => ?_,
      fun j hj => ?_⟩, fun e hnr hl hst => ⟨fun j hj => ⟨?_, fun h => ?_⟩, fun j hj => ?_⟩⟩
  · rw [Env.iter_tick_attack hna]
    rfl
  · exact Env.iter_tick_stage (e := e.hardReset.gateOn) (by simp [Env.gateOn]) rfl rfl hj
  · obtain ⟨i, rfl⟩ := Nat.exists_eq_add_of_le hj
    rw [iter_add, Env.iter_tick_attack hna]
    exact Env.iter_tick_stage (e := e.decayStart) (by simp [Env.decayStart]) rfl rfl
      (show i < e.nd.toNat by omega)
  · obtain ⟨i, rfl⟩ := Nat.exists_eq_add_of_le hj
    rw [iter_add, iter_add, Env.iter_tick_attack hna, Env.iter_tick_decay hnd,
      iter_fixed e.tick_sustained]
    exact ⟨rfl, rfl⟩
  · rw [(Env.iter_tick_release hnr hst).1 hj, Env.gateOff_of_held hst]
    rfl
  · rw [(Env.iter_tick_release hnr hst).1 hj, Env.gateOff_of_held hst] at h
    obtain ⟨hlo, hhi⟩ := segLevel_between e.level.toNat 0 hj.le hnr
    have hlevel := toNat_ofInt_level (x := segLevel e.level.toNat 0 j e.nr.toNat) (by omega) (by omega)
    refine lt_of_segLevel_eq_zero hj (hlevel.symm.trans ?_)
    exact congrArg (fun b : BitVec 25 => (b.toNat : Int)) h
  · rw [(Env.iter_tick_release hnr hst).2 hj]
    exact ⟨rfl, rfl⟩

/-- Settles O32: a legal time is at most 960000 samples, so no length wraps, and rounding up and rounding
differ by at most one sample. -/
theorem envelopeLengths : Obligations.EnvelopeLengths := by
  refine ⟨fun a fs => ⟨rfl, rfl⟩, fun a d s r fs ha hd hs hr hfs q hq => ?_⟩
  obtain ⟨ha1, ha2⟩ := legal_product_bounds ha hfs
  obtain ⟨hd1, hd2⟩ := legal_product_bounds hd hfs
  obtain ⟨hr1, hr2⟩ := legal_product_bounds hr hfs
  have hna : q.na.toNat = (a.toNat * fs.toNat + 999) / 1000 := hq ▸ toNat_ofNat_length ha2 (by decide)
  have hnd : q.nd.toNat = (d.toNat * fs.toNat + 999) / 1000 := hq ▸ toNat_ofNat_length hd2 (by decide)
  have hnr : q.nr.toNat = (r.toNat * fs.toNat + 500) / 1000 := hq ▸ toNat_ofNat_length hr2 (by decide)
  have hsus : q.sus.toNat = s.toNat * 2 ^ 24 / 1000 := hq ▸ toNat_sustainLevel hs.2
  have hs2 : s.toNat ≤ 1000 := hs.2
  have hsum : (a.toNat + d.toNat) * fs.toNat = a.toNat * fs.toNat + d.toNat * fs.toNat := Nat.add_mul _ _ _
  refine ⟨hna, hnd, hnr, hsus, ?_, by omega, by omega, by omega, by omega, by omega⟩
  simp only [List.mem_cons, List.not_mem_nil, or_false, forall_eq_or_imp, forall_eq]
  omega

/-- Settles O34: the formulas are the definitions, and a Q24 factor in range keeps each product in range. -/
theorem cutoffStaysInBounds : Obligations.CutoffStaysInBounds := by
  intro c fe avg _ _ hfc hfe hfe' havg havg'
  obtain ⟨hm, hm'⟩ := menv_bounds c ⟨hfe, hfe'⟩
  obtain ⟨hl, hl'⟩ := scaled_bounds (d := c.derived.lfoDepth) ⟨havg, havg'⟩
  have hfc' : (20 : Int) ≤ c.derived.fcmax := by exact_mod_cast hfc
  have hcut := cutoff_eq c fe avg
  refine ⟨hm, hm', fun he => menv_of_enabled he fe, fun he => ⟨?_, ?_⟩, fun he => menv_of_disabled he fe,
    mlfo_eq c avg, ?_, ?_, hcut, ?_, ?_⟩
  · rw [menv_of_enabled he, mul_zero, Int.zero_ediv, add_zero]
  · rw [menv_of_enabled he, Int.mul_ediv_cancel _ (by decide), sub_add_cancel]
  · rw [mlfo_eq]
    omega
  · rw [mlfo_eq]
    omega
  · rw [hcut]
    exact le_min (by omega) (le_max_left _ _)
  · rw [hcut]
    exact min_le_left _ _

/-- Settles O35: each derived value is its formula, bounded over the legal parameters and rates. -/
theorem derivedValueRanges : Obligations.DerivedValueRanges := by
  rintro a fs hfreq hlfo hfenv hres hfs d rfl
  obtain ⟨hinc, hinc'⟩ := lfoInc_bounds hfreq hfs
  obtain ⟨hfk, hfk'⟩ := fk_bounds hres.2
  have hfs1 : 8000 ≤ fs.toNat := hfs.1
  have hword : (derive a fs).lfoInc.toNat = a.lfoFreq.toNat * 2 ^ 32 / (100 * fs.toNat) := by
    change (BitVec.ofNat 32 _).toNat = _
    rw [BitVec.toNat_ofNat, Nat.mod_eq_of_lt (by omega)]
  have hfcmax : (derive a fs).fcmax = min 20000 (45 * fs.toNat / 100) := rfl
  exact ⟨hword, hword ▸ hinc, hword ▸ hinc', rfl, amountLevel_le hlfo.2, rfl, amountLevel_le hfenv.2,
    hfcmax, by omega, by omega, rfl, rfl, hfk, hfk'⟩

/-- Settles O36: the angle is at most 0.45 of a half turn, where the cosine is at least 167969471, which
bounds the gain and with it the denominator. -/
theorem coefficientsStayFinite : Obligations.CoefficientsStayFinite := by
  rintro fs fk fc hfs - hfk hlo hhi th g rfl rfl
  obtain ⟨hth, hth'⟩ := cutoffAngle_bounds hfs hlo hhi
  have hsine := toNat_wrap32 (x := cutoffAngle fs fc) (by omega) (by omega)
  have hcosine := toNat_wrap32 (x := cutoffAngle fs fc + 2 ^ 30) (by omega) (by omega)
  have hs := sinq30_pos (p := wrap32 (cutoffAngle fs fc)) (by omega) (by omega)
  have hco := le_sinq30_of_second_quarter (p := wrap32 (cutoffAngle fs fc + 2 ^ 30)) (by omega) (by omega)
  obtain ⟨hg, hden, hden'⟩ := denominator_bounds (g := (coeffs fs fk fc).g) (fk := fk)
    ⟨hs, (sinq30_bounds _).2⟩ ⟨hco, (sinq30_bounds _).2⟩ rfl hfk
  exact ⟨rfl, hth, by omega, hco, rfl, hg, hden, hden', rfl, rfl, rfl⟩

/-- Settles O37: a register holds the saturated value, an output is saturated by definition, and the modes
are `twoSections`. -/
theorem filterSectionsSaturate : Obligations.FilterSectionsSaturate := by
  refine ⟨filterType_idxOf, ?_, fun c k x f => ⟨fun h => ?_, fun h y hy => ?_⟩⟩
  · rintro k x f v3 v1 v2 rfl rfl rfl
    exact ⟨toInt_signedReg _, toInt_signedReg _, fun fk => ⟨rfl, rfl, rfl⟩⟩
  · have htwo : twoSections c.act.filterMode = false := decide_eq_false (by omega)
    rw [filterOut, filterNext, htwo]
    exact ⟨rfl, rfl⟩
  · have htwo : twoSections c.act.filterMode = true := decide_eq_true h
    rw [filterOut, filterNext, htwo, hy]
    exact ⟨rfl, rfl⟩

end Sys2Proof
end
